-- ==== Sys2Proof/Word.lean ====
section
/-!
DEFINITION. The value types of the CORE: 64-bit words, bytes, the 73-bit logical bus, the OP port, and the
logical decimal value of 10_state.md R20. Data only: every operation on them is in Decode.lean or Machine/.
-/

namespace Sys2Proof

/-- An encoded value: a 64-bit word, bit 63 most significant (R8, R24). -/
abbrev Word := BitVec 64

/-- One byte of a text (R13). -/
abbrev Byte := BitVec 8

/-- A value of the 73-bit logical bus (R70). -/
abbrev Bus := BitVec 73

/-- A value of the 4-bit operation select (R29). -/
abbrev OpCode := BitVec 4

/-- The classification of a logical value (R20). -/
inductive Class where
  | finite
  | infinity
  | quietNaN
  | signalingNaN
  deriving DecidableEq, Repr

/-- A logical decimal value `LD(s, k, c, e)` (R11, R20): `s` is true for negative, `c` and `e` are exact integers. -/
structure LD where
  /-- the sign, true = negative -/
  s : Bool
  /-- the class -/
  k : Class
  /-- the significand, meaningful for `finite` only -/
  c : Nat
  /-- the exponent, meaningful for `finite` only -/
  e : Int
  deriving DecidableEq, Repr

/-- The bytes of a text that are no digit but have a meaning in it (R13, R102, R121): ASCII codes. -/
def asciiPlus : Byte := 0x2B
/-- ASCII `-`. -/
def asciiMinus : Byte := 0x2D
/-- ASCII `.`. -/
def asciiPoint : Byte := 0x2E
/-- ASCII `e`. -/
def asciiLowerE : Byte := 0x65
/-- ASCII `E`. -/
def asciiUpperE : Byte := 0x45
/-- The ASCII codes of `nan` (R101, R121). -/
def textNan : List Byte := [0x6E, 0x61, 0x6E]
/-- The ASCII codes of `inf` (R101, R121). -/
def textInf : List Byte := [0x69, 0x6E, 0x66]
/-- The ASCII codes of `infinity` (R101). -/
def textInfinity : List Byte := [0x69, 0x6E, 0x66, 0x69, 0x6E, 0x69, 0x74, 0x79]

end Sys2Proof
end

