-- ==== Sys2Proof/Config.lean ====
section
/-!
DEFINITION. The format constants, which the spec fixes (00_scope.md R6), and the parameters it leaves open
(00_scope.md R7), which the model takes as an argument: `State.cfg` holds a `Config`, no step changes it, and a
statement over all states holds for every value of it.
-/

namespace Sys2Proof

/-- `P`, the precision in decimal digits (R6). -/
abbrev precision : Nat := 16

/-- `CMAX`, the largest significand (R6). -/
abbrev cmax : Nat := 9999999999999999

/-- `EMIN`, the least exponent (R6). -/
abbrev emin : Int := -398

/-- `EMAX`, the largest exponent (R6). -/
abbrev emax : Int := 369

/-- `BIAS`: the stored exponent field holds the exponent plus 398 (R6). -/
abbrev bias : Int := 398

/-- The values `BYTE_ORDER` can take in this model. DESIGN CHOICE (log 1), unsafe: the spec leaves the order in which a host
serialises a word open and says to assume none (R7, R42; 91_not_in_source.md N6); that it is one of these two is the
model's own restriction. -/
inductive ByteOrder where
  | littleEndian
  | bigEndian
  deriving DecidableEq, Repr

/-- The open parameters of R7 that a rule of the model depends on, fixed for one CORE (R39). `LATENCY` has no
place here: the model gives no time (R227; log 8). -/
structure Config where
  /-- `TEXT_MAX`, the longest text, in bytes, that `TIN` accepts (R44) -/
  textMax : Nat
  /-- `BYTE_ORDER`, used only when a host serialises a word outside the CORE (R42); restricted to two orders (log 1) -/
  byteOrder : ByteOrder
  /-- `DIV_BY_INF_ZERO_EXP` as a stored exponent (exponent + 398), so that it lies in [-398, 369] (R7, R175) -/
  divByInfZeroBiased : Fin 768
  deriving DecidableEq, Repr

/-- `DIV_BY_INF_ZERO_EXP` as an exponent (R175). -/
def Config.divByInfZeroExp (cfg : Config) : Int := (cfg.divByInfZeroBiased.val : Int) - bias

/-- The parameter values of the state after reset. `DIV_BY_INF_ZERO_EXP` is the spec's default, -398 (D15).
DESIGN CHOICE (log 1), unsafe: `textMax` and `byteOrder` are open in the spec, and no statement rests on them. -/
def Config.atReset : Config where
  textMax := 65535
  byteOrder := .littleEndian
  divByInfZeroBiased := 0

end Sys2Proof
end

