-- ==== Sys2Proof/Syntax.lean ====
section
/-!
DEFINITION. Syntax: the rows of spec/opcode_table.json as `Instr`, the ports, a request (10_state.md R35), and the
request lines of a host program (30_encoding.md R59).
-/

namespace Sys2Proof

/-- What a value of `OP` selects: one constructor per row of the opcode map (R56). No operand is assembled from the
request's bits (R54), so the operations carry no fields; their operands are the request ports, held in the state. -/
inductive Instr where
  /-- 0x0 (R83) -/
  | decode
  /-- 0x1 (R89) -/
  | encode
  /-- 0x2 (R100) -/
  | parse
  /-- 0x3 (R120) -/
  | format
  /-- 0x4 (R90) -/
  | decodeFromBid
  /-- 0x5 (R91) -/
  | encodeToBid
  /-- 0x6 (R190) -/
  | isnan
  /-- 0x7, a reserved code (R58) -/
  | reservedSeven
  /-- 0x8 (R164) -/
  | add
  /-- 0x9 (R165) -/
  | sub
  /-- 0xA (R168) -/
  | mul
  /-- 0xB (R171) -/
  | div
  /-- 0xC to 0xF, reserved codes `11xx` (R58); `low` is the two bits `xx` -/
  | reservedHigh (low : BitVec 2)
  deriving DecidableEq, Repr

/-- The operand ports of a request (R29). -/
inductive RequestPort where
  | a
  | b
  | lin
  | tin
  deriving DecidableEq, Repr

/-- The response ports (R31 to R34). -/
inductive ResponsePort where
  | res
  | lres
  | tout
  | flag
  deriving DecidableEq, Repr

/-- A request: one value on each request port, sampled together (R29, R35). -/
structure Request where
  op : OpCode
  a : Word
  b : Word
  lin : Bus
  tin : List Byte
  deriving DecidableEq, Repr

/-- The name a request line gives its response (R59). Only equality of names matters, so a name is a number. -/
abbrev Name := Nat

/-- An operand of a request line (R59). -/
inductive Arg where
  /-- the response of an earlier line -/
  | name (n : Name)
  /-- a word literal `#0x…` -/
  | word (w : Word)
  /-- a logical literal `LD(s, k, c, e)` -/
  | logical (x : LD)
  /-- a string literal -/
  | text (t : List Byte)
  deriving DecidableEq, Repr

/-- A request line `<name> = <MNEMONIC> <operands>` (R59); no name stands for the line name `_`. -/
structure Line where
  name : Option Name
  op : Instr
  args : List Arg
  deriving DecidableEq, Repr

/-- A host program: a finite sequence of request lines (R36). -/
abbrev Program := List Line

end Sys2Proof
end

