-- ==== Sys2Proof/WellFormed.lean ====
section
/-!
DEFINITION. Well-formedness: in-range logical values (10_state.md R21), values the logical bus can carry
(30_encoding.md R70), the operations among the codes (30_encoding.md R58),
and request lines and programs (30_encoding.md R59).
-/

namespace Sys2Proof

/-- In range (R21): a finite value within [0, CMAX] and [EMIN, EMAX]; a non-finite value with `c = 0` and `e = 0`. -/
def LD.inRange (x : LD) : Bool :=
  match x.k with
  | .finite => decide (x.c ≤ cmax) && decide (emin ≤ x.e) && decide (x.e ≤ emax)
  | .infinity => decide (x.c = 0) && decide (x.e = 0)
  | .quietNaN => decide (x.c = 0) && decide (x.e = 0)
  | .signalingNaN => decide (x.c = 0) && decide (x.e = 0)

/-- A value the 73-bit bus carries exactly: 54-bit significand, 16-bit two's complement exponent (R70). -/
def LD.onBus (x : LD) : Bool :=
  decide (x.c < 2 ^ 54) && decide (-32768 ≤ x.e) && decide (x.e ≤ 32767)

/-- The well-formed instructions are the eleven operations; the reserved codes spell none (R58). -/
def Instr.wf : Instr → Bool
  | .decode => true
  | .encode => true
  | .parse => true
  | .format => true
  | .decodeFromBid => true
  | .encodeToBid => true
  | .isnan => true
  | .reservedSeven => false
  | .add => true
  | .sub => true
  | .mul => true
  | .div => true
  | .reservedHigh _ => false

/-- The operands a request line can take (R59). -/
inductive Shape where
  /-- one word operand, on port `A` -/
  | oneWord
  /-- two word operands, on ports `A` and `B` -/
  | twoWords
  /-- one logical literal, on port `LIN` -/
  | logical
  /-- one string literal, on port `TIN` -/
  | text
  deriving DecidableEq, Repr

/-- The operands a line with this mnemonic takes (R59); none for a code the notation cannot write. -/
def Instr.takes : Instr → Option Shape
  | .decode => some .oneWord
  | .encode => some .logical
  | .parse => some .text
  | .format => some .oneWord
  | .decodeFromBid => some .oneWord
  | .encodeToBid => some .oneWord
  | .isnan => some .oneWord
  | .reservedSeven => none
  | .add => some .twoWords
  | .sub => some .twoWords
  | .mul => some .twoWords
  | .div => some .twoWords
  | .reservedHigh _ => none

/-- A string literal has no escapes and stands on one line (R59), so it holds neither a quote nor a line feed. -/
def textLiteral (t : List Byte) : Bool := t.all fun b => b != 0x22 && b != 0x0A

/-- An operand that can stand where a word is expected: a literal, or a name among those bound to a word (R59). -/
def Arg.isWord (words : List Name) : Arg → Bool
  | .name n => words.contains n
  | .word _ => true
  | .logical _ => false
  | .text _ => false

/-- Whether operands are those a shape asks for, given the names bound to words (R59). -/
def argsFit (words : List Name) (shape : Shape) (args : List Arg) : Bool :=
  match shape, args with
  | .oneWord, [x] => x.isWord words
  | .twoWords, [x, y] => x.isWord words && y.isWord words
  | .logical, [.logical x] => x.onBus
  | .text, [.text t] => textLiteral t
  | _, _ => false

/-- A well-formed line (R59), given the names bound to words by earlier lines: an operation with the operands it
takes. The notation cannot write a reserved code. -/
def Line.wf (words : List Name) (l : Line) : Bool :=
  match l.op.takes with
  | some shape => argsFit words shape l.args
  | none => false

/-- Whether an operation's response is a word, the only kind of response a later line can use (R31, R59). -/
def Instr.givesWord : Instr → Bool
  | .encode => true
  | .parse => true
  | .decodeFromBid => true
  | .encodeToBid => true
  | .add => true
  | .sub => true
  | .mul => true
  | .div => true
  | .decode => false
  | .format => false
  | .isnan => false
  | .reservedSeven => false
  | .reservedHigh _ => false

/-- The names bound to words after a line: its own name is added when its response is a word, and is no longer a word's
name when its response is of another kind. -/
def Line.bind (words : List Name) (l : Line) : List Name :=
  match l.name with
  | none => words
  | some n => if l.op.givesWord then n :: words else words.filter (· != n)

/-- A well-formed program, given the names already bound to words (R59). -/
def wfLines (words : List Name) : Program → Bool
  | [] => true
  | l :: rest => l.wf words && wfLines (l.bind words) rest

/-- A well-formed program starts with no name (R36, R59). -/
def Program.wf (p : Program) : Bool := wfLines [] p

end Sys2Proof
end

