-- ==== Sys2Proof/Decode.lean ====
section
/-!
DEFINITION. Decoding of the operation select (30_encoding.md R56, R57), total on every code, on every byte string and on every
numbered word, and after it the encoder. The BID word is not an instruction: its decoder is in Machine/Codec.lean.
-/

namespace Sys2Proof

/-- The row of R56 that a code selects: all four bits are read, and every code selects one row (R57). -/
def decodeOp (code : OpCode) : Instr :=
  match code.toNat with
  | 0 => .decode
  | 1 => .encode
  | 2 => .parse
  | 3 => .format
  | 4 => .decodeFromBid
  | 5 => .encodeToBid
  | 6 => .isnan
  | 7 => .reservedSeven
  | 8 => .add
  | 9 => .sub
  | 10 => .mul
  | 11 => .div
  | n => .reservedHigh (BitVec.ofNat 2 n)

/-- Why bytes are no value of the `OP` port. -/
inductive DecodeError where
  /-- no byte at all -/
  | noCode
  /-- a byte with a bit set above the port's four (R53: `OP[3:0]`) -/
  | outsideOpPort
  /-- bytes after the code: a request has no other instruction bytes (R53) -/
  | trailingBytes
  deriving DecidableEq, Repr

/-- The code that bytes written by a host spell: one byte whose value is that of the 4-bit port (R53; log 7). -/
def opOfBytes : List Byte → Except DecodeError OpCode
  | [] => .error .noCode
  | [b] => if b.toNat < 16 then .ok (BitVec.ofNat 4 b.toNat) else .error .outsideOpPort
  | _ :: _ :: _ => .error .trailingBytes

/-- The instruction that bytes written by a host spell, or the reason they spell none. -/
def decodeBytes (bs : List Byte) : Except DecodeError Instr := (opOfBytes bs).map decodeOp

/-- The instruction that a numbered word of the opcode table spells: its value as the one byte a host writes (bit 0 is
the least significant bit), given to `decodeBytes`. However many bits the table counts, a word with a bit set above
the four of the port spells none. -/
def decodeTableWord (_nbits w : Nat) : Option Instr :=
  if w < 256 then (decodeBytes [BitVec.ofNat 8 w]).toOption else none

/-- The code of an instruction (R56). -/
def encodeOp : Instr → OpCode
  | .decode => 0x0
  | .encode => 0x1
  | .parse => 0x2
  | .format => 0x3
  | .decodeFromBid => 0x4
  | .encodeToBid => 0x5
  | .isnan => 0x6
  | .reservedSeven => 0x7
  | .add => 0x8
  | .sub => 0x9
  | .mul => 0xA
  | .div => 0xB
  | .reservedHigh low => 0b11#2 ++ low

/-- The byte a host writes for an instruction: the code in the low four bits, the others 0 (log 7). -/
def encodeByte (i : Instr) : Byte := (encodeOp i).setWidth 8

/-- The operand ports an operation reads, the "reads" column of R56. -/
def Instr.reads : Instr → List RequestPort
  | .decode => [.a]
  | .encode => [.lin]
  | .parse => [.tin]
  | .format => [.a]
  | .decodeFromBid => [.a]
  | .encodeToBid => [.a]
  | .isnan => [.a]
  | .reservedSeven => []
  | .add => [.a, .b]
  | .sub => [.a, .b]
  | .mul => [.a, .b]
  | .div => [.a, .b]
  | .reservedHigh _ => []

/-- The response port an operation drives, the "drives" column of R56. -/
def Instr.drives : Instr → Option ResponsePort
  | .decode => some .lres
  | .encode => some .res
  | .parse => some .res
  | .format => some .tout
  | .decodeFromBid => some .res
  | .encodeToBid => some .res
  | .isnan => some .flag
  | .reservedSeven => none
  | .add => some .res
  | .sub => some .res
  | .mul => some .res
  | .div => some .res
  | .reservedHigh _ => none

end Sys2Proof
end

