-- ==== Sys2Proof/Machine/State.lean ====
section
/-!
DEFINITION. The state: the ports of the CORE (10_state.md R29 to R34), the outstanding requests (R38, 70_reset_and_hazards.md
R226), the host's own state (R36, R37, R231) and the open parameters (00_scope.md R7); the reasons a step can stop;
and the state after reset. The CORE has no registers, memory, flags, modes or traps (R27, R28, R40, R200, R208).
-/

namespace Sys2Proof.Machine

/-- A response: the one value on the one port an operation drives (R35, R55). -/
inductive Response where
  | res (w : Word)
  | lres (v : Bus)
  | tout (t : List Byte)
  | flag (f : BitVec 1)
  deriving DecidableEq, Repr

/-- Reasons for a fault. -/
inductive Fault where
  /-- Raised by the host's `read` of a response port that holds no value (R35, R221). Safe: the spec calls it a fault. -/
  | undrivenPort (p : ResponsePort)
  /-- Raised by `finalizeChecked` for a call with sticky set and fewer than 17 digits (R143, U7). Safe: the spec calls it
  a fault, and no operation makes such a call. -/
  | stickyPrecondition
  deriving DecidableEq, Repr

/-- Reasons for a refusal. -/
inductive Refusal where
  /-- Raised by an arm of `exec` whose instruction has no meaning yet; no arm does. Safe. -/
  | notModelled (mnemonic : String)
  /-- Raised by the operation of a reserved code (R58), and recorded in the state when such a request is issued. Safe: the
  spec refuses it. -/
  | reservedOp (code : OpCode)
  /-- Raised by PARSE of a text longer than TEXT_MAX (R44), and recorded in the state when such a request is issued. Safe:
  the spec refuses it. -/
  | textTooLong
  /-- Raised by the host's `issue` of a line that spells no request: a wrong operand, or a name no response word is
  bound to, once nothing is outstanding (R59; log 6). Safe: the spec gives such a line no meaning. -/
  | unwritableLine
  deriving DecidableEq, Repr

/-- An accepted request whose response has not been produced, with the name its line gives the response (R59, R223). -/
structure Pending where
  name : Option Name
  req : Request
  deriving DecidableEq, Repr

/-- A response the host keeps, with its name (R36, R59). -/
structure Answer where
  name : Option Name
  response : Response
  deriving DecidableEq, Repr

/-- A refused request, as the model records it: the name of its line and the reason (R58, R205). It has no response. -/
structure Refused where
  name : Option Name
  reason : Refusal
  deriving DecidableEq, Repr

/-- A move of the host (R231). -/
inductive HostEvent where
  /-- issue the request a line spells (R59) -/
  | issue (l : Line)
  /-- issue a request given port by port, as no line can for a reserved code -/
  | raw (name : Option Name) (r : Request)
  /-- let the CORE answer the oldest outstanding request before moving on -/
  | await
  /-- read a response port -/
  | read (p : ResponsePort)
  /-- assert reset (R223). DESIGN CHOICE (log 4): asserting and releasing it is one move, so that nothing is issued or read
  while it is held. -/
  | assertReset
  deriving DecidableEq, Repr

/-- The state, plain data throughout. -/
structure State where
  /-- the open parameters (R7, R39) -/
  cfg : Config
  /-- request port `OP` (R29) -/
  op : OpCode
  /-- request port `A` (R29) -/
  a : Word
  /-- request port `B` (R29) -/
  b : Word
  /-- request port `LIN` (R29) -/
  lin : Bus
  /-- request port `TIN` (R29) -/
  tin : List Byte
  /-- response port `RES` (R31) -/
  res : Option Word
  /-- response port `LRES` (R32) -/
  lres : Option Bus
  /-- response port `TOUT` (R33) -/
  tout : Option (List Byte)
  /-- response port `FLAG` (R34) -/
  flag : Option (BitVec 1)
  /-- the outstanding requests, oldest first (R38, R226) -/
  pending : List Pending
  /-- the host's next moves, first first (R231; log 4) -/
  inbox : List HostEvent
  /-- the responses the host keeps, oldest first (R36, R37) -/
  answers : List Answer
  /-- the refusals recorded, oldest first (R58, R205) -/
  refusals : List Refused
  /-- what the host last read from a response port (R231) -/
  lastRead : Option Response
  deriving DecidableEq, Repr

/-- The position in the host program: the number of its responses so far (R37). DESIGN CHOICE (log 12), unsafe: R37 calls it an
index into the requests and lets responses alone advance it, and does not say where it stands after a request that gets no
response; here such a request (refused, or dropped by a reset) leaves it as it is. -/
def State.position (s : State) : Nat := s.answers.length

/-- The state after reset (R38, R220, R221): no response port holds a value and nothing is outstanding. DESIGN CHOICE
(logs 1, 2, 5, 6): the open parameters, the request ports, which the host drives, and a host with no moves and nothing
refused. -/
def State.reset : State where
  cfg := Config.atReset
  op := 0
  a := 0
  b := 0
  lin := 0
  tin := []
  res := none
  lres := none
  tout := none
  flag := none
  pending := []
  inbox := []
  answers := []
  refusals := []
  lastRead := none

/-- The outcome of a step of this machine. -/
abbrev Result := Host.Outcome State Fault Refusal

end Sys2Proof.Machine
end

