-- ==== Sys2Proof/Machine/Operands.lean ====
section
/-!
DEFINITION. Operands: bit fields of a word (00_scope.md R8), the logical bus (30_encoding.md R70, R71), the operands of
a request line (30_encoding.md R59), and a host's serialisation of a word (20_memory.md R42).
-/

namespace Sys2Proof.Machine

/-- `w[hi:lo]`, the unsigned integer formed by bits `hi` down to `lo` (R8). -/
def field {n : Nat} (w : BitVec n) (hi lo : Nat) : Nat := w.toNat / 2 ^ lo % 2 ^ (hi + 1 - lo)

/-- The class code on the bus (R71). -/
def classCode : Class → BitVec 2
  | .finite => 0b00
  | .infinity => 0b01
  | .quietNaN => 0b10
  | .signalingNaN => 0b11

/-- The class a bus code stands for; all four codes are used (R71). -/
def classOfCode (v : Nat) : Class :=
  match v with
  | 0 => .finite
  | 1 => .infinity
  | 2 => .quietNaN
  | _ => .signalingNaN

/-- A logical value on the bus: sign, class, 54-bit significand, 16-bit two's complement exponent (R70). -/
def toBus (x : LD) : Bus :=
  BitVec.ofBool x.s ++ classCode x.k ++ BitVec.ofNat 54 x.c ++ BitVec.ofInt 16 x.e

/-- The two's complement value of a 16-bit field (R70). -/
def signed16 (v : Nat) : Int := if v < 2 ^ 15 then (v : Int) else (v : Int) - 2 ^ 16

/-- The logical value on a bus; every bus value is one (R70 to R72). -/
def ofBus (v : Bus) : LD where
  s := field v 72 72 == 1
  k := classOfCode (field v 71 70)
  c := field v 69 16
  e := signed16 (field v 15 0)

/-- The response word a name stands for: that of the last answer of this name, if it is a word (R59). DEDUCED
(log 10): R59 does not say which of two lines with one name is meant. -/
def lookupWord (answers : List Answer) (n : Name) : Option Word :=
  match (answers.filter fun x => x.name == some n).getLast? with
  | some ⟨_, .res w⟩ => some w
  | some ⟨_, .lres _⟩ => none
  | some ⟨_, .tout _⟩ => none
  | some ⟨_, .flag _⟩ => none
  | none => none

/-- The word an operand stands for, if it stands for one (R59). -/
def argWord (answers : List Answer) : Arg → Option Word
  | .name n => lookupWord answers n
  | .word w => some w
  | .logical _ => none
  | .text _ => none

/-- The request that operands of a shape make of an instruction. The ports it does not read keep the values the host
is driving (R30, R59: don't-care). None when an operand is not of the kind asked for. DESIGN CHOICE (log 10): a text operand is
taken whatever its bytes, also one with a quote or a line feed, which no literal of R59 can write; that it has none is checked
by `Line.wf` alone. -/
def requestOf (answers : List Answer) (base : Request) (i : Instr) (shape : Shape) (args : List Arg) : Option Request :=
  match shape, args with
  | .oneWord, [x] => (argWord answers x).map fun v => { base with op := encodeOp i, a := v }
  | .twoWords, [x, y] =>
    (argWord answers x).bind fun v =>
      (argWord answers y).map fun w => { base with op := encodeOp i, a := v, b := w }
  | .logical, [.logical x] => if x.onBus then some { base with op := encodeOp i, lin := toBus x } else none
  | .text, [.text t] => some { base with op := encodeOp i, tin := t }
  | _, _ => none

/-- The request a line spells, given the answers so far and the values on the request ports (R59); none when it
spells none. -/
def lineRequest (answers : List Answer) (base : Request) (l : Line) : Option Request :=
  l.op.takes.bind fun shape => requestOf answers base l.op shape l.args

/-- Whether a line uses the response of an earlier one (R59). -/
def usesName (l : Line) : Bool :=
  l.args.any fun x => match x with
    | .name _ => true
    | .word _ => false
    | .logical _ => false
    | .text _ => false

/-- The eight bytes of a word, least significant first. -/
def wordBytes (w : Word) : List Byte := (List.range 8).map fun i => w.extractLsb' (8 * i) 8

/-- A word as a host serialises it outside the CORE, in the order of the open parameter `BYTE_ORDER` (R42). -/
def serialise (o : ByteOrder) (w : Word) : List Byte :=
  match o with
  | .littleEndian => wordBytes w
  | .bigEndian => (wordBytes w).reverse

/-- The word whose bytes, least significant first, these are. -/
def wordOfBytes (bs : List Byte) : Word := BitVec.ofNat 64 (bs.foldr (fun b acc => b.toNat + 256 * acc) 0)

/-- The word a host reads back from the bytes it serialised (R42). -/
def deserialise (o : ByteOrder) (bs : List Byte) : Word :=
  match o with
  | .littleEndian => wordOfBytes bs
  | .bigEndian => wordOfBytes bs.reverse

end Sys2Proof.Machine
end

