-- ==== Sys2Proof/Machine/Flags.lean ====
section
/-!
DEFINITION. The special-value classifier (45_classifier.md). The CORE has no status or condition flags (10_state.md
R27, 60_exceptions.md R201); the only flag it computes is the value of the `FLAG` response port (R34).
-/

namespace Sys2Proof.Machine

/-- The class of a word, by its bits (R192). -/
def classify (w : Word) : Class :=
  if field w 62 59 = 0b1111 then
    if field w 58 58 = 0 then .infinity
    else if field w 57 57 = 1 then .signalingNaN else .quietNaN
  else .finite

end Sys2Proof.Machine

namespace Sys2Proof

/-- Whether a class is a NaN class (R190). -/
def Class.isNaN : Class → Bool
  | .finite => false
  | .infinity => false
  | .quietNaN => true
  | .signalingNaN => true

/-- `isZero(v)` (R156). -/
def LD.isZero (x : LD) : Bool := decide (x.k = .finite) && decide (x.c = 0)

end Sys2Proof
end

