-- ==== Sys2Proof/Machine/Ops.lean ====
section
/-!
DEFINITION. The named operations on the ports: driving a response (10_state.md R35), reading a response port (R35,
70_reset_and_hazards.md R221), presenting, accepting and refusing a request (R29, R58, 20_memory.md R44), and reset (R221, R223). The CORE takes no
exception and returns from none (60_exceptions.md R200, R207), so there is no such operation here.
-/

namespace Sys2Proof.Machine

/-- Drive a response: the port it belongs to holds its value and the other three hold none (R35). -/
def State.drive (s : State) : Response → State
  | .res w => { s with res := some w, lres := none, tout := none, flag := none }
  | .lres v => { s with res := none, lres := some v, tout := none, flag := none }
  | .tout t => { s with res := none, lres := none, tout := some t, flag := none }
  | .flag f => { s with res := none, lres := none, tout := none, flag := some f }

/-- The value on a response port, or the fault of reading a port that holds none (R35, R221). -/
def State.readPort (s : State) : ResponsePort → Except Fault Response
  | .res => match s.res with
    | some w => .ok (.res w)
    | none => .error (.undrivenPort .res)
  | .lres => match s.lres with
    | some v => .ok (.lres v)
    | none => .error (.undrivenPort .lres)
  | .tout => match s.tout with
    | some t => .ok (.tout t)
    | none => .error (.undrivenPort .tout)
  | .flag => match s.flag with
    | some f => .ok (.flag f)
    | none => .error (.undrivenPort .flag)

/-- The driven port's value, if a port is driven: what the host collects as the response (R36). -/
def State.response? (s : State) : Option Response :=
  match s.res, s.lres, s.tout, s.flag with
  | some w, _, _, _ => some (.res w)
  | none, some v, _, _ => some (.lres v)
  | none, none, some t, _ => some (.tout t)
  | none, none, none, some f => some (.flag f)
  | none, none, none, none => none

/-- The values on the request ports (R29). -/
def State.ports (s : State) : Request where
  op := s.op
  a := s.a
  b := s.b
  lin := s.lin
  tin := s.tin

/-- Put a request on the request ports, all together (R29, R47). -/
def State.present (s : State) (r : Request) : State :=
  { s with op := r.op, a := r.a, b := r.b, lin := r.lin, tin := r.tin }

/-- Accept a request: it becomes the youngest outstanding one (R226). What the request ports of the state hold afterwards is
the model's choice (log 2). -/
def State.accept (s : State) (p : Pending) : State := { s with pending := s.pending ++ [p] }

/-- Why a request is refused, if it is: a reserved code (R58), or a PARSE text longer than TEXT_MAX (R44). -/
def refusalOf (cfg : Config) (r : Request) : Option Refusal :=
  if (decodeOp r.op).wf = false then some (.reservedOp r.op)
  else if decodeOp r.op = .parse ∧ cfg.textMax < r.tin.length then some .textTooLong
  else none

/-- Record a refusal. It is no response, and nothing else changes (R58, R205). -/
def State.refuse (s : State) (name : Option Name) (reason : Refusal) : State :=
  { s with refusals := s.refusals ++ [⟨name, reason⟩] }

/-- What issuing a request does: it is accepted, or refused and the refusal recorded. DESIGN CHOICE (log 6): the spec does not
say when a request is refused; here it is when it is issued. -/
def State.submit (s : State) (p : Pending) : State :=
  match refusalOf s.cfg p.req with
  | some reason => s.refuse p.name reason
  | none => s.accept p

/-- What a reset does to the CORE: no response port holds a value and no request is outstanding (R221, R223). The host's
state and the values it drives are its own. -/
def State.resetCore (s : State) : State :=
  { s with res := none, lres := none, tout := none, flag := none, pending := [] }

end Sys2Proof.Machine
end

