-- ==== Sys2Proof/Machine/Rounding.lean ====
section
/-!
DEFINITION. The rounding engine and the significand aligner (43_rounding_alignment.md), with the digit count of
00_scope.md R10. Exact integers throughout (R9).
-/

namespace Sys2Proof.Machine

/-- The least `k`, from `k` on, with `n < 10^k`, trying `fuel` values. -/
def ndigFrom : Nat → Nat → Nat → Nat
  | 0, k, _ => k
  | fuel + 1, k, n => if n < 10 ^ k then k else ndigFrom fuel (k + 1) n

/-- `ndig(n)`, the least `k ≥ 1` with `n < 10^k` (R10). A number has no more decimal than binary digits, which bounds the
search. -/
def ndig (n : Nat) : Nat := ndigFrom (Nat.log2 n) 1 n

/-- `clamp(x, lo, hi)` (R9). -/
def clamp (x lo hi : Int) : Int := min (max x lo) hi

/-- `roundDigits(C, d, sticky)` for `d ≥ 1`: drop `d` low digits, to the nearest, a tie to even (R136, R137). When `d`
exceeds the number of digits everything is below half and the result is 0 (R137's last paragraph), which is answered
without computing `10^d`. -/
def roundDigits (C d : Nat) (sticky : Bool) : Nat :=
  if ndig C < d then 0
  else if 5 * 10 ^ (d - 1) < C % 10 ^ d then C / 10 ^ d + 1
  else if C % 10 ^ d = 5 * 10 ^ (d - 1) then
    if sticky then C / 10 ^ d + 1 else if C / 10 ^ d % 2 = 1 then C / 10 ^ d + 1 else C / 10 ^ d
  else C / 10 ^ d

/-- The number of digits `finalize` drops: `max(0, n - P, EMIN - E)` (R139). -/
def dropCount (C : Nat) (E : Int) : Nat := max (ndig C - precision) (emin - E).toNat

/-- The carry of R138: a significand that reaches `10^P` becomes `10^(P-1)` one exponent higher. -/
def carry (q : Nat) (E : Int) : Nat × Int :=
  if q = 10 ^ precision then (10 ^ (precision - 1), E + 1) else (q, E)

/-- The rounded significand and its exponent, `q` and `E1` of R139. -/
def roundToWidth (C : Nat) (E : Int) (sticky : Bool) : Nat × Int :=
  if dropCount C E = 0 then (C, E)
  else carry (roundDigits C (dropCount C E) sticky) (E + dropCount C E)

/-- The last part of `finalize`: an exponent above EMAX is clamped when the padded significand still fits, and is an
overflow otherwise (R142). -/
def fitExponent (s : Bool) (q : Nat) (E : Int) : LD :=
  if emax < E then
    if ndig q + (E - emax).toNat ≤ precision then ⟨s, .finite, q * 10 ^ (E - emax).toNat, emax⟩
    else ⟨s, .infinity, 0, 0⟩
  else ⟨s, .finite, q, E⟩

/-- `finalize(s, C, E, sticky)`, the rounding engine (R135, R139 to R142). -/
def finalize (s : Bool) (C : Nat) (E : Int) (sticky : Bool) : LD :=
  if C = 0 ∧ sticky = false then ⟨s, .finite, 0, clamp E emin emax⟩
  else fitExponent s (roundToWidth C E sticky).1 (roundToWidth C E sticky).2

/-- `finalize` for a caller that may set sticky: a call that breaks the precondition of R143 faults (U7). -/
def finalizeChecked (s : Bool) (C : Nat) (E : Int) (sticky : Bool) : Except Fault LD :=
  if sticky = true ∧ ndig C < precision + 1 then .error .stickyPrecondition else .ok (finalize s C E sticky)

/-- The significands of `align(x, y)` and the common exponent: both operands at the smaller exponent, no digit
discarded (R147). -/
def align (x y : LD) : Nat × Nat × Int :=
  (x.c * 10 ^ (x.e - min x.e y.e).toNat, y.c * 10 ^ (y.e - min x.e y.e).toNat, min x.e y.e)

end Sys2Proof.Machine
end

