-- ==== Sys2Proof/Machine/Codec.lean ====
section
/-!
DEFINITION. The BID codec (40_codec.md) over the word layout of 30_encoding.md R61 to R69, and the operations that
expose it: DECODE, ENCODE, DECODE_FROM_BID, ENCODE_TO_BID.
-/

namespace Sys2Proof.Machine

/-- The finite value of sign `s`, stored exponent `eb` and significand `c`; a significand above CMAX is non-canonical and
reads as 0 (R67, R80). -/
def finiteOfFields (s : Bool) (eb c : Nat) : LD := ⟨s, .finite, if cmax < c then 0 else c, (eb : Int) - bias⟩

/-- `decode(w)`, the decoder unit: total on the 2^64 words (R80, R84). -/
def bidDecode (w : Word) : LD :=
  let s := field w 63 63 == 1
  match classify w with
  | .infinity => ⟨s, .infinity, 0, 0⟩
  | .quietNaN => ⟨s, .quietNaN, 0, 0⟩
  | .signalingNaN => ⟨s, .signalingNaN, 0, 0⟩
  | .finite =>
    if field w 62 61 = 0b11 then finiteOfFields s (field w 60 51) (2 ^ 53 + field w 50 0)
    else finiteOfFields s (field w 62 53) (field w 52 0)

/-- `pack(x)`, the encoder unit, for an in-range value (R85, R87, R88). -/
def bidPack (x : LD) : Word :=
  match x.k with
  | .infinity => BitVec.ofBool x.s ++ 0b11110#5 ++ 0#58
  | .quietNaN => BitVec.ofBool x.s ++ 0b111110#6 ++ 0#57
  | .signalingNaN => BitVec.ofBool x.s ++ 0b1111110#7 ++ 0#56
  | .finite =>
    if x.c < 2 ^ 53 then BitVec.ofBool x.s ++ BitVec.ofInt 10 (x.e + bias) ++ BitVec.ofNat 53 x.c
    else BitVec.ofBool x.s ++ 0b11#2 ++ BitVec.ofInt 10 (x.e + bias) ++ BitVec.ofNat 51 (x.c - 2 ^ 53)

/-- The value `ENCODE` packs: a finite bus value is rounded and range-fitted, and the significand and exponent of another
class are ignored (R86, R89). -/
def encodable (x : LD) : LD :=
  match x.k with
  | .finite => finalize x.s x.c x.e false
  | .infinity => ⟨x.s, .infinity, 0, 0⟩
  | .quietNaN => ⟨x.s, .quietNaN, 0, 0⟩
  | .signalingNaN => ⟨x.s, .signalingNaN, 0, 0⟩

/-- DECODE: `lres <- decode(A)` (R83). -/
def execDecode (s : State) : Result := .next (s.drive (.lres (toBus (bidDecode s.a))))

/-- ENCODE: `res <- pack(...)` of the bus value on `LIN` (R89). -/
def execEncode (s : State) : Result := .next (s.drive (.res (bidPack (encodable (ofBus s.lin)))))

/-- DECODE_FROM_BID: `res <- A`, neither decoded nor checked (R90). -/
def execDecodeFromBid (s : State) : Result := .next (s.drive (.res s.a))

/-- ENCODE_TO_BID: `res <- A` (R91). -/
def execEncodeToBid (s : State) : Result := .next (s.drive (.res s.a))

end Sys2Proof.Machine
end

