-- ==== Sys2Proof/Machine/Arithmetic.lean ====
section
/-!
DEFINITION. Arithmetic (44_arithmetic.md): the special-value precedence, the adder, the multiplier, the divider, and ADD,
SUB, MUL, DIV.
-/

namespace Sys2Proof.Machine

/-- `QNAN_INVALID`, the quiet NaN of an invalid operation (R159). -/
def qnanInvalid : LD := ⟨false, .quietNaN, 0, 0⟩

/-- Steps 1 and 2 of the precedence, which every operation shares: a signalling NaN operand first, then a quiet one, `A`
before `B` in each; the result is quiet and keeps that operand's sign (R156 to R158). -/
def nanOperand (x y : LD) : Option LD :=
  if x.k = .signalingNaN then some ⟨x.s, .quietNaN, 0, 0⟩
  else if y.k = .signalingNaN then some ⟨y.s, .quietNaN, 0, 0⟩
  else if x.k = .quietNaN then some ⟨x.s, .quietNaN, 0, 0⟩
  else if y.k = .quietNaN then some ⟨y.s, .quietNaN, 0, 0⟩
  else none

/-- Step 3 for ADD and SUB, `sy` the effective sign of the second operand (R156, R160). -/
def infinityAdd (x y : LD) (sy : Bool) : Option LD :=
  if x.k = .infinity ∧ y.k = .infinity then
    if x.s = sy then some ⟨x.s, .infinity, 0, 0⟩ else some qnanInvalid
  else if x.k = .infinity then some ⟨x.s, .infinity, 0, 0⟩
  else if y.k = .infinity then some ⟨sy, .infinity, 0, 0⟩
  else none

/-- Step 3 for MUL (R156, R161). -/
def infinityMul (x y : LD) : Option LD :=
  if x.k = .infinity ∨ y.k = .infinity then
    if x.isZero ∨ y.isZero then some qnanInvalid else some ⟨xor x.s y.s, .infinity, 0, 0⟩
  else none

/-- Step 3 for DIV: infinities and zero divisors (R156, R162, R163, R175). -/
def infinityDiv (cfg : Config) (x y : LD) : Option LD :=
  if x.k = .infinity ∧ y.k = .infinity then some qnanInvalid
  else if x.k = .infinity then some ⟨xor x.s y.s, .infinity, 0, 0⟩
  else if y.k = .infinity then some ⟨xor x.s y.s, .finite, 0, cfg.divByInfZeroExp⟩
  else if y.isZero then
    if x.isZero then some qnanInvalid else some ⟨xor x.s y.s, .infinity, 0, 0⟩
  else none

/-- A significand with its sign. -/
def signed (s : Bool) (n : Nat) : Int := if s then -(n : Int) else (n : Int)

/-- `S`, the exact signed sum of the aligned significands (R164). -/
def exactSum (x y : LD) (sy : Bool) : Int := signed x.s (align x y).1 + signed sy (align x y).2.1

/-- `add_core(x, y, sy)`: the exact sum, rounded once; an exact zero is negative only when both effective signs are
(R164, R166). -/
def addCore (x y : LD) (sy : Bool) : LD :=
  if exactSum x y sy = 0 then finalize (x.s && sy) 0 (align x y).2.2 false
  else finalize (decide (exactSum x y sy < 0)) (exactSum x y sy).natAbs (align x y).2.2 false

/-- The exact product, rounded once (R168). -/
def mulFinite (x y : LD) : LD := finalize (xor x.s y.s) (x.c * y.c) (x.e + y.e) false

/-- The exact path of the divider, for `fuel` values of `j`: the first `j` at which the scaled dividend divides exactly,
unless the quotient passes CMAX first (R171, R172). -/
def exactQuotient (c d : Nat) : Nat → Nat → Option (Nat × Nat)
  | 0, _ => none
  | fuel + 1, j =>
    if cmax < c * 10 ^ j / d then none
    else if c * 10 ^ j % d = 0 then some (c * 10 ^ j / d, j)
    else exactQuotient c d fuel (j + 1)

/-- The least scale, from `j` on, that gives a quotient of at least `10^16`, trying `fuel` values (R171, R173). -/
def leastScale (c d : Nat) : Nat → Nat → Nat
  | 0, j => j
  | fuel + 1, j => if 10 ^ 16 ≤ c * 10 ^ j / d then j else leastScale c d fuel (j + 1)

/-- The quotient at scale `j` and the sticky bit of its remainder, rounded once (R173). -/
def divAtScale (s : Bool) (c d : Nat) (pe : Int) (j : Nat) : Except Fault LD :=
  finalizeChecked s (c * 10 ^ j / d) (pe - j) (decide (c * 10 ^ j % d ≠ 0))

/-- The inexact path of the divider: the scale that gives a quotient of 17 digits (R171, R173). -/
def divInexact (s : Bool) (c d : Nat) (pe : Int) : Except Fault LD := divAtScale s c d pe (leastScale c d 31 1)

/-- The quotient of two finite values, the divisor not a zero (R171 to R174). -/
def divFinite (x y : LD) : Except Fault LD :=
  if x.c = 0 then .ok (finalize (xor x.s y.s) 0 (x.e - y.e) false)
  else
    match exactQuotient x.c y.c 33 0 with
    | some (q, j) => .ok (finalize (xor x.s y.s) q (x.e - y.e - j) false)
    | none => divInexact (xor x.s y.s) x.c y.c (x.e - y.e)

/-- ADD on logical values (R155, R164). -/
def addLogical (x y : LD) : LD :=
  ((nanOperand x y).or (infinityAdd x y y.s)).getD (addCore x y y.s)

/-- SUB on logical values: the second sign is inverted after the NaN steps only (R155, R158, R165). -/
def subLogical (x y : LD) : LD :=
  ((nanOperand x y).or (infinityAdd x y (!y.s))).getD (addCore x y (!y.s))

/-- MUL on logical values (R155, R168). -/
def mulLogical (x y : LD) : LD :=
  ((nanOperand x y).or (infinityMul x y)).getD (mulFinite x y)

/-- DIV on logical values (R155, R171). -/
def divLogical (cfg : Config) (x y : LD) : Except Fault LD :=
  match (nanOperand x y).or (infinityDiv cfg x y) with
  | some r => .ok r
  | none => divFinite x y

/-- ADD: `res <- pack(r)` (R155, R164). -/
def execAdd (s : State) : Result := .next (s.drive (.res (bidPack (addLogical (bidDecode s.a) (bidDecode s.b)))))

/-- SUB (R155, R165). -/
def execSub (s : State) : Result := .next (s.drive (.res (bidPack (subLogical (bidDecode s.a) (bidDecode s.b)))))

/-- MUL (R155, R168). -/
def execMul (s : State) : Result := .next (s.drive (.res (bidPack (mulLogical (bidDecode s.a) (bidDecode s.b)))))

/-- DIV (R155, R171). The fault is that of R143, which no operands reach (Laws/Arithmetic.lean). -/
def execDiv (s : State) : Result :=
  match divLogical s.cfg (bidDecode s.a) (bidDecode s.b) with
  | .ok r => .next (s.drive (.res (bidPack r)))
  | .error f => .fault f

end Sys2Proof.Machine
end

