-- ==== Sys2Proof/Machine/Classifier.lean ====
section
/-!
DEFINITION. ISNAN (45_classifier.md).
-/

namespace Sys2Proof.Machine

/-- ISNAN: `flag <- 1` when the decoded class of `A` is a NaN class, else `flag <- 0` (R190). -/
def execIsnan (s : State) : Result := .next (s.drive (.flag (BitVec.ofBool (bidDecode s.a).k.isNaN)))

end Sys2Proof.Machine
end

