-- ==== Sys2Proof/Machine/Formatter.lean ====
section
/-!
DEFINITION. The decimal formatter (42_formatter.md) and FORMAT.
-/

namespace Sys2Proof.Machine

/-- The byte of a decimal digit (R13). -/
def digitByte (d : Nat) : Byte := BitVec.ofNat 8 (0x30 + d)

/-- The last `k` decimal digits of `v`, leading zeros included: the `k`-byte decimal spelling of a `v` below `10^k`. -/
def decimalDigits : Nat → Nat → List Byte
  | 0, _ => []
  | k + 1, v => decimalDigits k (v / 10) ++ [digitByte (v % 10)]

/-- `decimal(v)`, the shortest decimal spelling of `v` (R121). -/
def decimalText (v : Nat) : List Byte := decimalDigits (ndig v) v

/-- The sign bytes of a text: `-` exactly for a negative value (R126). -/
def signText (s : Bool) : List Byte := if s then [asciiMinus] else []

/-- The exponent of a text: `E`, a sign that is always there, and the digits without leading zeros (R124). -/
def exponentText (adj : Int) : List Byte :=
  asciiUpperE :: (if 0 ≤ adj then asciiPlus else asciiMinus) :: decimalText adj.natAbs

/-- `D`, the 16 digits of a text: those of the significand, padded with zeros on the right (R121, R123). -/
def significantDigits (c : Nat) : List Byte := decimalDigits precision (c * 10 ^ (precision - ndig c))

/-- The text of a finite value's magnitude: 16 significant digits, one before the point, and the adjusted exponent
(R121, R123 to R125). -/
def finiteText (c : Nat) (e : Int) : List Byte :=
  (significantDigits c).take 1 ++ asciiPoint :: (significantDigits c).drop 1 ++ exponentText (e + ndig c - 1)

/-- `formatText(x)` (R121, R122). -/
def formatText (x : LD) : List Byte :=
  match x.k with
  | .infinity => signText x.s ++ textInf
  | .quietNaN => signText x.s ++ textNan
  | .signalingNaN => signText x.s ++ textNan
  | .finite => signText x.s ++ finiteText x.c x.e

/-- FORMAT: `tout <- formatText(decode(A))` (R120). -/
def execFormat (s : State) : Result := .next (s.drive (.tout (formatText (bidDecode s.a))))

end Sys2Proof.Machine
end

