-- ==== Sys2Proof/Machine/Parser.lean ====
section
/-!
DEFINITION. The decimal parser (41_parser.md) and PARSE.
-/

namespace Sys2Proof.Machine

/-- A byte `0` to `9` (R101, R102). -/
def isDigit (b : Byte) : Bool := decide (0x30 ≤ b.toNat) && decide (b.toNat ≤ 0x39)

/-- The longest run of digits a text starts with, and the rest. -/
def takeDigits : List Byte → List Byte × List Byte
  | [] => ([], [])
  | b :: t => if isDigit b then (b :: (takeDigits t).1, (takeDigits t).2) else ([], b :: t)

/-- An optional leading sign, true for `-`, and the rest (R101, R105). -/
def takeSign : List Byte → Bool × List Byte
  | [] => (false, [])
  | b :: t => if b = asciiMinus then (true, t) else if b = asciiPlus then (false, t) else (false, b :: t)

/-- The integer whose decimal digits these are, none for 0 (R104). -/
def decimalValue (ds : List Byte) : Nat := ds.foldl (fun acc b => 10 * acc + (b.toNat - 0x30)) 0

/-- The digits after an optional point, and the rest (R101). -/
def takeFraction : List Byte → List Byte × List Byte
  | [] => ([], [])
  | b :: t => if b = asciiPoint then takeDigits t else ([], b :: t)

/-- An exponent's digits after its marker, to the end of the text: one sign at most, one digit at least, exact (R103, R115). -/
def exponentDigits (t : List Byte) : Option Int :=
  match takeDigits (takeSign t).2 with
  | ([], _) => none
  | (_ :: _, _ :: _) => none
  | (d :: ds, []) =>
    if (takeSign t).1 then some (-(decimalValue (d :: ds) : Int)) else some (decimalValue (d :: ds) : Int)

/-- `X`: 0 when nothing is left of the text, else the value of the exponent that must be all that is left (R101, R104). -/
def takeExponent : List Byte → Option Int
  | [] => some 0
  | b :: t => if b = asciiLowerE ∨ b = asciiUpperE then exponentDigits t else none

/-- The exact significand and exponent of a text that is a numeral: the digits before and after the point make `C`, and
`E` is the explicit exponent less the number of digits after the point (R101, R104). -/
def parseNumeral (t : List Byte) : Option (Nat × Int) :=
  match takeDigits t with
  | (int, rest) =>
    match takeFraction rest with
    | (frac, rest') =>
      if int = [] ∧ frac = [] then none
      else (takeExponent rest').map fun x => (decimalValue (int ++ frac), x - (frac.length : Int))

/-- A letter in lower case; any other byte unchanged (R101: case-insensitive). -/
def lowercase (b : Byte) : Byte := if 0x41 ≤ b.toNat ∧ b.toNat ≤ 0x5A then b + 0x20 else b

/-- The class a text names that is a special token (R101, R108). -/
def parseSpecial (t : List Byte) : Option Class :=
  if t.map lowercase = textNan then some .quietNaN
  else if t.map lowercase = textInf ∨ t.map lowercase = textInfinity then some .infinity
  else none

/-- `parseText(t)`: a numeral is rounded once, a token is its special value with the sign, anything else is the positive
quiet NaN (R108, R109). -/
def parseText (t : List Byte) : LD :=
  match parseNumeral (takeSign t).2 with
  | some (C, E) => finalize (takeSign t).1 C E false
  | none =>
    match parseSpecial (takeSign t).2 with
    | some k => ⟨(takeSign t).1, k, 0, 0⟩
    | none => ⟨false, .quietNaN, 0, 0⟩

/-- PARSE: `res <- pack(parseText(TIN))` (R100); a text longer than TEXT_MAX is refused (R44). -/
def execParse (s : State) : Result :=
  if s.cfg.textMax < s.tin.length then .refused .textTooLong
  else .next (s.drive (.res (bidPack (parseText s.tin))))

end Sys2Proof.Machine
end

