-- ==== Sys2Proof/Machine/Reserved.lean ====
section
/-!
DEFINITION. The reserved codes (30_encoding.md R58): refused, with no response and no state change (60_exceptions.md R205).
-/

namespace Sys2Proof.Machine

/-- A request with a reserved code is refused (R58); the step records it and goes on (R205). -/
def refuseReserved (code : OpCode) : Result := .refused (.reservedOp code)

/-- Code 0x7 (R58). -/
def execReservedSeven (_s : State) : Result := refuseReserved (encodeOp .reservedSeven)

/-- Codes 0xC to 0xF (R58). -/
def execReservedHigh (low : BitVec 2) (_s : State) : Result := refuseReserved (encodeOp (.reservedHigh low))

end Sys2Proof.Machine
end

