-- ==== Sys2Proof/Machine/Dispatch.lean ====
section
/-!
DEFINITION. One arm per row of the opcode map (30_encoding.md R56): the operation on the request ports of the state.
-/

namespace Sys2Proof.Machine

def exec (i : Instr) (s : State) : Host.Outcome State Fault Refusal :=
  match i with
  | .decode => Sys2Proof.Machine.execDecode s
  | .encode => Sys2Proof.Machine.execEncode s
  | .parse => Sys2Proof.Machine.execParse s
  | .format => Sys2Proof.Machine.execFormat s
  | .decodeFromBid => Sys2Proof.Machine.execDecodeFromBid s
  | .encodeToBid => Sys2Proof.Machine.execEncodeToBid s
  | .isnan => Sys2Proof.Machine.execIsnan s
  | .reservedSeven => Sys2Proof.Machine.execReservedSeven s
  | .add => Sys2Proof.Machine.execAdd s
  | .sub => Sys2Proof.Machine.execSub s
  | .mul => Sys2Proof.Machine.execMul s
  | .div => Sys2Proof.Machine.execDiv s
  | .reservedHigh low => Sys2Proof.Machine.execReservedHigh low s

end Sys2Proof.Machine
end

