-- ==== Sys2Proof/Machine/HostAgent.lean ====
section
/-!
DEFINITION. The host as an agent (10_state.md R36, 70_reset_and_hazards.md R231), and whose move is next. The head of `inbox` is
the host's next move; when the host has none, the CORE answers the oldest outstanding request (R226, R230); with
nothing outstanding the machine idles. So every order of requests, responses, port reads and resets is the run of some
`inbox` (log 4).
-/

namespace Sys2Proof.Machine

/-- What a step does: a move that is complete, or the CORE serving a request. -/
inductive Move where
  /-- the host moved, or nothing did -/
  | done (r : Result)
  /-- the CORE serves an outstanding request, in the state with that request taken off and presented on the ports -/
  | serve (p : Pending) (s : State)
  deriving Repr

/-- Let the CORE serve the oldest outstanding request, if there is one (R226). Its operands appear on the request ports and stay
there after the response: a DESIGN CHOICE (log 2), as the spec fixes the ports at the moment of acceptance only (R29). -/
def serveOldest (s : State) : Move :=
  match s.pending with
  | [] => .done (.next s)
  | p :: rest => .serve p ({ s with pending := rest }.present p.req)

/-- The host issues the request a line spells. It waits for outstanding responses first when the line uses a name (R225), and
before the run ends at a line that spells no request (log 6). -/
def issueLine (s : State) (l : Line) (rest : List HostEvent) : Move :=
  match lineRequest s.answers s.ports l with
  | some r =>
    if usesName l ∧ s.pending ≠ [] then serveOldest s
    else .done (.next ({ s with inbox := rest }.submit ⟨l.name, r⟩))
  | none => if s.pending ≠ [] then serveOldest s else .done (.refused .unwritableLine)

/-- The host reads a response port; a port that holds no value faults (R35, R221, R231). -/
def hostRead (s : State) (p : ResponsePort) (rest : List HostEvent) : Move :=
  match s.readPort p with
  | .ok v => .done (.next { s with inbox := rest, lastRead := some v })
  | .error f => .done (.fault f)

/-- Whose move is next, and what it is. -/
def nextMove (s : State) : Move :=
  match s.inbox with
  | [] => serveOldest s
  | .issue l :: rest => issueLine s l rest
  | .raw n r :: rest => .done (.next ({ s with inbox := rest }.submit ⟨n, r⟩))
  | .await :: rest => serveOldest { s with inbox := rest }
  | .read p :: rest => hostRead s p rest
  | .assertReset :: rest => .done (.next { s.resetCore with inbox := rest })

/-- The host collects the response of the request just served, under its line's name (R36, R37, R59). -/
def collect (name : Option Name) (s : State) : State :=
  match s.response? with
  | some r => { s with answers := s.answers ++ [⟨name, r⟩] }
  | none => s

/-- Load a host program: its lines are the host's next moves, and it starts at position 0 with no names and no refusals
(R36, R37; log 5). DESIGN CHOICE (log 5), unsafe: the spec does not say what becomes of requests outstanding then; here they stay
outstanding, so that their responses are collected among the new program's, under their own names. -/
def State.load (s : State) (p : Program) : State := { s with inbox := p.map .issue, answers := [], refusals := [] }

/-- Place a request where the next step serves it: oldest outstanding, and the host's next move is to await its response. -/
def State.placeRequest (s : State) (r : Request) : State :=
  { s with inbox := .await :: s.inbox, pending := ⟨none, r⟩ :: s.pending }

end Sys2Proof.Machine
end

