-- ==== Sys2Proof/Machine/Step.lean ====
section
/-!
DEFINITION. The step: the host's move, or the CORE's answer to the oldest outstanding request (10_state.md R35,
70_reset_and_hazards.md R226, R230), and where the host places an instruction for the next step.
-/

namespace Sys2Proof.Machine

/-- One step. Serving a request decodes its `OP`, performs the operation on the ports it was presented on, and has the
host collect the response. Where the operation refuses, as it can only for a request that was placed without being
accepted, the refusal is recorded and the requests behind it go on (R50, R205, R230). -/
def step (s : State) : Host.Outcome State Fault Refusal :=
  match nextMove s with
  | .done r => r
  | .serve p t =>
    match exec (decodeOp t.op) t with
    | .next u => .next (collect p.name u)
    | .fault f => .fault f
    | .refused r => .next (t.refuse p.name r)

/-- `s` with a request for this instruction placed so that the next step serves it, its operands the values on the
request ports of `s` (log 5). A reserved code is placed like any other, so that the step runs it and it is refused. -/
def State.withFetchWord (s : State) (_nbits w : Nat) : State :=
  s.placeRequest { s.ports with op := BitVec.ofNat 4 w }

end Sys2Proof.Machine
end

