-- ==== Sys2Proof/Safety.lean ====
section
/-!
DEFINITION. The terms claims are made in: numeric values (10_state.md R22, R26), canonical words (40_codec.md R92), the
words of the special values (30_encoding.md R69), the grammar of texts (41_parser.md R101), and the invariant of the
machine (10_state.md R33, R35; 30_encoding.md R72). Nothing here is used by the machine.
-/

namespace Sys2Proof

/-- The magnitude of a finite value (R22). -/
def LD.magnitude (x : LD) : ℚ := (x.c : ℚ) * 10 ^ x.e

/-- The value of a finite value (R22). -/
def LD.value (x : LD) : ℚ := (if x.s then -1 else 1) * x.magnitude

/-- Numeric equality (R26): finite values by their values, Infinities by their signs, a NaN equal to nothing. -/
def numEq (x y : LD) : Prop :=
  match x.k, y.k with
  | .finite, .finite => x.value = y.value
  | .infinity, .infinity => x.s = y.s
  | _, _ => False

/-- A NaN of either class. -/
def LD.isNaN (x : LD) : Prop := x.k = .quietNaN ∨ x.k = .signalingNaN

/-- The weight of the sign bit of a word (R61). -/
def signWeight (s : Bool) : Nat := if s then 2 ^ 63 else 0

/-- The Infinity words (R69). -/
def infinityWord (s : Bool) : Word := if s then 0xF800000000000000 else 0x7800000000000000

/-- The quiet NaN words (R69). -/
def quietNaNWord (s : Bool) : Word := if s then 0xFC00000000000000 else 0x7C00000000000000

/-- The signalling NaN words (R69). -/
def signalingNaNWord (s : Bool) : Word := if s then 0xFE00000000000000 else 0x7E00000000000000

/-- The canonical words by their bits (R92): every form-1 word, every form-2 word with a significand of at most CMAX,
every Infinity word with `w[57:0] = 0`, every NaN word with `w[56:0] = 0`. -/
def CanonicalWord (w : Word) : Prop :=
  w.toNat / 2 ^ 61 % 4 ≠ 3 ∨
  (w.toNat / 2 ^ 61 % 4 = 3 ∧ w.toNat / 2 ^ 59 % 4 ≠ 3 ∧ w.toNat % 2 ^ 51 ≤ 992800745259007) ∨
  (w.toNat / 2 ^ 58 % 32 = 30 ∧ w.toNat % 2 ^ 58 = 0) ∨
  (w.toNat / 2 ^ 58 % 32 = 31 ∧ w.toNat % 2 ^ 57 = 0)

/-! ### The grammar of texts (R101) -/

/-- `[sign]`: nothing, `+` or `-`, the last for a negative value (R101, R105). -/
def SignText (t : List Byte) (s : Bool) : Prop :=
  (s = false ∧ (t = [] ∨ t = [0x2B])) ∨ (s = true ∧ t = [0x2D])

/-- `*DIGIT`. -/
def DigitText (t : List Byte) : Prop := ∀ b ∈ t, 0x30 ≤ b.toNat ∧ b.toNat ≤ 0x39

/-- `mantissa`, with the digits before and after the point. -/
def MantissaText (t int frac : List Byte) : Prop :=
  DigitText int ∧ DigitText frac ∧ (int ≠ [] ∨ frac ≠ []) ∧
    ((t = int ∧ frac = []) ∨ t = int ++ 0x2E :: frac)

/-- `[exponent]`, with its value, 0 for none (R101, R104). -/
def ExponentText (t : List Byte) (x : Int) : Prop :=
  (t = [] ∧ x = 0) ∨
  ∃ marker sign neg digits, (marker = 0x65 ∨ marker = 0x45) ∧ SignText sign neg ∧ digits ≠ [] ∧ DigitText digits ∧
    t = marker :: (sign ++ digits) ∧
    x = if neg then -(Machine.decimalValue digits : Int) else (Machine.decimalValue digits : Int)

/-- `[sign] numeral`, with its sign, exact significand and exact exponent (R101, R104). -/
def NumeralText (t : List Byte) (s : Bool) (C : Nat) (E : Int) : Prop :=
  ∃ sign mantissa int frac expo x, t = sign ++ mantissa ++ expo ∧ SignText sign s ∧ MantissaText mantissa int frac ∧
    ExponentText expo x ∧ C = Machine.decimalValue (int ++ frac) ∧ E = x - (frac.length : Int)

/-- A text whose letters are those of a lower-case token, each in either case (R101, R102). -/
def InEitherCase (t token : List Byte) : Prop := List.Forall₂ (fun b l => b = l ∨ b + 0x20 = l) t token

/-- `[sign] special`, with its sign and class (R101, R108). -/
def SpecialText (t : List Byte) (s : Bool) (k : Class) : Prop :=
  ∃ sign token, t = sign ++ token ∧ SignText sign s ∧
    ((k = .quietNaN ∧ InEitherCase token textNan) ∨
      (k = .infinity ∧ (InEitherCase token textInf ∨ InEitherCase token textInfinity)))

namespace Machine

/-- Two states drive the same value on an operand port (R29). -/
def samePort (s t : State) : RequestPort → Prop
  | .a => s.a = t.a
  | .b => s.b = t.b
  | .lin => s.lin = t.lin
  | .tin => s.tin = t.tin

/-- Two states hold the same on every response port. -/
def sameResponse (s t : State) : Prop := s.res = t.res ∧ s.lres = t.lres ∧ s.tout = t.tout ∧ s.flag = t.flag

/-- Two outcomes agree: the same response, the same fault or the same refusal. -/
def agree : Result → Result → Prop
  | .next u, .next v => sameResponse u v
  | .fault f, .fault g => f = g
  | .refused r, .refused q => r = q
  | _, _ => False

/-- No response port holds a value. -/
def noResponse (s : State) : Prop := s.res = none ∧ s.lres = none ∧ s.tout = none ∧ s.flag = none

/-- A request the CORE accepts: an operation, and for PARSE a text of at most TEXT_MAX bytes (R44, R58). -/
def accepted (cfg : Config) (r : Request) : Bool :=
  (decodeOp r.op).wf && (decodeOp r.op != .parse || decide (r.tin.length ≤ cfg.textMax))

/-- The reason for which a request that is not accepted is refused (R44, R58). -/
def refusalReason (r : Request) : Refusal := if (decodeOp r.op).wf then .textTooLong else .reservedOp r.op

/-- An answer is the response a request gets alone: under the request's name, the response its operation drives in every state
with these parameters that has the request on its ports (R17, R50). -/
def ownResponse (cfg : Config) (p : Pending) (x : Answer) : Prop :=
  x.name = p.name ∧ ∀ u : State, u.cfg = cfg → u.ports = p.req →
    exec (decodeOp p.req.op) u = .next (u.drive x.response)

/-- The requests among a host's moves that are given port by port. -/
def rawRequests (moves : List HostEvent) : List Pending :=
  moves.filterMap fun
    | .raw name r => some ⟨name, r⟩
    | .issue _ => none
    | .await => none
    | .read _ => none
    | .assertReset => none

/-- The word an operand of a line stands for (R59): a literal, or the response word of the last answer of that name (log 10). -/
def ArgIs (answers : List Answer) (arg : Arg) (w : Word) : Prop :=
  arg = .word w ∨
  ∃ n before later, arg = .name n ∧ answers = before ++ ⟨some n, .res w⟩ :: later ∧ ∀ x ∈ later, x.name ≠ some n

/-- What a response can be: a logical value in range (R72), a text of 3 to 23 bytes (R33, R127), any word, any flag. -/
def responseOk : Response → Prop
  | .res _ => True
  | .lres v => (ofBus v).inRange = true
  | .tout t => 3 ≤ t.length ∧ t.length ≤ 23
  | .flag _ => True

/-- How many response ports hold a value. -/
def drivenPorts (s : State) : Nat :=
  s.res.toList.length + s.lres.toList.length + s.tout.toList.length + s.flag.toList.length

/-- The invariant: at most one response port holds a value (R35), the values on the ports, those the host keeps and the one
it last read are possible responses (R33, R72), and every outstanding request is one the CORE accepts (R44, R58). -/
def State.Inv (s : State) : Prop :=
  drivenPorts s ≤ 1 ∧ (∀ v, s.lres = some v → responseOk (.lres v)) ∧ (∀ t, s.tout = some t → responseOk (.tout t)) ∧
    (∀ x ∈ s.answers, responseOk x.response) ∧ (∀ r, s.lastRead = some r → responseOk r) ∧
    (∀ p ∈ s.pending, accepted s.cfg p.req = true)

end Machine

end Sys2Proof
end

