-- ==== Sys2Proof/Certificates/Slice0/Obligations.lean ====
section
/-!
DEFINITION. The statements for the provers. Each names the rules it formalises, or the sections and log entries it rests on; a
statement of an operation's result gives the whole next state, so it is also the operation's frame and its completion.
-/

open Sys2Proof

/-! ## Codes and steps -/

/-- R57: a decoder reads all four bits of `OP`, and every code selects exactly one row. -/
def Obligations.EveryCodeSelectsOneRow : Prop :=
  ∀ code : OpCode, encodeOp (decodeOp code) = code ∧ ∀ i, encodeOp i = code → i = decodeOp code

/-- The rows of R56 as numbered words: the code, the ports read and the port driven. -/
def Obligations.OpcodeWordsSelectTheirRows : Prop :=
  ∀ row ∈ [(0, Instr.decode, [RequestPort.a], some ResponsePort.lres), (1, .encode, [.lin], some .res),
      (2, .parse, [.tin], some .res), (3, .format, [.a], some .tout), (4, .decodeFromBid, [.a], some .res),
      (5, .encodeToBid, [.a], some .res), (6, .isnan, [.a], some .flag), (7, .reservedSeven, [], none),
      (8, .add, [.a, .b], some .res), (9, .sub, [.a, .b], some .res), (10, .mul, [.a, .b], some .res),
      (11, .div, [.a, .b], some .res), (12, .reservedHigh 0, [], none), (13, .reservedHigh 1, [], none),
      (14, .reservedHigh 2, [], none), (15, .reservedHigh 3, [], none)],
    decodeTableWord 8 row.1 = some row.2.1 ∧ row.2.1.reads = row.2.2.1 ∧ row.2.1.drives = row.2.2.2

/-- Decoding what the encoder writes gives the instruction back, for every instruction, as a port value, as the byte a host
writes (log 7) and as a numbered word. -/
def Obligations.DecodeUndoesEncode : Prop :=
  ∀ i : Instr, decodeOp (encodeOp i) = i ∧ decodeBytes [encodeByte i] = .ok i ∧
    decodeTableWord 8 (encodeOp i).toNat = some i

/-- A step runs the decoded instruction of the oldest outstanding request, with the request's values written to all five request
ports, where they stay (the model's choice, log 2), and the host collects the response; or the operation's refusal is recorded and
the run goes on (the model's choice, log 6): with no host move (R226, R230), with an awaiting host (log 4), and where
`withFetchWord` places a code (log 5). -/
def Obligations.StepRunsTheOldestRequest : Prop :=
  (∀ (s : Machine.State) (p : Machine.Pending) (rest : List Machine.Pending), s.pending = p :: rest →
    ∀ inbox, (s.inbox = [] ∧ inbox = []) ∨ s.inbox = .await :: inbox →
    ∀ served, served = { s with pending := rest, inbox := inbox, op := p.req.op, a := p.req.a, b := p.req.b,
                                lin := p.req.lin, tin := p.req.tin } →
      Machine.step s =
        match Machine.exec (decodeOp p.req.op) served with
        | .next u => .next (Machine.collect p.name u)
        | .fault f => .fault f
        | .refused r => .next { served with refusals := s.refusals ++ [⟨p.name, r⟩] }) ∧
  (∀ (s : Machine.State) (nbits w : Nat), ∀ served, served = { s with op := BitVec.ofNat 4 w } →
    Machine.step (s.withFetchWord nbits w) =
      match Machine.exec (decodeOp (BitVec.ofNat 4 w)) served with
      | .next u => .next (Machine.collect none u)
      | .fault f => .fault f
      | .refused r => .next { served with refusals := s.refusals ++ [⟨none, r⟩] })

/-- Collecting after an operation has driven a response keeps the state and adds that response, under its line's name, to
those the host keeps: the other half of the step. That the host keeps every response, also that of a line named `_`, which R59
says is discarded, under no name, is the model's choice (log 4). -/
def Obligations.HostKeepsTheDrivenResponse : Prop :=
  ∀ (i : Instr) (s t : Machine.State) (name : Option Name), Machine.exec i s = .next t →
    ∃ r : Machine.Response, Machine.collect name t = { t with answers := s.answers ++ [⟨name, r⟩] } ∧
      (∀ p v, t.readPort p = .ok v ↔ v = r ∧ i.drives = some p)

/-- 0x7 and 0xC to 0xF are refused, with no response and nothing changed but the record of the refusal, and no other code is
(30_encoding.md section 1). That a request is refused when it is issued, and one placed without being issued when it is
served, is the model's choice (log 6), as is what the request ports then hold (log 2). That refusing leaves the response ports
as they are agrees with log 3. -/
def Obligations.ReservedCodesAreRefused : Prop :=
  (∀ s : Machine.State, Machine.exec .reservedSeven s = .refused (.reservedOp 0x7)) ∧
  (∀ (s : Machine.State) (low : BitVec 2),
    Machine.exec (.reservedHigh low) s = .refused (.reservedOp (BitVec.ofNat 4 (12 + low.toNat)))) ∧
  (∀ (s : Machine.State) (name : Option Name) (r : Request) (rest : List Machine.HostEvent),
    s.inbox = .raw name r :: rest →
      (Machine.step s = .next { s with
        inbox := rest, refusals := s.refusals ++ [⟨name, .reservedOp r.op⟩] } ↔ r.op = 0x7 ∨ 12 ≤ r.op.toNat)) ∧
  (∀ (s : Machine.State) (p : Machine.Pending) (rest : List Machine.Pending), s.inbox = [] → s.pending = p :: rest →
    (Machine.step s = .next { s with
      pending := rest, op := p.req.op, a := p.req.a, b := p.req.b, lin := p.req.lin, tin := p.req.tin
      refusals := s.refusals ++ [⟨p.name, .reservedOp p.req.op⟩] } ↔ p.req.op = 0x7 ∨ 12 ≤ p.req.op.toNat))

/-- A text longer than TEXT_MAX is refused, with no response and nothing changed but the record of the refusal; every length
up to TEXT_MAX is accepted, whatever the bytes (20_memory.md section 2). That the refusal comes when the request is issued is
the model's choice (log 6). So is that issuing leaves the request ports (log 2; DESIGN CHOICE) and the response ports (log 3;
DEDUCED) as they are. -/
def Obligations.OnlyLongTextsAreRefused : Prop :=
  (∀ s : Machine.State,
    (s.cfg.textMax < s.tin.length → Machine.exec .parse s = .refused .textTooLong) ∧
    (s.tin.length ≤ s.cfg.textMax →
      ∃ w, Machine.exec .parse s = .next { s with res := some w, lres := none, tout := none, flag := none })) ∧
  (∀ (s : Machine.State) (name : Option Name) (r : Request) (rest : List Machine.HostEvent),
    s.inbox = .raw name r :: rest → r.op = 0x2 →
      (s.cfg.textMax < r.tin.length →
        Machine.step s = .next { s with inbox := rest, refusals := s.refusals ++ [⟨name, .textTooLong⟩] }) ∧
      (r.tin.length ≤ s.cfg.textMax →
        Machine.step s = .next { s with inbox := rest, pending := s.pending ++ [⟨name, r⟩] }))

/-! ## Ports, responses and order -/

/-- R35: every accepted request is answered, on exactly the port its operation drives; the other response ports hold no value,
reading them faults, and nothing else changes. -/
def Obligations.EveryAcceptedRequestIsAnsweredOnItsPort : Prop :=
  ∀ (i : Instr) (s : Machine.State), i.wf = true → (i = .parse → s.tin.length ≤ s.cfg.textMax) →
    ∃ (t : Machine.State) (p : ResponsePort) (v : Machine.Response), Machine.exec i s = .next t ∧ i.drives = some p ∧
      t.readPort p = .ok v ∧ (∀ q, q ≠ p → t.readPort q = .error (.undrivenPort q)) ∧
      t = { s with res := t.res, lres := t.lres, tout := t.tout, flag := t.flag }

/-- R30: an operation reads only the operand ports listed for it; every other port, and every other part of the state but the
open parameters, has no effect on the response. -/
def Obligations.ResponseDependsOnReadPortsOnly : Prop :=
  ∀ (i : Instr) (s t : Machine.State), s.cfg = t.cfg → (∀ p ∈ i.reads, Machine.samePort s t p) →
    Machine.agree (Machine.exec i s) (Machine.exec i t)

/-- R221: no response port holds a value after reset, none does until the first response, and reading one faults. -/
def Obligations.NoResponseUntilTheFirst : Prop :=
  Machine.noResponse Machine.State.reset ∧
  (∀ (s : Machine.State) (rest : List Machine.HostEvent), s.inbox = .assertReset :: rest →
    ∃ t, Machine.step s = .next t ∧ Machine.noResponse t) ∧
  (∀ s t : Machine.State, Machine.noResponse s → Machine.step s = .next t → t.answers = s.answers →
    Machine.noResponse t) ∧
  (∀ (s : Machine.State) (p : ResponsePort) (rest : List Machine.HostEvent), Machine.noResponse s →
    s.inbox = .read p :: rest → Machine.step s = .fault (.undrivenPort p))

/-- A reset drops the outstanding requests without a response and leaves the host's state alone; a request issued after
it is answered, or refused, as at any other time (70_reset_and_hazards.md section 1). That reset is one move, and whose move is
next, is the model's choice (log 4), as is how a refusal is recorded (log 6). -/
def Obligations.ResetDropsOutstandingRequests : Prop :=
  (∀ (s : Machine.State) (rest : List Machine.HostEvent), s.inbox = .assertReset :: rest →
    Machine.step s = .next { s with inbox := rest, pending := [], res := none, lres := none, tout := none, flag := none }) ∧
  (∀ (s u : Machine.State) (name : Option Name) (r : Request), s.cfg = u.cfg →
    s.inbox = [.assertReset, .raw name r] → u.inbox = [.raw name r] → u.pending = [] →
    ∃ (t v : Machine.State) (answers : List Machine.Answer) (refusals : List Machine.Refused),
      Host.Core.run Sys2Proof.core 2 u = .next t ∧ Host.Core.run Sys2Proof.core 3 s = .next v ∧
      t.answers = u.answers ++ answers ∧ v.answers = s.answers ++ answers ∧
      t.refusals = u.refusals ++ refusals ∧ v.refusals = s.refusals ++ refusals ∧
      (Machine.accepted u.cfg r → answers.length = 1 ∧ refusals = []) ∧
      (¬ Machine.accepted u.cfg r → answers = [] ∧ refusals = [⟨name, Machine.refusalReason r⟩]))

/-- The host reads a response port (R231), as its next move (log 4): a driven port gives its value, which the host holds as
the last it read; an undriven one faults (R35). Reading leaves the port's value on it (log 3). -/
def Obligations.ReadGivesThePortOrFaults : Prop :=
  ∀ (s : Machine.State) (rest : List Machine.HostEvent),
    (∀ w, s.inbox = .read .res :: rest → s.res = some w →
      Machine.step s = .next { s with inbox := rest, lastRead := some (.res w) }) ∧
    (∀ v, s.inbox = .read .lres :: rest → s.lres = some v →
      Machine.step s = .next { s with inbox := rest, lastRead := some (.lres v) }) ∧
    (∀ x, s.inbox = .read .tout :: rest → s.tout = some x →
      Machine.step s = .next { s with inbox := rest, lastRead := some (.tout x) }) ∧
    (∀ f, s.inbox = .read .flag :: rest → s.flag = some f →
      Machine.step s = .next { s with inbox := rest, lastRead := some (.flag f) }) ∧
    (s.inbox = .read .res :: rest → s.res = none → Machine.step s = .fault (.undrivenPort .res)) ∧
    (s.inbox = .read .lres :: rest → s.lres = none → Machine.step s = .fault (.undrivenPort .lres)) ∧
    (s.inbox = .read .tout :: rest → s.tout = none → Machine.step s = .fault (.undrivenPort .tout)) ∧
    (s.inbox = .read .flag :: rest → s.flag = none → Machine.step s = .fault (.undrivenPort .flag))

/-- R59, R231: what a request line puts on the ports, for each kind of operand, the other ports left as they are (log 2); a
line that uses the response of an earlier one waits while a response is outstanding (R225; log 4), and then means the last
answer of that name (log 10); and a request given port by port. A request the CORE does not accept is refused at once (log 6).
The response ports stay as they are (log 3). A text is issued whatever its bytes, also one no literal can write (log 10). -/
def Obligations.LinesSpellTheirRequests : Prop :=
  ∀ (s : Machine.State) (rest : List Machine.HostEvent) (name : Option Name) (i : Instr),
    (∀ x y v w, i.takes = some .twoWords → s.inbox = .issue ⟨name, i, [x, y]⟩ :: rest →
      s.pending = [] ∨ (∀ n, x ≠ .name n ∧ y ≠ .name n) →
      Machine.ArgIs s.answers x v → Machine.ArgIs s.answers y w →
      Machine.step s = .next { s with
        inbox := rest, pending := s.pending ++ [⟨name, ⟨encodeOp i, v, w, s.lin, s.tin⟩⟩] }) ∧
    (∀ x v, i.takes = some .oneWord → s.inbox = .issue ⟨name, i, [x]⟩ :: rest →
      s.pending = [] ∨ (∀ n, x ≠ .name n) → Machine.ArgIs s.answers x v →
      Machine.step s = .next { s with
        inbox := rest, pending := s.pending ++ [⟨name, ⟨encodeOp i, v, s.b, s.lin, s.tin⟩⟩] }) ∧
    (∀ x : LD, x.onBus = true → s.inbox = .issue ⟨name, .encode, [.logical x]⟩ :: rest →
      Machine.step s = .next { s with
        inbox := rest, pending := s.pending ++ [⟨name, ⟨0x1, s.a, s.b, Machine.toBus x, s.tin⟩⟩] }) ∧
    (∀ x, s.inbox = .issue ⟨name, .parse, [.text x]⟩ :: rest → x.length ≤ s.cfg.textMax →
      Machine.step s = .next { s with
        inbox := rest, pending := s.pending ++ [⟨name, ⟨0x2, s.a, s.b, s.lin, x⟩⟩] }) ∧
    (∀ x, s.inbox = .issue ⟨name, .parse, [.text x]⟩ :: rest → s.cfg.textMax < x.length →
      Machine.step s = .next { s with inbox := rest, refusals := s.refusals ++ [⟨name, .textTooLong⟩] }) ∧
    (∀ n args p ps, Arg.name n ∈ args → s.inbox = .issue ⟨name, i, args⟩ :: rest → s.pending = p :: ps →
      ∀ t, Machine.step s = .next t → t.inbox = s.inbox ∧ t.pending = ps) ∧
    (∀ r, s.inbox = .raw name r :: rest → Machine.accepted s.cfg r →
      Machine.step s = .next { s with inbox := rest, pending := s.pending ++ [⟨name, r⟩] }) ∧
    (∀ r, s.inbox = .raw name r :: rest → ¬ Machine.accepted s.cfg r →
      Machine.step s = .next { s with inbox := rest, refusals := s.refusals ++ [⟨name, Machine.refusalReason r⟩] })

/-- The outstanding requests are answered in the order they were accepted, each with the response it would get alone
(70_reset_and_hazards.md section 3). Should requests stand among them that the CORE does not accept, as in states no run reaches,
they get no response, are recorded as refused and hold up none: the model's choice (log 6). One answer a step is log 4. -/
def Obligations.ResponsesComeInRequestOrder : Prop :=
  ∀ s : Machine.State, s.inbox = [] →
    ∃ (t : Machine.State) (added : List Machine.Answer),
      Host.Core.run Sys2Proof.core s.pending.length s = .next t ∧ t.pending = [] ∧ t.answers = s.answers ++ added ∧
      List.Forall₂ (Machine.ownResponse s.cfg) (s.pending.filter fun p => Machine.accepted s.cfg p.req) added ∧
      t.refusals = s.refusals ++
        ((s.pending.filter fun p => !Machine.accepted s.cfg p.req).map fun p => ⟨p.name, Machine.refusalReason p.req⟩)

/-- Whatever requests are issued port by port, in whatever interleaving with responses, each accepted one gets the response it would
get if it were the only one ever issued, and the others are refused without disturbing any (20_memory.md section 5). The awaits,
whose move is next and the number of steps are the model's choice (log 4), as is refusing at issue (log 6). -/
def Obligations.EveryRequestFaresAsIfAlone : Prop :=
  ∀ (s : Machine.State) (moves : List Machine.HostEvent), s.pending = [] → s.inbox = moves →
    (∀ e ∈ moves, e = .await ∨ ∃ name r, e = .raw name r) →
    ∃ (t : Machine.State) (added : List Machine.Answer),
      Host.Core.run Sys2Proof.core (moves.length + (Machine.rawRequests moves).length) s = .next t ∧
      t.inbox = [] ∧ t.pending = [] ∧ t.answers = s.answers ++ added ∧
      List.Forall₂ (Machine.ownResponse s.cfg)
        ((Machine.rawRequests moves).filter fun p => Machine.accepted s.cfg p.req) added ∧
      t.refusals = s.refusals ++
        (((Machine.rawRequests moves).filter fun p => !Machine.accepted s.cfg p.req).map
          fun p => ⟨p.name, Machine.refusalReason p.req⟩)

/-- R37, R230: a well-formed host program runs to its end from any state that can start it: every line gets its response, in
order, under its name, and the position advances by one for each. Whose move is next is the model's choice (log 4). The
position is the number of responses (log 12). -/
def Obligations.WellFormedProgramsRunToTheirEnd : Prop :=
  ∀ (s : Machine.State) (words : List Name) (lines : Program), s.pending = [] → s.inbox = lines.map .issue →
    (∀ n ∈ words, (Machine.lookupWord s.answers n).isSome = true) → wfLines words lines = true →
    (∀ l ∈ lines, ∀ x, Arg.text x ∈ l.args → x.length ≤ s.cfg.textMax) →
    ∃ t : Machine.State, Host.Core.run Sys2Proof.core (2 * lines.length) s = .next t ∧ t.inbox = [] ∧ t.pending = [] ∧
      t.position = s.position + lines.length ∧
      t.answers.map (·.name) = s.answers.map (·.name) ++ lines.map (·.name) ∧ t.refusals = s.refusals

/-- The position advances by one with a response and with nothing else (R37), and a response is given by answering the oldest
outstanding request (R226). Where the position stands after a request that gets no response is the model's choice (log 12). -/
def Obligations.PositionAdvancesWithResponses : Prop :=
  ∀ s t : Machine.State, Machine.step s = .next t →
    (t.answers = s.answers ∧ t.position = s.position) ∨
    ∃ p r, s.pending = p :: t.pending ∧ t.answers = s.answers ++ [⟨p.name, r⟩] ∧ t.position = s.position + 1

/-- R39: no step changes an open parameter. -/
def Obligations.NoStepChangesAParameter : Prop :=
  ∀ s t : Machine.State, Machine.step s = .next t → t.cfg = s.cfg

/-- Every step keeps the invariant: at most one response port holds a value (R35), `LRES` only ever carries in-range values
(R72), `TOUT` holds 3 to 23 bytes (R33), and so does what the host keeps of them; and every outstanding request is one the
CORE accepts (R44, R58; that a request is refused when issued is log 6). -/
def Obligations.StepKeepsTheInvariant : Prop :=
  ∀ s t : Machine.State, s.Inv → Machine.step s = .next t → t.Inv

/-- The state after reset meets the invariant. -/
def Obligations.ResetMeetsTheInvariant : Prop := Machine.State.reset.Inv

/-! ## The codec -/

/-- R81: every word decodes to an in-range value. -/
def Obligations.DecoderOutputIsInRange : Prop := ∀ w : Word, (Machine.bidDecode w).inRange = true

/-- R82: words that differ only in the bits the decoder discards decode alike: below `w[57]` of a NaN, below `w[58]` of an
Infinity, and in the significand of a non-canonical form-2 word. -/
def Obligations.DiscardedBitsDoNotMatter : Prop :=
  ∀ v w : Word,
    (v.toNat / 2 ^ 58 % 32 = 31 → v.toNat / 2 ^ 57 = w.toNat / 2 ^ 57 → Machine.bidDecode v = Machine.bidDecode w) ∧
    (v.toNat / 2 ^ 58 % 32 = 30 → v.toNat / 2 ^ 58 = w.toNat / 2 ^ 58 → Machine.bidDecode v = Machine.bidDecode w) ∧
    (v.toNat / 2 ^ 61 % 4 = 3 → v.toNat / 2 ^ 59 % 4 ≠ 3 → v.toNat / 2 ^ 51 = w.toNat / 2 ^ 51 →
      992800745259007 < v.toNat % 2 ^ 51 → 992800745259007 < w.toNat % 2 ^ 51 →
      Machine.bidDecode v = Machine.bidDecode w)

/-- R92: exactly the words the rule lists are reproduced by decoding and packing. -/
def Obligations.CanonicalWordsAreThoseListed : Prop :=
  ∀ w : Word, Machine.bidPack (Machine.bidDecode w) = w ↔ CanonicalWord w

/-- R93: the round trips of the codec, and the source's property of the two interchange operations. -/
def Obligations.CodecRoundTrips : Prop :=
  (∀ x : LD, x.inRange = true → Machine.bidDecode (Machine.bidPack x) = x) ∧
  (∀ w : Word, CanonicalWord w → Machine.bidPack (Machine.bidDecode w) = w) ∧
  (∀ w : Word, ¬ CanonicalWord w → Machine.bidPack (Machine.bidDecode w) ≠ w) ∧
  (∀ s : Machine.State, ∃ t u v, Machine.exec .decodeFromBid s = .next t ∧ t.res = some v ∧
    Machine.exec .encodeToBid { t with a := v } = .next u ∧ u.res = some s.a)

/-- R88: form 1 exactly below `2^53`, the packed word the one canonical word of an in-range finite value, and different words for different
in-range values. -/
def Obligations.EncoderChoosesOneForm : Prop :=
  (∀ x : LD, x.inRange = true → x.k = .finite →
    ((Machine.bidPack x).toNat / 2 ^ 61 % 4 ≠ 3 ↔ x.c < 2 ^ 53) ∧
    (CanonicalWord (Machine.bidPack x) ∧ Machine.bidDecode (Machine.bidPack x) = x) ∧
    ∀ v, CanonicalWord v → Machine.bidDecode v = x → v = Machine.bidPack x) ∧
  (∀ x y : LD, x.inRange = true → y.inRange = true → Machine.bidPack x = Machine.bidPack y → x = y)

/-- R192: the class of a word by its bits, whatever its sign, and the class code `DECODE` puts on the bus. -/
def Obligations.ClassOfAWordByItsBits : Prop :=
  ∀ s : Machine.State, ∃ v : Bus,
    Machine.exec .decode s = .next { s with res := none, lres := some v, tout := none, flag := none } ∧
    Machine.classify s.a = (Machine.bidDecode s.a).k ∧
    (s.a.toNat / 2 ^ 59 % 16 ≠ 15 → Machine.classify s.a = .finite ∧ v.toNat / 2 ^ 70 % 4 = 0) ∧
    (s.a.toNat / 2 ^ 58 % 32 = 30 → Machine.classify s.a = .infinity ∧ v.toNat / 2 ^ 70 % 4 = 1) ∧
    (s.a.toNat / 2 ^ 57 % 64 = 62 → Machine.classify s.a = .quietNaN ∧ v.toNat / 2 ^ 70 % 4 = 2) ∧
    (s.a.toNat / 2 ^ 57 % 64 = 63 → Machine.classify s.a = .signalingNaN ∧ v.toNat / 2 ^ 70 % 4 = 3)

/-- R70, R71: where the bus carries the four fields; every in-range value fits; and the bus and the value determine each other. -/
def Obligations.BusCarriesTheFourFields : Prop :=
  (∀ x : LD, x.onBus = true →
    (Machine.toBus x).toNat / 2 ^ 72 = (if x.s then 1 else 0) ∧
    (Machine.toBus x).toNat / 2 ^ 70 % 4 =
      (match x.k with | .finite => 0 | .infinity => 1 | .quietNaN => 2 | .signalingNaN => 3) ∧
    (Machine.toBus x).toNat / 2 ^ 16 % 2 ^ 54 = x.c ∧
    ((Machine.toBus x).toNat % 2 ^ 16 : Int) = x.e % 2 ^ 16 ∧
    Machine.ofBus (Machine.toBus x) = x) ∧
  (∀ x : LD, x.inRange = true → x.onBus = true) ∧
  (∀ v : Bus, (Machine.ofBus v).onBus = true ∧ Machine.toBus (Machine.ofBus v) = v)

/-- R83, R80: DECODE, for each form of word: form 1, form 2 (a significand above CMAX reads as 0), Infinity, quiet NaN,
signalling NaN. -/
def Obligations.DecodeGivesTheFieldsOfTheWord : Prop :=
  ∀ (s : Machine.State) (sg : Bool),
    (∀ eb c, eb < 768 → c < 2 ^ 53 → s.a.toNat = signWeight sg + eb * 2 ^ 53 + c →
      Machine.exec .decode s = .next { s with
        res := none, lres := some (Machine.toBus ⟨sg, .finite, c, (eb : Int) - 398⟩), tout := none, flag := none }) ∧
    (∀ eb f, eb < 768 → f < 2 ^ 51 → s.a.toNat = signWeight sg + 3 * 2 ^ 61 + eb * 2 ^ 51 + f →
      Machine.exec .decode s = .next { s with
        res := none, tout := none, flag := none
        lres := some (Machine.toBus
          ⟨sg, .finite, if 2 ^ 53 + f ≤ 9999999999999999 then 2 ^ 53 + f else 0, (eb : Int) - 398⟩) }) ∧
    (∀ r, r < 2 ^ 58 → s.a.toNat = signWeight sg + 30 * 2 ^ 58 + r →
      Machine.exec .decode s = .next { s with
        res := none, lres := some (Machine.toBus ⟨sg, .infinity, 0, 0⟩), tout := none, flag := none }) ∧
    (∀ r, r < 2 ^ 57 → s.a.toNat = signWeight sg + 62 * 2 ^ 57 + r →
      Machine.exec .decode s = .next { s with
        res := none, lres := some (Machine.toBus ⟨sg, .quietNaN, 0, 0⟩), tout := none, flag := none }) ∧
    (∀ r, r < 2 ^ 57 → s.a.toNat = signWeight sg + 63 * 2 ^ 57 + r →
      Machine.exec .decode s = .next { s with
        res := none, lres := some (Machine.toBus ⟨sg, .signalingNaN, 0, 0⟩), tout := none, flag := none })

/-- R89: ENCODE rounds and range-fits a finite bus value, is `pack` itself on an in-range one, and ignores the significand
and exponent of another class. -/
def Obligations.EncodePacksTheBusValue : Prop :=
  ∀ s : Machine.State, ∃ w : Word,
    Machine.exec .encode s = .next { s with res := some w, lres := none, tout := none, flag := none } ∧
    (∀ sg c e, Machine.ofBus s.lin = ⟨sg, .finite, c, e⟩ →
      w = Machine.bidPack (Machine.finalize sg c e false) ∧
      (c < 2 ^ 53 → -398 ≤ e → e ≤ 369 → (w.toNat : Int) = signWeight sg + (e + 398) * 2 ^ 53 + c) ∧
      (2 ^ 53 ≤ c → c ≤ 9999999999999999 → -398 ≤ e → e ≤ 369 →
        (w.toNat : Int) = signWeight sg + 3 * 2 ^ 61 + (e + 398) * 2 ^ 51 + (c - 2 ^ 53))) ∧
    (∀ sg c e, Machine.ofBus s.lin = ⟨sg, .infinity, c, e⟩ → w = infinityWord sg) ∧
    (∀ sg c e, Machine.ofBus s.lin = ⟨sg, .quietNaN, c, e⟩ → w = quietNaNWord sg) ∧
    (∀ sg c e, Machine.ofBus s.lin = ⟨sg, .signalingNaN, c, e⟩ → w = signalingNaNWord sg)

/-- R90, R91: the interchange operations give the word back unchanged. -/
def Obligations.InterchangeOperationsAreIdentities : Prop :=
  ∀ (s : Machine.State) (i : Instr), i = .decodeFromBid ∨ i = .encodeToBid →
    Machine.exec i s = .next { s with res := some s.a, lres := none, tout := none, flag := none }

/-- R190, R191: ISNAN is 1 exactly when `A[62:58] = 0b11111`. -/
def Obligations.IsnanIsTheBitTest : Prop :=
  ∀ s : Machine.State, Machine.exec .isnan s = .next { s with
    res := none, lres := none, tout := none
    flag := some (if s.a.toNat / 2 ^ 58 % 32 = 31 then 1 else 0) }

/-- R94: every word on `RES` from an operation other than the interchange operations is canonical, and it is a signalling NaN
only, and always, when ENCODE is given one. -/
def Obligations.ResultWordsAreCanonical : Prop :=
  (∀ (i : Instr) (s t : Machine.State) (w : Word), i ≠ .decodeFromBid → i ≠ .encodeToBid →
    Machine.exec i s = .next t → t.res = some w →
    CanonicalWord w ∧
      ((Machine.bidDecode w).k = .signalingNaN → i = .encode ∧ (Machine.ofBus s.lin).k = .signalingNaN)) ∧
  (∀ s : Machine.State, (Machine.ofBus s.lin).k = .signalingNaN →
    ∃ t w, Machine.exec .encode s = .next t ∧ t.res = some w ∧ (Machine.bidDecode w).k = .signalingNaN)

/-! ## Rounding and alignment -/

/-- R137: `roundDigits` is the rule's pseudocode, and drops every digit when `d` exceeds their number. -/
def Obligations.RoundDigitsDropsHalfToEven : Prop :=
  ∀ (C d : Nat) (sticky : Bool), 1 ≤ d →
    (5 * 10 ^ (d - 1) < C % 10 ^ d → Machine.roundDigits C d sticky = C / 10 ^ d + 1) ∧
    (C % 10 ^ d = 5 * 10 ^ (d - 1) → sticky = true → Machine.roundDigits C d sticky = C / 10 ^ d + 1) ∧
    (C % 10 ^ d = 5 * 10 ^ (d - 1) → sticky = false →
      Machine.roundDigits C d sticky = if C / 10 ^ d % 2 = 1 then C / 10 ^ d + 1 else C / 10 ^ d) ∧
    (C % 10 ^ d < 5 * 10 ^ (d - 1) → Machine.roundDigits C d sticky = C / 10 ^ d) ∧
    (Machine.ndig C ≤ d →
      Machine.roundDigits C d sticky =
        if d = Machine.ndig C ∧ (5 * 10 ^ (d - 1) < C ∨ (C = 5 * 10 ^ (d - 1) ∧ sticky = true)) then 1 else 0)

/-- R10: `ndig(n)` is the least `k ≥ 1` with `n < 10^k`. -/
def Obligations.DigitCountIsLeast : Prop :=
  ∀ n : Nat, 1 ≤ Machine.ndig n ∧ n < 10 ^ Machine.ndig n ∧ (∀ k, 1 ≤ k → n < 10 ^ k → Machine.ndig n ≤ k) ∧
    Machine.ndig 0 = 1 ∧ Machine.ndig 9 = 1 ∧ Machine.ndig 10 = 2 ∧ Machine.ndig 9999999999999999 = 16

/-- R144: rounding is the identity on in-range values, and its result is always in range. -/
def Obligations.RoundingKeepsRepresentableValues : Prop :=
  (∀ x : LD, x.inRange = true → x.k = .finite → Machine.finalize x.s x.c x.e false = x) ∧
  (∀ s C E sticky, (Machine.finalize s C E sticky).inRange = true)

/-- R136: a finite result has the exact value's sign and is nearest to it among all representable values, and of two equally
near ones it is the one whose last kept digit is even. The exact value is `(C + t) * 10^E`, with `0 < t < 1` when sticky is
set, which needs 17 digits (R135, R143). -/
def Obligations.RoundingIsToNearestEven : Prop :=
  ∀ (s : Bool) (C : Nat) (E : Int) (sticky : Bool) (t : ℚ),
    (sticky = false ∧ t = 0) ∨ (sticky = true ∧ 0 < t ∧ t < 1 ∧ 17 ≤ Machine.ndig C) →
    (Machine.finalize s C E sticky).k = .finite →
    (Machine.finalize s C E sticky).s = s ∧
    ∀ y : LD, y.inRange = true → y.k = .finite →
      |(C + t) * 10 ^ E - (Machine.finalize s C E sticky).magnitude| ≤ |(C + t) * 10 ^ E - y.magnitude| ∧
      (|(C + t) * 10 ^ E - (Machine.finalize s C E sticky).magnitude| = |(C + t) * 10 ^ E - y.magnitude| →
        y.magnitude ≠ (Machine.finalize s C E sticky).magnitude → (Machine.finalize s C E sticky).c % 2 = 0)

/-- R142: Infinity exactly when the rounded value's magnitude is at least `10^385`; below that a rounded exponent above 369 is
clamped to 369, exactly, and with one up to 369 the result is the rounded digits at that exponent (R139's last line). -/
def Obligations.OverflowFromTenToThe385 : Prop :=
  (∀ (s : Bool) (C : Nat) (E : Int) (sticky : Bool) (q : Nat) (E1 : Int), C ≠ 0 →
    Machine.roundToWidth C E sticky = (q, E1) →
    ((Machine.finalize s C E sticky).k = .infinity ↔ (10 : ℚ) ^ (385 : Int) ≤ (q : ℚ) * 10 ^ E1) ∧
    ((10 : ℚ) ^ (385 : Int) ≤ (q : ℚ) * 10 ^ E1 → Machine.finalize s C E sticky = ⟨s, .infinity, 0, 0⟩) ∧
    ((q : ℚ) * 10 ^ E1 < (10 : ℚ) ^ (385 : Int) → 369 < E1 →
      Machine.finalize s C E sticky = ⟨s, .finite, q * 10 ^ (E1 - 369).toNat, 369⟩) ∧
    (E1 ≤ 369 → Machine.finalize s C E sticky = ⟨s, .finite, q, E1⟩)) ∧
  Machine.finalize false 1 370 false = ⟨false, .finite, 10, 369⟩ ∧
  Machine.finalize false 1 385 false = ⟨false, .infinity, 0, 0⟩ ∧
  Machine.finalize true (9999999999999999 * 10 + 5) 368 false = ⟨true, .infinity, 0, 0⟩

/-- R138, R145: the sign, digits and exponent of a finite nonzero result, `d` the digits to drop (R139). With none to drop the
given digits and exponent stay, the exponent clamped at 369. Otherwise they are the rounded digits, and a carry to `10^16`, which
needs sixteen kept nines, gives `10^15` one exponent higher. A rounded result that is not subnormal (nor a zero) has 16 digits and
the smallest exponent that holds its value. -/
def Obligations.RoundedResultsKeepSignAndLeastExponent : Prop :=
  ∀ (s : Bool) (C : Nat) (E : Int) (sticky : Bool) (d : Nat) (y : LD), C ≠ 0 → (sticky = true → 17 ≤ Machine.ndig C) →
    d = max (Machine.ndig C - 16) (-398 - E).toNat → y = Machine.finalize s C E sticky →
    y.s = s ∧
    (y.k = .finite → d = 0 → y.c = C * 10 ^ (E - 369).toNat ∧ y.e = min E 369) ∧
    (y.k = .finite → 1 ≤ d →
      (Machine.roundDigits C d sticky ≠ 10 ^ 16 → y.c = Machine.roundDigits C d sticky ∧ y.e = E + d) ∧
      (Machine.roundDigits C d sticky = 10 ^ 16 →
        C / 10 ^ d = 9999999999999999 ∧ y.c = 10 ^ 15 ∧ y.e = E + d + 1) ∧
      (¬ (y.e = -398 ∧ Machine.ndig y.c < 16) →
        Machine.ndig y.c = 16 ∧ ∀ z : LD, z.inRange = true → z.k = .finite → z.magnitude = y.magnitude → y.e ≤ z.e))

/-- Zero results and underflow (43_rounding_alignment.md section 1): an exact zero keeps its sign and its clamped exponent; a
nonzero value is rounded to a zero, of its own sign and exponent -398, exactly when it is at most half of `10^-398`. -/
def Obligations.UnderflowKeepsTheSign : Prop :=
  (∀ (s : Bool) (E : Int),
    (E < -398 → Machine.finalize s 0 E false = ⟨s, .finite, 0, -398⟩) ∧
    (-398 ≤ E → E ≤ 369 → Machine.finalize s 0 E false = ⟨s, .finite, 0, E⟩) ∧
    (369 < E → Machine.finalize s 0 E false = ⟨s, .finite, 0, 369⟩)) ∧
  (∀ (s : Bool) (C : Nat) (E : Int), C ≠ 0 →
    ((C : ℚ) * 10 ^ E ≤ 10 ^ (-398 : Int) / 2 → Machine.finalize s C E false = ⟨s, .finite, 0, -398⟩) ∧
    ((10 : ℚ) ^ (-398 : Int) / 2 < (C : ℚ) * 10 ^ E →
      ¬ ((Machine.finalize s C E false).k = .finite ∧ (Machine.finalize s C E false).c = 0)))

/-- Seventeen digits and a sticky bit are enough: rounding the first 17 significant digits with the sticky bit of the dropped
ones gives what rounding the exact integer gives (41_parser.md section 5). -/
def Obligations.SeventeenDigitsAndStickySuffice : Prop :=
  ∀ (s : Bool) (C : Nat) (E : Int), 17 < Machine.ndig C →
    Machine.finalize s C E false =
      Machine.finalize s (C / 10 ^ (Machine.ndig C - 17)) (E + (Machine.ndig C - 17 : Nat))
        (decide (C % 10 ^ (Machine.ndig C - 17) ≠ 0))

/-- Saturating an exponent at a bound of at least `TEXT_MAX + 800` changes no result, for digit counts and fraction lengths a text
of TEXT_MAX bytes can have (41_parser.md section 5). -/
def Obligations.SaturatedExponentsGiveTheSameResult : Prop :=
  ∀ (s : Bool) (C frac textMax : Nat) (X B : Int), Machine.ndig C ≤ textMax → frac ≤ textMax →
    (textMax : Int) + 800 ≤ B →
    Machine.finalize s C (X - frac) false = Machine.finalize s C (max (-B) (min B X) - frac) false

/-- R147: the aligner brings both operands to the smaller exponent, exactly. -/
def Obligations.AlignmentIsExact : Prop :=
  ∀ (x y : LD) (a b : Nat) (e : Int), Machine.align x y = (a, b, e) →
    e = min x.e y.e ∧ (a : ℚ) * 10 ^ e = x.magnitude ∧ (b : ℚ) * 10 ^ e = y.magnitude

/-! ## Arithmetic -/

/-- R157, R158: NaN operands of the four operations: a signalling NaN before a quiet one, `A` before `B`, and the result is
the quiet NaN word of that operand's sign, which SUB does not invert. -/
def Obligations.NaNOperandsGiveTheirQuietNaN : Prop :=
  ∀ (s : Machine.State) (i : Instr), i = .add ∨ i = .sub ∨ i = .mul ∨ i = .div →
    ∀ x y : LD, x = Machine.bidDecode s.a → y = Machine.bidDecode s.b → x.isNaN ∨ y.isNaN →
      Machine.exec i s = .next { s with
        lres := none, tout := none, flag := none
        res := some (quietNaNWord (
          if x.k = .signalingNaN then x.s
          else if y.k = .signalingNaN then y.s
          else if x.k = .quietNaN then x.s
          else y.s)) }

/-- R160: Infinities in ADD and SUB, `sy` the effective sign of the second operand. -/
def Obligations.InfinitiesInSums : Prop :=
  ∀ (s : Machine.State) (i : Instr) (x y : LD) (sy : Bool), x = Machine.bidDecode s.a → y = Machine.bidDecode s.b →
    (i = .add ∧ sy = y.s) ∨ (i = .sub ∧ sy = !y.s) →
    (x.k = .infinity → y.k = .finite →
      Machine.exec i s = .next { s with res := some (infinityWord x.s), lres := none, tout := none, flag := none }) ∧
    (x.k = .finite → y.k = .infinity →
      Machine.exec i s = .next { s with res := some (infinityWord sy), lres := none, tout := none, flag := none }) ∧
    (x.k = .infinity → y.k = .infinity → sy = x.s →
      Machine.exec i s = .next { s with res := some (infinityWord x.s), lres := none, tout := none, flag := none }) ∧
    (x.k = .infinity → y.k = .infinity → sy ≠ x.s →
      Machine.exec i s = .next { s with
        res := some 0x7C00000000000000, lres := none, tout := none, flag := none })

/-- R161: Infinities in MUL. -/
def Obligations.InfinitiesInProducts : Prop :=
  ∀ (s : Machine.State) (x y : LD), x = Machine.bidDecode s.a → y = Machine.bidDecode s.b → ¬ x.isNaN → ¬ y.isNaN →
    x.k = .infinity ∨ y.k = .infinity →
    ((x.k = .finite ∧ x.c = 0) ∨ (y.k = .finite ∧ y.c = 0) →
      Machine.exec .mul s = .next { s with
        res := some 0x7C00000000000000, lres := none, tout := none, flag := none }) ∧
    (¬ ((x.k = .finite ∧ x.c = 0) ∨ (y.k = .finite ∧ y.c = 0)) →
      Machine.exec .mul s = .next { s with
        res := some (infinityWord (xor x.s y.s)), lres := none, tout := none, flag := none })

/-- R162, R163, R175: Infinities and zero divisors in DIV; the zero of a finite value over Infinity has the exponent the
parameter gives, -398 unless the model is given another. -/
def Obligations.InfinitiesAndZeroDivisors : Prop :=
  Machine.State.reset.cfg.divByInfZeroExp = -398 ∧
  ∀ (s : Machine.State) (x y : LD), x = Machine.bidDecode s.a → y = Machine.bidDecode s.b → ¬ x.isNaN → ¬ y.isNaN →
    (x.k = .infinity → y.k = .infinity →
      Machine.exec .div s = .next { s with
        res := some 0x7C00000000000000, lres := none, tout := none, flag := none }) ∧
    (x.k = .infinity → y.k = .finite →
      Machine.exec .div s = .next { s with
        res := some (infinityWord (xor x.s y.s)), lres := none, tout := none, flag := none }) ∧
    (x.k = .finite → y.k = .infinity → ∃ w : Word,
      Machine.exec .div s = .next { s with res := some w, lres := none, tout := none, flag := none } ∧
      w.toNat = signWeight (xor x.s y.s) + s.cfg.divByInfZeroBiased * 2 ^ 53 ∧
      Machine.bidDecode w = ⟨xor x.s y.s, .finite, 0, s.cfg.divByInfZeroExp⟩) ∧
    (x.k = .finite → x.c ≠ 0 → y.k = .finite → y.c = 0 →
      Machine.exec .div s = .next { s with
        res := some (infinityWord (xor x.s y.s)), lres := none, tout := none, flag := none }) ∧
    (x.k = .finite → x.c = 0 → y.k = .finite → y.c = 0 →
      Machine.exec .div s = .next { s with
        res := some 0x7C00000000000000, lres := none, tout := none, flag := none })

/-- R164, R165, R166: ADD and SUB of finite operands: the exact signed sum at the smaller exponent, rounded once; exact when it has
at most 16 digits; an exact zero negative only when both effective signs are. -/
def Obligations.SumsOfFiniteOperands : Prop :=
  ∀ (s : Machine.State) (i : Instr) (x y : LD) (sy : Bool) (e S : Int),
    x = Machine.bidDecode s.a → y = Machine.bidDecode s.b → x.k = .finite → y.k = .finite →
    (i = .add ∧ sy = y.s) ∨ (i = .sub ∧ sy = !y.s) → e = min x.e y.e →
    S = (if x.s then -1 else 1) * (x.c : Int) * 10 ^ (x.e - e).toNat
      + (if sy then -1 else 1) * (y.c : Int) * 10 ^ (y.e - e).toNat →
    ∃ w : Word, Machine.exec i s = .next { s with res := some w, lres := none, tout := none, flag := none } ∧
      (S = 0 → Machine.bidDecode w = ⟨x.s && sy, .finite, 0, e⟩) ∧
      (S ≠ 0 → w = Machine.bidPack (Machine.finalize (decide (S < 0)) S.natAbs e false)) ∧
      (S ≠ 0 → S.natAbs ≤ 9999999999999999 → Machine.bidDecode w = ⟨decide (S < 0), .finite, S.natAbs, e⟩)

/-- R168, R169: MUL of finite operands: the exact product, rounded once; a zero product keeps the sign and the clamped
exponent; a product that fits is exact. -/
def Obligations.ProductsOfFiniteOperands : Prop :=
  ∀ (s : Machine.State) (x y : LD), x = Machine.bidDecode s.a → y = Machine.bidDecode s.b → x.k = .finite → y.k = .finite →
    ∃ w : Word, Machine.exec .mul s = .next { s with res := some w, lres := none, tout := none, flag := none } ∧
      w = Machine.bidPack (Machine.finalize (xor x.s y.s) (x.c * y.c) (x.e + y.e) false) ∧
      (x.c = 0 ∨ y.c = 0 →
        Machine.bidDecode w = ⟨xor x.s y.s, .finite, 0, max (-398) (min 369 (x.e + y.e))⟩) ∧
      (x.c * y.c ≤ 9999999999999999 → -398 ≤ x.e + y.e → x.e + y.e ≤ 369 →
        Machine.bidDecode w = ⟨xor x.s y.s, .finite, x.c * y.c, x.e + y.e⟩)

/-- R171 to R174: DIV of finite operands by a nonzero one: a zero dividend; an exact quotient at the least scale; otherwise a
17-digit quotient with the sticky bit of its remainder, rounded once. -/
def Obligations.QuotientsOfFiniteOperands : Prop :=
  ∀ (s : Machine.State) (x y : LD), x = Machine.bidDecode s.a → y = Machine.bidDecode s.b → x.k = .finite → y.k = .finite →
    y.c ≠ 0 →
    ∃ w : Word, Machine.exec .div s = .next { s with res := some w, lres := none, tout := none, flag := none } ∧
      (x.c = 0 → Machine.bidDecode w = ⟨xor x.s y.s, .finite, 0, max (-398) (min 369 (x.e - y.e))⟩) ∧
      (∀ c j : Nat, x.c ≠ 0 → c ≤ 9999999999999999 → c * y.c = x.c * 10 ^ j →
        (∀ i, i < j → ¬ ∃ b, b ≤ 9999999999999999 ∧ b * y.c = x.c * 10 ^ i) →
        w = Machine.bidPack (Machine.finalize (xor x.s y.s) c (x.e - y.e - j) false)) ∧
      (∀ j : Nat, x.c ≠ 0 → (¬ ∃ i b, b ≤ 9999999999999999 ∧ b * y.c = x.c * 10 ^ i) →
        1 ≤ j → 10 ^ 16 ≤ x.c * 10 ^ j / y.c → (∀ i, 1 ≤ i → i < j → x.c * 10 ^ i / y.c < 10 ^ 16) →
        j ≤ 32 ∧ x.c * 10 ^ j < 10 ^ 48 ∧ x.c * 10 ^ j / y.c < 10 ^ 17 ∧
        w = Machine.bidPack (Machine.finalize (xor x.s y.s) (x.c * 10 ^ j / y.c) (x.e - y.e - j)
          (decide (x.c * 10 ^ j % y.c ≠ 0))))

/-- R176: ADD and MUL are commutative bit for bit, unless both operands are NaNs, when both results are quiet NaNs. -/
def Obligations.SumsAndProductsCommute : Prop :=
  ∀ (s : Machine.State) (i : Instr), i = .add ∨ i = .mul →
    ∃ t u v w, Machine.exec i s = .next t ∧ t.res = some v ∧
      Machine.exec i { s with a := s.b, b := s.a } = .next u ∧ u.res = some w ∧
      (¬ ((Machine.bidDecode s.a).isNaN ∧ (Machine.bidDecode s.b).isNaN) → v = w) ∧
      ((Machine.bidDecode s.a).isNaN → (Machine.bidDecode s.b).isNaN →
        (v = quietNaNWord false ∨ v = quietNaNWord true) ∧ (w = quietNaNWord false ∨ w = quietNaNWord true))

/-- R177: adding a zero and multiplying by one. -/
def Obligations.IdentityElements : Prop :=
  ∀ (s : Machine.State) (x y : LD), x = Machine.bidDecode s.a → y = Machine.bidDecode s.b → x.k = .finite → y.k = .finite →
    (y.c = 0 → ∃ t w, Machine.exec .add s = .next t ∧ t.res = some w ∧ numEq (Machine.bidDecode w) x ∧
      (x.e ≤ y.e → ¬ (x.c = 0 ∧ x.s = true ∧ y.s = false) → Machine.bidDecode w = x)) ∧
    (y.value = 1 → ∃ t w, Machine.exec .mul s = .next t ∧ t.res = some w ∧ numEq (Machine.bidDecode w) x ∧
      (s.b = 0x31C0000000000001 → Machine.bidDecode w = x))

/-- R178: a NaN operand gives a quiet NaN word, for which ISNAN is 1, in all four operations. -/
def Obligations.NaNsPropagate : Prop :=
  ∀ (s : Machine.State) (i : Instr), i = .add ∨ i = .sub ∨ i = .mul ∨ i = .div →
    (Machine.bidDecode s.a).isNaN ∨ (Machine.bidDecode s.b).isNaN →
    ∃ t u w, Machine.exec i s = .next t ∧ t.res = some w ∧ (Machine.bidDecode w).k = .quietNaN ∧
      Machine.exec .isnan { t with a := w } = .next u ∧ u.flag = some 1

/-! ## Text -/

/-- R100, R101, R104, R105, R108, R109: PARSE of a numeral is its exact value rounded once, of a special token its value, and of
every other text the positive quiet NaN. -/
def Obligations.ParseFollowsTheGrammar : Prop :=
  ∀ s : Machine.State, s.tin.length ≤ s.cfg.textMax → ∃ w : Word,
    Machine.exec .parse s = .next { s with res := some w, lres := none, tout := none, flag := none } ∧
    (∀ sg C E, NumeralText s.tin sg C E → w = Machine.bidPack (Machine.finalize sg C E false)) ∧
    (∀ sg, SpecialText s.tin sg .quietNaN → w = quietNaNWord sg) ∧
    (∀ sg, SpecialText s.tin sg .infinity → w = infinityWord sg) ∧
    ((∀ sg C E, ¬ NumeralText s.tin sg C E) → (∀ sg k, ¬ SpecialText s.tin sg k) → w = 0x7C00000000000000)

/-- R120, R121, R122, R124, R126: FORMAT: the sign, one digit, a point, 15 digits, `E`, the exponent's sign and its digits without
leading zeros; the 16 digits are those of the significand padded with zeros, and the exponent that of the leading digit. -/
def Obligations.FormatPrintsSixteenDigits : Prop :=
  ∀ (s : Machine.State) (x : LD) (sign : List Byte), x = Machine.bidDecode s.a →
    (sign = if x.s then [0x2D] else []) →
    (x.k = .infinity → Machine.exec .format s = .next { s with
      res := none, lres := none, tout := some (sign ++ [0x69, 0x6E, 0x66]), flag := none }) ∧
    (x.isNaN → Machine.exec .format s = .next { s with
      res := none, lres := none, tout := some (sign ++ [0x6E, 0x61, 0x6E]), flag := none }) ∧
    (x.k = .finite → ∃ (first : Byte) (others expo : List Byte),
      Machine.exec .format s = .next { s with
        res := none, lres := none, flag := none
        tout := some (sign ++ first :: 0x2E :: others ++ 0x45 ::
          (if 0 ≤ x.e + Machine.ndig x.c - 1 then 0x2B else 0x2D) :: expo) } ∧
      others.length = 15 ∧ DigitText (first :: others) ∧
      Machine.decimalValue (first :: others) = x.c * 10 ^ (16 - Machine.ndig x.c) ∧
      (x.c ≠ 0 → first ≠ 0x30) ∧
      DigitText expo ∧ Machine.decimalValue expo = (x.e + Machine.ndig x.c - 1).natAbs ∧
      (expo = [0x30] ∨ ∃ d ds, expo = d :: ds ∧ d ≠ 0x30))

/-- R127: a finite value's text has 20 to 23 bytes, another's 3 or 4. -/
def Obligations.FormatLengths : Prop :=
  ∀ s : Machine.State, ∃ (t : Machine.State) (x : List Byte), Machine.exec .format s = .next t ∧ t.tout = some x ∧
    ((Machine.bidDecode s.a).k = .finite → 20 ≤ x.length ∧ x.length ≤ 23) ∧
    ((Machine.bidDecode s.a).k ≠ .finite → x.length = 3 ∨ x.length = 4)

/-- R128: which values print alike. -/
def Obligations.ValuesThatPrintAlike : Prop :=
  ∀ x y : LD, x.inRange = true → y.inRange = true →
    (x.k = .finite → y.k = .finite → x.c ≠ 0 → y.c ≠ 0 →
      (Machine.formatText x = Machine.formatText y ↔ x.s = y.s ∧ numEq x y)) ∧
    (x.k = .finite → y.k = .finite → x.c = 0 → y.c = 0 →
      (Machine.formatText x = Machine.formatText y ↔ x.s = y.s ∧ x.e = y.e)) ∧
    ((x.k = .infinity ∧ y.k = .infinity) ∨ (x.isNaN ∧ y.isNaN) →
      (Machine.formatText x = Machine.formatText y ↔ x.s = y.s))

/-- R116: parsing what is printed gives a numerically equal value of the same sign, in general another cohort member; an Infinity
back; and the quiet NaN of a NaN's sign. -/
def Obligations.ParseUndoesFormat : Prop :=
  (∀ x : LD, x.inRange = true →
    (x.k = .finite →
      numEq (Machine.parseText (Machine.formatText x)) x ∧ (Machine.parseText (Machine.formatText x)).s = x.s) ∧
    (x.k = .infinity → Machine.parseText (Machine.formatText x) = x) ∧
    (x.isNaN → Machine.parseText (Machine.formatText x) = ⟨x.s, .quietNaN, 0, 0⟩)) ∧
  (∃ x : LD, x.inRange = true ∧ x.k = .finite ∧ Machine.parseText (Machine.formatText x) ≠ x)
end

