-- ==== Sys2Proof/Laws/Rounding.lean ====
section
/-!
SUPPORT. What the digit count, `roundDigits` and `finalize` do, said once (43_rounding_alignment.md; 00_scope.md R10).
-/

namespace Sys2Proof.Machine

/-! ### The digit count -/

theorem ndigFrom_ge (fuel k n : Nat) : k ≤ ndigFrom fuel k n := by
  induction fuel generalizing k with
  | zero => exact le_rfl
  | succ fuel ih =>
    unfold ndigFrom
    split
    · exact le_rfl
    · exact (Nat.le_succ k).trans (ih (k + 1))

theorem lt_pow_ndigFrom {fuel k n : Nat} (h : n < 10 ^ (k + fuel)) : n < 10 ^ ndigFrom fuel k n := by
  induction fuel generalizing k with
  | zero => simpa [ndigFrom] using h
  | succ fuel ih =>
    unfold ndigFrom
    split
    · assumption
    · exact ih (by rwa [Nat.add_assoc, Nat.add_comm 1 fuel])

theorem ndigFrom_le {fuel k j n : Nat} (hkj : k ≤ j) (h : n < 10 ^ j) : ndigFrom fuel k n ≤ j := by
  induction fuel generalizing k with
  | zero => exact hkj
  | succ fuel ih =>
    unfold ndigFrom
    split
    · exact hkj
    · rename_i hk
      exact ih (lt_of_le_of_ne hkj (by rintro rfl; exact hk h))

theorem one_le_ndig (n : Nat) : 1 ≤ ndig n := ndigFrom_ge _ _ _

/-- A number is below the power of ten of its digit count. -/
theorem lt_pow_ndig (n : Nat) : n < 10 ^ ndig n := by
  refine lt_pow_ndigFrom ?_
  calc n < 2 ^ (n.log2 + 1) := Nat.lt_log2_self
    _ ≤ 10 ^ (n.log2 + 1) := Nat.pow_le_pow_left (by decide) _
    _ = 10 ^ (1 + n.log2) := by rw [Nat.add_comm]

/-- The digit count is the least such positive exponent (R10). -/
theorem ndig_le_iff {n j : Nat} (hj : 1 ≤ j) : ndig n ≤ j ↔ n < 10 ^ j :=
  ⟨fun h => (lt_pow_ndig n).trans_le (Nat.pow_le_pow_right (by decide) h), fun h => ndigFrom_le hj h⟩

theorem ndig_zero : ndig 0 = 1 := rfl

/-- A nonzero number has a leading digit. -/
theorem pow_ndig_le {n : Nat} (hn : n ≠ 0) : 10 ^ (ndig n - 1) ≤ n := by
  by_contra h
  rcases Nat.lt_or_ge 1 (ndig n) with h1 | h1
  · have := (ndig_le_iff (n := n) (j := ndig n - 1) (by omega)).2 (by omega)
    omega
  · simp [show ndig n - 1 = 0 by omega] at h
    exact hn h

/-- In-range significands are those of at most 16 digits (R6, R10). -/
theorem ndig_le_precision {n : Nat} : ndig n ≤ precision ↔ n ≤ cmax := by
  rw [ndig_le_iff (by decide)]
  norm_num [precision, cmax]
  omega

/-! ### roundDigits -/

/-- R137 as the spec writes it, with `10^d` computed whatever `d` is. -/
theorem roundDigits_eq {C d : Nat} {sticky : Bool} (hd : 1 ≤ d) :
    roundDigits C d sticky =
      if 5 * 10 ^ (d - 1) < C % 10 ^ d then C / 10 ^ d + 1
      else if C % 10 ^ d = 5 * 10 ^ (d - 1) then
        if sticky then C / 10 ^ d + 1 else if C / 10 ^ d % 2 = 1 then C / 10 ^ d + 1 else C / 10 ^ d
      else C / 10 ^ d := by
  unfold roundDigits
  split
  · rename_i h
    have hC : C < 10 ^ (d - 1) := (ndig_le_iff' hd h)
    have hCd : C < 10 ^ d := hC.trans_le (Nat.pow_le_pow_right (by decide) (by omega))
    rw [Nat.mod_eq_of_lt hCd, Nat.div_eq_of_lt hCd, if_neg (by omega), if_neg (by omega)]
  · rfl
where
  ndig_le_iff' {C d : Nat} (hd : 1 ≤ d) (h : ndig C < d) : C < 10 ^ (d - 1) :=
    (lt_pow_ndig C).trans_le (Nat.pow_le_pow_right (by decide) (by omega))

/-- Rounding moves the kept digits up by one at most. -/
theorem roundDigits_le {C d : Nat} {sticky : Bool} (hd : 1 ≤ d) : roundDigits C d sticky ≤ C / 10 ^ d + 1 := by
  rw [roundDigits_eq hd]
  split_ifs <;> omega

/-! ### finalize -/

/-- What is kept never has more than 16 digits before the carry of R138. -/
theorem roundDigits_dropCount_le {C : Nat} {E : Int} {sticky : Bool} (hd : dropCount C E ≠ 0) :
    roundDigits C (dropCount C E) sticky ≤ 10 ^ precision := by
  have h1 : C < 10 ^ (dropCount C E + precision) :=
    (lt_pow_ndig C).trans_le (Nat.pow_le_pow_right (by decide) (by unfold dropCount; omega))
  have h2 : C / 10 ^ dropCount C E < 10 ^ precision := by
    rw [Nat.div_lt_iff_lt_mul (by positivity)]
    rwa [pow_add, Nat.mul_comm] at h1
  have := roundDigits_le (C := C) (sticky := sticky) (Nat.one_le_iff_ne_zero.2 hd)
  omega

/-- The rounded significand has at most 16 digits and its exponent is at least EMIN. -/
theorem roundToWidth_spec (C : Nat) (E : Int) (sticky : Bool) :
    (roundToWidth C E sticky).1 ≤ cmax ∧ emin ≤ (roundToWidth C E sticky).2 := by
  have hE : emin ≤ E + dropCount C E := by unfold dropCount; omega
  unfold roundToWidth
  split
  · rename_i hd
    have h0 : dropCount C E = 0 := hd
    have hn : ndig C ≤ precision := by unfold dropCount at h0; omega
    exact ⟨ndig_le_precision.1 hn, by rw [h0] at hE; simpa using hE⟩
  · rename_i hd
    have hq := roundDigits_dropCount_le (sticky := sticky) hd
    unfold carry
    split
    · exact ⟨by norm_num, by simp only; omega⟩
    · exact ⟨by simp only [precision, cmax] at *; omega, hE⟩

/-- Fitting the exponent gives an in-range value (R142, R144). -/
theorem fitExponent_inRange {s : Bool} {q : Nat} {E : Int} (hq : q ≤ cmax) (hE : emin ≤ E) :
    (fitExponent s q E).inRange = true := by
  unfold fitExponent
  split
  · split
    · rename_i h
      have hfit : q * 10 ^ (E - emax).toNat < 10 ^ precision := by
        calc q * 10 ^ (E - emax).toNat < 10 ^ ndig q * 10 ^ (E - emax).toNat :=
              Nat.mul_lt_mul_of_pos_right (lt_pow_ndig q) (by positivity)
          _ = 10 ^ (ndig q + (E - emax).toNat) := (pow_add ..).symm
          _ ≤ 10 ^ precision := Nat.pow_le_pow_right (by decide) h
      simp only [LD.inRange, Bool.and_eq_true, decide_eq_true_eq, precision, cmax, emin, emax] at *
      omega
    · rfl
  · simp only [LD.inRange, Bool.and_eq_true, decide_eq_true_eq]
    omega

/-- The class `finalize` returns is finite or Infinity (R135). -/
theorem finalize_class (s : Bool) (C : Nat) (E : Int) (sticky : Bool) :
    (finalize s C E sticky).k = .finite ∨ (finalize s C E sticky).k = .infinity := by
  unfold finalize fitExponent
  split_ifs <;> simp

/-- The sign `finalize` returns is the one it was given. -/
@[simp] theorem finalize_sign (s : Bool) (C : Nat) (E : Int) (sticky : Bool) : (finalize s C E sticky).s = s := by
  unfold finalize fitExponent
  split_ifs <;> rfl

end Sys2Proof.Machine
end

