-- ==== Sys2Proof/Laws/Codec.lean ====
section
/-!
SUPPORT. Words and bus values as numbers: what `field` reads, and the numbers `bidPack` and `toBus` write
(30_encoding.md R61 to R71; 40_codec.md R87).
-/

namespace Sys2Proof.Machine

/-- Concatenation as a number (R8). -/
theorem toNat_concat {m n : Nat} (x : BitVec m) (y : BitVec n) :
    (x ++ y).toNat = x.toNat * 2 ^ n + y.toNat := by
  rw [BitVec.toNat_append, Nat.shiftLeft_eq, Nat.mul_comm, Nat.two_pow_add_eq_or_of_lt y.isLt]

/-- A bit as a number. -/
theorem toNat_ofBool (b : Bool) : (BitVec.ofBool b).toNat = if b then 1 else 0 := by
  cases b <;> rfl

/-- A non-negative integer that fits a field is stored as itself. -/
theorem toNat_ofInt_of_lt {n : Nat} {v : Int} (h0 : 0 ≤ v) (h : v < 2 ^ n) : ((BitVec.ofInt n v).toNat : Int) = v := by
  rw [BitVec.toNat_ofInt, Int.toNat_of_nonneg (Int.emod_nonneg _ (by positivity))]
  exact Int.emod_eq_of_lt h0 (by exact_mod_cast h)

/-- The number a finite in-range value is packed into: sign, stored exponent, significand, in form 1 or form 2 (R87). -/
theorem bidPack_finite_toNat {x : LD} (hk : x.k = .finite) (hx : x.inRange = true) :
    (bidPack x).toNat =
      (if x.s then 2 ^ 63 else 0) +
        (if x.c < 2 ^ 53 then (x.e + bias).toNat * 2 ^ 53 + x.c
        else 3 * 2 ^ 61 + (x.e + bias).toNat * 2 ^ 51 + (x.c - 2 ^ 53)) := by
  simp only [LD.inRange, hk, Bool.and_eq_true, decide_eq_true_eq, cmax, emin, emax] at hx
  have he : (BitVec.ofInt 10 (x.e + bias)).toNat = (x.e + bias).toNat := by
    have := toNat_ofInt_of_lt (n := 10) (v := x.e + bias) (by simp only [bias]; omega) (by simp only [bias]; omega)
    omega
  unfold bidPack
  rw [hk]
  dsimp only
  split
  · rw [toNat_concat, toNat_concat, toNat_ofBool, he, BitVec.toNat_ofNat, Nat.mod_eq_of_lt (by omega)]
    split <;> omega
  · rw [toNat_concat, toNat_concat, toNat_concat, toNat_ofBool, he, BitVec.toNat_ofNat, Nat.mod_eq_of_lt (by omega)]
    simp only [BitVec.toNat_ofNat]
    split <;> omega

/-- The words of the values that are not finite (R69, R87). -/
theorem bidPack_special (s : Bool) (c : Nat) (e : Int) :
    bidPack ⟨s, .infinity, c, e⟩ = (if s then 0xF800000000000000 else 0x7800000000000000) ∧
    bidPack ⟨s, .quietNaN, c, e⟩ = (if s then 0xFC00000000000000 else 0x7C00000000000000) ∧
    bidPack ⟨s, .signalingNaN, c, e⟩ = (if s then 0xFE00000000000000 else 0x7E00000000000000) := by
  cases s <;> simp [bidPack]

/-- The decoder's class is the classifier's (R192). -/
theorem bidDecode_class (w : Word) : (bidDecode w).k = classify w := by
  unfold bidDecode finiteOfFields
  split
  all_goals first
    | (rename_i h; exact h.symm)
    | (rename_i h; rw [h]; split <;> rfl)

/-- The bus carries every field of a value that fits it (R70). -/
theorem toBus_toNat {x : LD} (hx : x.onBus = true) :
    (toBus x).toNat = (if x.s then 2 ^ 72 else 0) + (classCode x.k).toNat * 2 ^ 70 + x.c * 2 ^ 16 + (x.e % 2 ^ 16).toNat := by
  simp only [LD.onBus, Bool.and_eq_true, decide_eq_true_eq] at hx
  unfold toBus
  rw [toNat_concat, toNat_concat, toNat_concat, toNat_ofBool, BitVec.toNat_ofNat, Nat.mod_eq_of_lt hx.1.1,
    BitVec.toNat_ofInt]
  split <;> omega

end Sys2Proof.Machine
end

