-- ==== Sys2Proof/Laws/Arithmetic.lean ====
section
/-!
SUPPORT. The divider: its scale, its 17-digit quotient, and that it keeps the precondition of `finalize`
(43_rounding_alignment.md R143; 44_arithmetic.md R171, R173).
-/

namespace Sys2Proof.Machine

/-- If the last scale tried is large enough, the scale found is, and no smaller one from `j` on is. -/
theorem leastScale_spec {c d fuel j : Nat} (h : 10 ^ 16 ≤ c * 10 ^ (j + fuel) / d) :
    10 ^ 16 ≤ c * 10 ^ leastScale c d fuel j / d ∧ j ≤ leastScale c d fuel j ∧ leastScale c d fuel j ≤ j + fuel ∧
      ∀ k, j ≤ k → k < leastScale c d fuel j → c * 10 ^ k / d < 10 ^ 16 := by
  induction fuel generalizing j with
  | zero => exact ⟨h, le_rfl, le_rfl, fun k h1 h2 => absurd h2 (by simp only [leastScale]; omega)⟩
  | succ fuel ih =>
    unfold leastScale
    split
    · rename_i hj
      exact ⟨hj, le_rfl, by omega, fun k h1 h2 => absurd h2 (by omega)⟩
    · rename_i hj
      obtain ⟨h1, h2, h3, h4⟩ := ih (j := j + 1) (by rwa [Nat.add_assoc, Nat.add_comm 1 fuel])
      refine ⟨h1, by omega, by omega, fun k hk hk' => ?_⟩
      rcases Nat.lt_or_ge j k with hjk | hjk
      · exact h4 k hjk hk'
      · obtain rfl : k = j := by omega
        omega

/-- Scaled by `10^32`, a nonzero dividend is large enough for any in-range divisor (R171). -/
theorem scale_suffices {c d : Nat} (hc : c ≠ 0) (hd0 : d ≠ 0) (hd : d ≤ cmax) : 10 ^ 16 ≤ c * 10 ^ 32 / d := by
  rw [Nat.le_div_iff_mul_le (by omega)]
  calc 10 ^ 16 * d ≤ 10 ^ 16 * cmax := Nat.mul_le_mul_left _ hd
    _ ≤ 1 * 10 ^ 32 := by norm_num
    _ ≤ c * 10 ^ 32 := Nat.mul_le_mul_right _ (by omega)

/-- The divider's call of the rounding engine keeps its precondition, so the division of in-range significands never
faults (R143, R173). -/
theorem divInexact_ok {s : Bool} {c d : Nat} {pe : Int} (hc : c ≠ 0) (hd0 : d ≠ 0) (hd : d ≤ cmax) :
    divInexact s c d pe =
      .ok (finalize s (c * 10 ^ leastScale c d 31 1 / d) (pe - leastScale c d 31 1)
        (decide (c * 10 ^ leastScale c d 31 1 % d ≠ 0))) := by
  have h := (leastScale_spec (j := 1) (fuel := 31) (scale_suffices hc hd0 hd)).1
  unfold divInexact divAtScale finalizeChecked
  rw [if_neg]
  rintro ⟨-, h17⟩
  have := (ndig_le_iff (n := c * 10 ^ leastScale c d 31 1 / d) (j := 16) (by decide)).1 (Nat.lt_succ_iff.1 h17)
  omega

/-- A quotient the exact path finds is exact, within CMAX, and at the least scale from `j` on (R172). -/
theorem exactQuotient_some {c d fuel j q k : Nat} (h : exactQuotient c d fuel j = some (q, k)) :
    q = c * 10 ^ k / d ∧ c * 10 ^ k % d = 0 ∧ q ≤ cmax ∧ j ≤ k ∧
      ∀ i, j ≤ i → i < k → c * 10 ^ i % d ≠ 0 := by
  induction fuel generalizing j with
  | zero => simp [exactQuotient] at h
  | succ fuel ih =>
    unfold exactQuotient at h
    split at h
    · cases h
    · split at h
      · rename_i hq hr
        obtain ⟨rfl, rfl⟩ := Prod.mk.inj (Option.some.inj h)
        exact ⟨rfl, hr, by omega, le_rfl, fun i h1 h2 => absurd h2 (by omega)⟩
      · rename_i hq hr
        obtain ⟨h1, h2, h3, h4, h5⟩ := ih h
        refine ⟨h1, h2, h3, by omega, fun i hi hik => ?_⟩
        rcases Nat.lt_or_ge j i with hji | hji
        · exact h5 i hji hik
        · obtain rfl : i = j := by omega
          exact hr

end Sys2Proof.Machine
end

