-- ==== Sys2Proof/Laws/State.lean ====
section
/-!
SUPPORT. One lemma per field and update of the state, so that no later proof unfolds a record update.
-/

namespace Sys2Proof.Machine

/-! ### Driving a response -/

@[simp] theorem State.drive_cfg (s : State) (r : Response) : (s.drive r).cfg = s.cfg := by cases r <;> rfl
@[simp] theorem State.drive_op (s : State) (r : Response) : (s.drive r).op = s.op := by cases r <;> rfl
@[simp] theorem State.drive_a (s : State) (r : Response) : (s.drive r).a = s.a := by cases r <;> rfl
@[simp] theorem State.drive_b (s : State) (r : Response) : (s.drive r).b = s.b := by cases r <;> rfl
@[simp] theorem State.drive_lin (s : State) (r : Response) : (s.drive r).lin = s.lin := by cases r <;> rfl
@[simp] theorem State.drive_tin (s : State) (r : Response) : (s.drive r).tin = s.tin := by cases r <;> rfl
@[simp] theorem State.drive_pending (s : State) (r : Response) : (s.drive r).pending = s.pending := by cases r <;> rfl
@[simp] theorem State.drive_inbox (s : State) (r : Response) : (s.drive r).inbox = s.inbox := by cases r <;> rfl
@[simp] theorem State.drive_answers (s : State) (r : Response) : (s.drive r).answers = s.answers := by cases r <;> rfl
@[simp] theorem State.drive_lastRead (s : State) (r : Response) : (s.drive r).lastRead = s.lastRead := by cases r <;> rfl
@[simp] theorem State.drive_refusals (s : State) (r : Response) : (s.drive r).refusals = s.refusals := by cases r <;> rfl
@[simp] theorem State.drive_res_res (s : State) (w : Word) : (s.drive (.res w)).res = some w := rfl
@[simp] theorem State.drive_res_lres (s : State) (w : Word) : (s.drive (.res w)).lres = none := rfl
@[simp] theorem State.drive_res_tout (s : State) (w : Word) : (s.drive (.res w)).tout = none := rfl
@[simp] theorem State.drive_res_flag (s : State) (w : Word) : (s.drive (.res w)).flag = none := rfl
@[simp] theorem State.drive_lres_res (s : State) (v : Bus) : (s.drive (.lres v)).res = none := rfl
@[simp] theorem State.drive_lres_lres (s : State) (v : Bus) : (s.drive (.lres v)).lres = some v := rfl
@[simp] theorem State.drive_lres_tout (s : State) (v : Bus) : (s.drive (.lres v)).tout = none := rfl
@[simp] theorem State.drive_lres_flag (s : State) (v : Bus) : (s.drive (.lres v)).flag = none := rfl
@[simp] theorem State.drive_tout_res (s : State) (t : List Byte) : (s.drive (.tout t)).res = none := rfl
@[simp] theorem State.drive_tout_lres (s : State) (t : List Byte) : (s.drive (.tout t)).lres = none := rfl
@[simp] theorem State.drive_tout_tout (s : State) (t : List Byte) : (s.drive (.tout t)).tout = some t := rfl
@[simp] theorem State.drive_tout_flag (s : State) (t : List Byte) : (s.drive (.tout t)).flag = none := rfl
@[simp] theorem State.drive_flag_res (s : State) (f : BitVec 1) : (s.drive (.flag f)).res = none := rfl
@[simp] theorem State.drive_flag_lres (s : State) (f : BitVec 1) : (s.drive (.flag f)).lres = none := rfl
@[simp] theorem State.drive_flag_tout (s : State) (f : BitVec 1) : (s.drive (.flag f)).tout = none := rfl
@[simp] theorem State.drive_flag_flag (s : State) (f : BitVec 1) : (s.drive (.flag f)).flag = some f := rfl

/-! ### Presenting a request -/

@[simp] theorem State.present_cfg (s : State) (r : Request) : (s.present r).cfg = s.cfg := rfl
@[simp] theorem State.present_op (s : State) (r : Request) : (s.present r).op = r.op := rfl
@[simp] theorem State.present_a (s : State) (r : Request) : (s.present r).a = r.a := rfl
@[simp] theorem State.present_b (s : State) (r : Request) : (s.present r).b = r.b := rfl
@[simp] theorem State.present_lin (s : State) (r : Request) : (s.present r).lin = r.lin := rfl
@[simp] theorem State.present_tin (s : State) (r : Request) : (s.present r).tin = r.tin := rfl
@[simp] theorem State.present_res (s : State) (r : Request) : (s.present r).res = s.res := rfl
@[simp] theorem State.present_lres (s : State) (r : Request) : (s.present r).lres = s.lres := rfl
@[simp] theorem State.present_tout (s : State) (r : Request) : (s.present r).tout = s.tout := rfl
@[simp] theorem State.present_flag (s : State) (r : Request) : (s.present r).flag = s.flag := rfl
@[simp] theorem State.present_pending (s : State) (r : Request) : (s.present r).pending = s.pending := rfl
@[simp] theorem State.present_inbox (s : State) (r : Request) : (s.present r).inbox = s.inbox := rfl
@[simp] theorem State.present_answers (s : State) (r : Request) : (s.present r).answers = s.answers := rfl
@[simp] theorem State.present_lastRead (s : State) (r : Request) : (s.present r).lastRead = s.lastRead := rfl
@[simp] theorem State.present_refusals (s : State) (r : Request) : (s.present r).refusals = s.refusals := rfl

/-! ### Accepting a request -/

@[simp] theorem State.accept_cfg (s : State) (p : Pending) : (s.accept p).cfg = s.cfg := rfl
@[simp] theorem State.accept_op (s : State) (p : Pending) : (s.accept p).op = s.op := rfl
@[simp] theorem State.accept_a (s : State) (p : Pending) : (s.accept p).a = s.a := rfl
@[simp] theorem State.accept_b (s : State) (p : Pending) : (s.accept p).b = s.b := rfl
@[simp] theorem State.accept_lin (s : State) (p : Pending) : (s.accept p).lin = s.lin := rfl
@[simp] theorem State.accept_tin (s : State) (p : Pending) : (s.accept p).tin = s.tin := rfl
@[simp] theorem State.accept_res (s : State) (p : Pending) : (s.accept p).res = s.res := rfl
@[simp] theorem State.accept_lres (s : State) (p : Pending) : (s.accept p).lres = s.lres := rfl
@[simp] theorem State.accept_tout (s : State) (p : Pending) : (s.accept p).tout = s.tout := rfl
@[simp] theorem State.accept_flag (s : State) (p : Pending) : (s.accept p).flag = s.flag := rfl
@[simp] theorem State.accept_pending (s : State) (p : Pending) : (s.accept p).pending = s.pending ++ [p] := rfl
@[simp] theorem State.accept_inbox (s : State) (p : Pending) : (s.accept p).inbox = s.inbox := rfl
@[simp] theorem State.accept_answers (s : State) (p : Pending) : (s.accept p).answers = s.answers := rfl
@[simp] theorem State.accept_lastRead (s : State) (p : Pending) : (s.accept p).lastRead = s.lastRead := rfl
@[simp] theorem State.accept_refusals (s : State) (p : Pending) : (s.accept p).refusals = s.refusals := rfl

/-! ### Recording a refusal -/

@[simp] theorem State.refuse_cfg (s : State) (n : Option Name) (r : Refusal) : (s.refuse n r).cfg = s.cfg := rfl
@[simp] theorem State.refuse_op (s : State) (n : Option Name) (r : Refusal) : (s.refuse n r).op = s.op := rfl
@[simp] theorem State.refuse_a (s : State) (n : Option Name) (r : Refusal) : (s.refuse n r).a = s.a := rfl
@[simp] theorem State.refuse_b (s : State) (n : Option Name) (r : Refusal) : (s.refuse n r).b = s.b := rfl
@[simp] theorem State.refuse_lin (s : State) (n : Option Name) (r : Refusal) : (s.refuse n r).lin = s.lin := rfl
@[simp] theorem State.refuse_tin (s : State) (n : Option Name) (r : Refusal) : (s.refuse n r).tin = s.tin := rfl
@[simp] theorem State.refuse_res (s : State) (n : Option Name) (r : Refusal) : (s.refuse n r).res = s.res := rfl
@[simp] theorem State.refuse_lres (s : State) (n : Option Name) (r : Refusal) : (s.refuse n r).lres = s.lres := rfl
@[simp] theorem State.refuse_tout (s : State) (n : Option Name) (r : Refusal) : (s.refuse n r).tout = s.tout := rfl
@[simp] theorem State.refuse_flag (s : State) (n : Option Name) (r : Refusal) : (s.refuse n r).flag = s.flag := rfl
@[simp] theorem State.refuse_pending (s : State) (n : Option Name) (r : Refusal) : (s.refuse n r).pending = s.pending := rfl
@[simp] theorem State.refuse_inbox (s : State) (n : Option Name) (r : Refusal) : (s.refuse n r).inbox = s.inbox := rfl
@[simp] theorem State.refuse_answers (s : State) (n : Option Name) (r : Refusal) : (s.refuse n r).answers = s.answers := rfl
@[simp] theorem State.refuse_lastRead (s : State) (n : Option Name) (r : Refusal) : (s.refuse n r).lastRead = s.lastRead := rfl
@[simp] theorem State.refuse_refusals (s : State) (n : Option Name) (r : Refusal) :
    (s.refuse n r).refusals = s.refusals ++ [⟨n, r⟩] := rfl

/-! ### Issuing a request -/

@[simp] theorem State.submit_cfg (s : State) (p : Pending) : (s.submit p).cfg = s.cfg := by
  unfold State.submit; split <;> rfl
@[simp] theorem State.submit_op (s : State) (p : Pending) : (s.submit p).op = s.op := by
  unfold State.submit; split <;> rfl
@[simp] theorem State.submit_a (s : State) (p : Pending) : (s.submit p).a = s.a := by
  unfold State.submit; split <;> rfl
@[simp] theorem State.submit_b (s : State) (p : Pending) : (s.submit p).b = s.b := by
  unfold State.submit; split <;> rfl
@[simp] theorem State.submit_lin (s : State) (p : Pending) : (s.submit p).lin = s.lin := by
  unfold State.submit; split <;> rfl
@[simp] theorem State.submit_tin (s : State) (p : Pending) : (s.submit p).tin = s.tin := by
  unfold State.submit; split <;> rfl
@[simp] theorem State.submit_res (s : State) (p : Pending) : (s.submit p).res = s.res := by
  unfold State.submit; split <;> rfl
@[simp] theorem State.submit_lres (s : State) (p : Pending) : (s.submit p).lres = s.lres := by
  unfold State.submit; split <;> rfl
@[simp] theorem State.submit_tout (s : State) (p : Pending) : (s.submit p).tout = s.tout := by
  unfold State.submit; split <;> rfl
@[simp] theorem State.submit_flag (s : State) (p : Pending) : (s.submit p).flag = s.flag := by
  unfold State.submit; split <;> rfl
@[simp] theorem State.submit_inbox (s : State) (p : Pending) : (s.submit p).inbox = s.inbox := by
  unfold State.submit; split <;> rfl
@[simp] theorem State.submit_answers (s : State) (p : Pending) : (s.submit p).answers = s.answers := by
  unfold State.submit; split <;> rfl
@[simp] theorem State.submit_lastRead (s : State) (p : Pending) : (s.submit p).lastRead = s.lastRead := by
  unfold State.submit; split <;> rfl

/-- Issuing a request that is not refused makes it the youngest outstanding one. -/
theorem State.submit_accept {s : State} {p : Pending} (h : refusalOf s.cfg p.req = none) : s.submit p = s.accept p := by
  simp [State.submit, h]

/-- Issuing a request that is refused records the refusal. -/
theorem State.submit_refuse {s : State} {p : Pending} {r : Refusal} (h : refusalOf s.cfg p.req = some r) :
    s.submit p = s.refuse p.name r := by
  simp [State.submit, h]

/-! ### Reset of the CORE -/

@[simp] theorem State.resetCore_cfg (s : State) : s.resetCore.cfg = s.cfg := rfl
@[simp] theorem State.resetCore_op (s : State) : s.resetCore.op = s.op := rfl
@[simp] theorem State.resetCore_a (s : State) : s.resetCore.a = s.a := rfl
@[simp] theorem State.resetCore_b (s : State) : s.resetCore.b = s.b := rfl
@[simp] theorem State.resetCore_lin (s : State) : s.resetCore.lin = s.lin := rfl
@[simp] theorem State.resetCore_tin (s : State) : s.resetCore.tin = s.tin := rfl
@[simp] theorem State.resetCore_res (s : State) : s.resetCore.res = none := rfl
@[simp] theorem State.resetCore_lres (s : State) : s.resetCore.lres = none := rfl
@[simp] theorem State.resetCore_tout (s : State) : s.resetCore.tout = none := rfl
@[simp] theorem State.resetCore_flag (s : State) : s.resetCore.flag = none := rfl
@[simp] theorem State.resetCore_pending (s : State) : s.resetCore.pending = [] := rfl
@[simp] theorem State.resetCore_inbox (s : State) : s.resetCore.inbox = s.inbox := rfl
@[simp] theorem State.resetCore_answers (s : State) : s.resetCore.answers = s.answers := rfl
@[simp] theorem State.resetCore_lastRead (s : State) : s.resetCore.lastRead = s.lastRead := rfl
@[simp] theorem State.resetCore_refusals (s : State) : s.resetCore.refusals = s.refusals := rfl

/-! ### Placing a request for the next step -/

@[simp] theorem State.placeRequest_cfg (s : State) (r : Request) : (s.placeRequest r).cfg = s.cfg := rfl
@[simp] theorem State.placeRequest_op (s : State) (r : Request) : (s.placeRequest r).op = s.op := rfl
@[simp] theorem State.placeRequest_a (s : State) (r : Request) : (s.placeRequest r).a = s.a := rfl
@[simp] theorem State.placeRequest_b (s : State) (r : Request) : (s.placeRequest r).b = s.b := rfl
@[simp] theorem State.placeRequest_lin (s : State) (r : Request) : (s.placeRequest r).lin = s.lin := rfl
@[simp] theorem State.placeRequest_tin (s : State) (r : Request) : (s.placeRequest r).tin = s.tin := rfl
@[simp] theorem State.placeRequest_res (s : State) (r : Request) : (s.placeRequest r).res = s.res := rfl
@[simp] theorem State.placeRequest_lres (s : State) (r : Request) : (s.placeRequest r).lres = s.lres := rfl
@[simp] theorem State.placeRequest_tout (s : State) (r : Request) : (s.placeRequest r).tout = s.tout := rfl
@[simp] theorem State.placeRequest_flag (s : State) (r : Request) : (s.placeRequest r).flag = s.flag := rfl
@[simp] theorem State.placeRequest_pending (s : State) (r : Request) : (s.placeRequest r).pending = ⟨none, r⟩ :: s.pending := rfl
@[simp] theorem State.placeRequest_inbox (s : State) (r : Request) : (s.placeRequest r).inbox = .await :: s.inbox := rfl
@[simp] theorem State.placeRequest_answers (s : State) (r : Request) : (s.placeRequest r).answers = s.answers := rfl
@[simp] theorem State.placeRequest_lastRead (s : State) (r : Request) : (s.placeRequest r).lastRead = s.lastRead := rfl
@[simp] theorem State.placeRequest_refusals (s : State) (r : Request) : (s.placeRequest r).refusals = s.refusals := rfl

/-! ### Loading a program -/

@[simp] theorem State.load_cfg (s : State) (p : Program) : (s.load p).cfg = s.cfg := rfl
@[simp] theorem State.load_op (s : State) (p : Program) : (s.load p).op = s.op := rfl
@[simp] theorem State.load_a (s : State) (p : Program) : (s.load p).a = s.a := rfl
@[simp] theorem State.load_b (s : State) (p : Program) : (s.load p).b = s.b := rfl
@[simp] theorem State.load_lin (s : State) (p : Program) : (s.load p).lin = s.lin := rfl
@[simp] theorem State.load_tin (s : State) (p : Program) : (s.load p).tin = s.tin := rfl
@[simp] theorem State.load_res (s : State) (p : Program) : (s.load p).res = s.res := rfl
@[simp] theorem State.load_lres (s : State) (p : Program) : (s.load p).lres = s.lres := rfl
@[simp] theorem State.load_tout (s : State) (p : Program) : (s.load p).tout = s.tout := rfl
@[simp] theorem State.load_flag (s : State) (p : Program) : (s.load p).flag = s.flag := rfl
@[simp] theorem State.load_pending (s : State) (p : Program) : (s.load p).pending = s.pending := rfl
@[simp] theorem State.load_inbox (s : State) (p : Program) : (s.load p).inbox = p.map .issue := rfl
@[simp] theorem State.load_answers (s : State) (p : Program) : (s.load p).answers = [] := rfl
@[simp] theorem State.load_lastRead (s : State) (p : Program) : (s.load p).lastRead = s.lastRead := rfl
@[simp] theorem State.load_refusals (s : State) (p : Program) : (s.load p).refusals = [] := rfl

/-! ### Collecting a response -/

@[simp] theorem collect_cfg (n : Option Name) (s : State) : (collect n s).cfg = s.cfg := by
  unfold collect; split <;> rfl
@[simp] theorem collect_op (n : Option Name) (s : State) : (collect n s).op = s.op := by
  unfold collect; split <;> rfl
@[simp] theorem collect_a (n : Option Name) (s : State) : (collect n s).a = s.a := by
  unfold collect; split <;> rfl
@[simp] theorem collect_b (n : Option Name) (s : State) : (collect n s).b = s.b := by
  unfold collect; split <;> rfl
@[simp] theorem collect_lin (n : Option Name) (s : State) : (collect n s).lin = s.lin := by
  unfold collect; split <;> rfl
@[simp] theorem collect_tin (n : Option Name) (s : State) : (collect n s).tin = s.tin := by
  unfold collect; split <;> rfl
@[simp] theorem collect_res (n : Option Name) (s : State) : (collect n s).res = s.res := by
  unfold collect; split <;> rfl
@[simp] theorem collect_lres (n : Option Name) (s : State) : (collect n s).lres = s.lres := by
  unfold collect; split <;> rfl
@[simp] theorem collect_tout (n : Option Name) (s : State) : (collect n s).tout = s.tout := by
  unfold collect; split <;> rfl
@[simp] theorem collect_flag (n : Option Name) (s : State) : (collect n s).flag = s.flag := by
  unfold collect; split <;> rfl
@[simp] theorem collect_pending (n : Option Name) (s : State) : (collect n s).pending = s.pending := by
  unfold collect; split <;> rfl
@[simp] theorem collect_inbox (n : Option Name) (s : State) : (collect n s).inbox = s.inbox := by
  unfold collect; split <;> rfl
@[simp] theorem collect_lastRead (n : Option Name) (s : State) : (collect n s).lastRead = s.lastRead := by
  unfold collect; split <;> rfl
@[simp] theorem collect_refusals (n : Option Name) (s : State) : (collect n s).refusals = s.refusals := by
  unfold collect; split <;> rfl

/-- The driven response is the one the host collects. -/
@[simp] theorem State.drive_response? (s : State) (r : Response) : (s.drive r).response? = some r := by
  cases r <;> rfl

/-- Collecting after a response has been driven adds exactly that response, under the name. -/
theorem collect_drive (n : Option Name) (s : State) (r : Response) :
    collect n (s.drive r) = { s.drive r with answers := s.answers ++ [⟨n, r⟩] } := by
  simp [collect]

end Sys2Proof.Machine
end

