-- ==== Sys2Proof/Laws/Exec.lean ====
section
/-!
SUPPORT. What an operation can do, said once: answer with one driven response and change nothing else, refuse, or
fault (10_state.md R35; 30_encoding.md R58; 20_memory.md R44).
-/

namespace Sys2Proof.Machine

/-- Every operation that answers drives one response and does nothing else (R17, R28, R35). -/
theorem exec_next {i : Instr} {s t : State} (h : exec i s = .next t) : ∃ r, t = s.drive r := by
  cases i with
  | decode => exact ⟨_, (Host.Outcome.next.inj h).symm⟩
  | encode => exact ⟨_, (Host.Outcome.next.inj h).symm⟩
  | parse =>
    simp only [exec, execParse] at h
    split at h
    · cases h
    · exact ⟨_, (Host.Outcome.next.inj h).symm⟩
  | format => exact ⟨_, (Host.Outcome.next.inj h).symm⟩
  | decodeFromBid => exact ⟨_, (Host.Outcome.next.inj h).symm⟩
  | encodeToBid => exact ⟨_, (Host.Outcome.next.inj h).symm⟩
  | isnan => exact ⟨_, (Host.Outcome.next.inj h).symm⟩
  | reservedSeven => cases h
  | add => exact ⟨_, (Host.Outcome.next.inj h).symm⟩
  | sub => exact ⟨_, (Host.Outcome.next.inj h).symm⟩
  | mul => exact ⟨_, (Host.Outcome.next.inj h).symm⟩
  | div =>
    simp only [exec, execDiv] at h
    split at h
    · exact ⟨_, (Host.Outcome.next.inj h).symm⟩
    · cases h
  | reservedHigh low => cases h

/-- The fields no operation writes. -/
theorem exec_next_frame {i : Instr} {s t : State} (h : exec i s = .next t) :
    t.cfg = s.cfg ∧ t.ports = s.ports ∧ t.pending = s.pending ∧ t.inbox = s.inbox ∧ t.answers = s.answers ∧
      t.refusals = s.refusals ∧ t.lastRead = s.lastRead := by
  obtain ⟨r, rfl⟩ := exec_next h
  simp [State.ports]

/-- An operation refuses exactly the requests that issuing refuses, for the same reason (R44, R58). -/
theorem exec_refused_iff {s : State} {r : Refusal} :
    exec (decodeOp s.op) s = .refused r ↔ refusalOf s.cfg s.ports = some r := by
  have reserved : ∀ code : OpCode, (decodeOp code).wf = false →
      (decodeOp code = .reservedSeven ∧ encodeOp .reservedSeven = code) ∨
        ∃ low, decodeOp code = .reservedHigh low ∧ encodeOp (.reservedHigh low) = code := by decide
  change _ ↔ (if (decodeOp s.op).wf = false then some (.reservedOp s.op)
    else if decodeOp s.op = .parse ∧ s.cfg.textMax < s.tin.length then some .textTooLong else none) = some r
  by_cases h : (decodeOp s.op).wf = false
  · rw [if_pos h]
    rcases reserved s.op h with ⟨h1, h2⟩ | ⟨low, h1, h2⟩
    · simp [h1, exec, execReservedSeven, refuseReserved, h2]
    · simp [h1, exec, execReservedHigh, refuseReserved, h2]
  · rw [if_neg h]
    cases hi : decodeOp s.op with
    | parse => by_cases hl : s.cfg.textMax < s.tin.length <;> simp [exec, execParse, hl]
    | div => simp only [exec, execDiv]; split <;> simp
    | reservedSeven => simp [hi, Instr.wf] at h
    | reservedHigh low => simp [hi, Instr.wf] at h
    | _ => simp [exec, execDecode, execEncode, execFormat, execDecodeFromBid, execEncodeToBid, execIsnan, execAdd, execSub,
        execMul]

end Sys2Proof.Machine
end

