-- ==== Sys2Proof/Laws/Operands.lean ====
section
/-!
SUPPORT. A host that serialises a word and reads it back in the same order has the word (20_memory.md R42).
-/

namespace Sys2Proof.Machine

theorem wordOfBytes_wordBytes (w : Word) : wordOfBytes (wordBytes w) = w := by
  apply BitVec.eq_of_toNat_eq
  have := w.isLt
  simp [wordOfBytes, wordBytes, List.range, List.range.loop, Nat.shiftRight_eq_div_pow]
  omega

/-- Reading back undoes serialising, in either byte order. -/
theorem deserialise_serialise (o : ByteOrder) (w : Word) : deserialise o (serialise o w) = w := by
  cases o <;> simp [serialise, deserialise, wordOfBytes_wordBytes]

end Sys2Proof.Machine
end

