-- ==== Sys2Proof/Laws/PerInstr.lean ====
section
/-!
SUPPORT. Statements made per instruction, one lemma per constructor (30_encoding.md R56, R57).
-/

namespace Sys2Proof.Laws.Encoding

/-- The instruction's code decodes to it, as a port value and as the byte a host writes. -/
def Statement (i : Instr) : Prop := decodeOp (encodeOp i) = i ∧ decodeBytes [encodeByte i] = .ok i

theorem decode : Statement .decode := ⟨rfl, rfl⟩
theorem encode : Statement .encode := ⟨rfl, rfl⟩
theorem parse : Statement .parse := ⟨rfl, rfl⟩
theorem format : Statement .format := ⟨rfl, rfl⟩
theorem decodeFromBid : Statement .decodeFromBid := ⟨rfl, rfl⟩
theorem encodeToBid : Statement .encodeToBid := ⟨rfl, rfl⟩
theorem isnan : Statement .isnan := ⟨rfl, rfl⟩
theorem reservedSeven : Statement .reservedSeven := ⟨rfl, rfl⟩
theorem add : Statement .add := ⟨rfl, rfl⟩
theorem sub : Statement .sub := ⟨rfl, rfl⟩
theorem mul : Statement .mul := ⟨rfl, rfl⟩
theorem div : Statement .div := ⟨rfl, rfl⟩
theorem reservedHigh (low : BitVec 2) : Statement (.reservedHigh low) := by
  revert low
  unfold Statement
  decide

end Sys2Proof.Laws.Encoding
end

