-- ==== Sys2Proof/Laws/Step.lean ====
section
/-!
SUPPORT. What a step can do, said once: the host moves, or the CORE answers the oldest outstanding request
(70_reset_and_hazards.md R226, R231).
-/

namespace Sys2Proof.Machine

/-- Serving the oldest request of a state: either nothing is outstanding, or the next one is taken off and presented. -/
theorem serveOldest_cases (s : State) :
    (s.pending = [] ∧ serveOldest s = .done (.next s)) ∨
    ∃ p rest, s.pending = p :: rest ∧ serveOldest s = .serve p ({ s with pending := rest }.present p.req) := by
  unfold serveOldest
  split
  · exact .inl ⟨‹_›, rfl⟩
  · exact .inr ⟨_, _, ‹_›, rfl⟩

/-- A request the CORE serves is the oldest outstanding one, and the state it is served in differs from the state before in
the outstanding requests, the request ports and the host's moves only. -/
theorem nextMove_serve {s t : State} {p : Pending} (h : nextMove s = .serve p t) :
    ∃ rest inbox, s.pending = p :: rest ∧ t = { s with pending := rest, inbox := inbox }.present p.req := by
  have base : ∀ u : State, serveOldest u = .serve p t →
      ∃ rest, u.pending = p :: rest ∧ t = { u with pending := rest }.present p.req := by
    intro u hu
    rcases serveOldest_cases u with ⟨-, h1⟩ | ⟨p', rest, h1, h2⟩
    · rw [h1] at hu; cases hu
    · rw [h2] at hu; cases hu
      exact ⟨rest, h1, rfl⟩
  unfold nextMove at h
  split at h
  · obtain ⟨rest, h1, h2⟩ := base s h
    exact ⟨rest, s.inbox, h1, h2⟩
  · unfold issueLine at h
    split at h <;> split at h
    all_goals
      first
        | cases h
        | obtain ⟨rest, h1, h2⟩ := base s h
          exact ⟨rest, s.inbox, h1, h2⟩
  · cases h
  · rename_i inbox _
    obtain ⟨rest, h1, h2⟩ := base _ h
    exact ⟨rest, inbox, h1, h2⟩
  · unfold hostRead at h
    split at h <;> cases h
  · cases h

/-- What serving a request does: the response of its operation is driven and collected, or its refusal is recorded. -/
theorem step_serve {s t u : State} {p : Pending} (h : nextMove s = .serve p t) (hs : step s = .next u) :
    (∃ r, exec (decodeOp p.req.op) t = .next (t.drive r) ∧
      u = { t.drive r with answers := t.answers ++ [⟨p.name, r⟩] }) ∨
    ∃ r, exec (decodeOp p.req.op) t = .refused r ∧ u = t.refuse p.name r := by
  obtain ⟨rest, inbox, -, rfl⟩ := nextMove_serve h
  unfold step at hs
  rw [h] at hs
  dsimp only [State.present] at hs ⊢
  split at hs
  · rename_i v hv
    obtain ⟨r, rfl⟩ := exec_next hv
    cases hs
    exact .inl ⟨r, hv, collect_drive ..⟩
  · cases hs
  · rename_i r hr
    cases hs
    exact .inr ⟨r, hr, rfl⟩

end Sys2Proof.Machine
end

