-- ==== Sys2Proof/Tests/Slice0.lean ====
section
/-!
SUPPORT. Tests. Expected values are the spec's own: the OP codes of 30_encoding.md R56, the worked words of R73 and the
examples and vectors of 95_test_vectors.md, named beside each test. The second half gives, for every statement with
hypotheses, a state and operands that meet them.
-/

namespace Sys2Proof.Tests

open Sys2Proof.Machine

/-! ### Well-formedness: an ill-formed term for each check -/

theorem test_reserved_not_wf : Instr.reservedSeven.wf = false ∧ (Instr.reservedHigh 1).wf = false := by decide
theorem test_significand_out_of_range : (LD.mk false .finite 10000000000000000 0).inRange = false := by decide
theorem test_exponent_too_low : (LD.mk false .finite 1 (-399)).inRange = false := by decide
theorem test_exponent_too_high : (LD.mk false .finite 1 370).inRange = false := by decide
theorem test_special_with_significand : (LD.mk true .infinity 77 0).inRange = false := by decide
theorem test_special_with_exponent : (LD.mk true .quietNaN 0 (-5)).inRange = false := by decide
theorem test_bus_significand_too_wide : (LD.mk false .finite (2 ^ 54) 0).onBus = false := by decide
theorem test_bus_exponent_too_wide : (LD.mk false .finite 0 32768).onBus = false := by decide
theorem test_bus_exponent_too_low : (LD.mk false .finite 0 (-32769)).onBus = false := by decide
theorem test_line_of_reserved_code : (Line.mk none .reservedSeven []).wf [] = false := by decide
theorem test_line_missing_operand : (Line.mk none .add [.word 1]).wf [] = false := by decide
theorem test_line_wrong_operand : (Line.mk none .encode [.word 1]).wf [] = false := by decide
theorem test_line_undefined_name : (Line.mk none .format [.name 3]).wf [1, 2] = false := by decide
theorem test_line_quote_in_text : (Line.mk none .parse [.text [0x31, 0x22]]).wf [] = false := by decide
theorem test_line_feed_in_text : (Line.mk none .parse [.text [0x0A]]).wf [] = false := by decide
theorem test_line_literal_off_bus : (Line.mk none .encode [.logical ⟨false, .finite, 0, 40000⟩]).wf [] = false := by decide
/-- The response of DECODE is no word, so its name cannot be an operand (R59). -/
theorem test_program_name_of_no_word :
    Program.wf [⟨some 0, .decode, [.word 0]⟩, ⟨none, .isnan, [.name 0]⟩] = false := by decide
/-- A code is one byte with its upper four bits clear (R53; log 7). -/
theorem test_bytes_of_no_code :
    decodeBytes [] = .error .noCode ∧ decodeBytes [0x18] = .error .outsideOpPort ∧
      decodeBytes [0x08, 0x00] = .error .trailingBytes := ⟨rfl, rfl, rfl⟩

/-! ### Codes written out from R56: every constructor -/

theorem test_decode_codec_codes :
    decodeBytes [0b0000] = .ok .decode ∧ decodeBytes [0b0001] = .ok .encode ∧
      decodeBytes [0b0100] = .ok .decodeFromBid ∧ decodeBytes [0b0101] = .ok .encodeToBid := ⟨rfl, rfl, rfl, rfl⟩
theorem test_decode_text_codes :
    decodeBytes [0b0010] = .ok .parse ∧ decodeBytes [0b0011] = .ok .format := ⟨rfl, rfl⟩
theorem test_decode_classifier_code : decodeBytes [0b0110] = .ok .isnan := rfl
theorem test_decode_arithmetic_codes :
    decodeBytes [0b1000] = .ok .add ∧ decodeBytes [0b1001] = .ok .sub ∧
      decodeBytes [0b1010] = .ok .mul ∧ decodeBytes [0b1011] = .ok .div := ⟨rfl, rfl, rfl, rfl⟩
theorem test_decode_reserved_codes :
    decodeBytes [0b0111] = .ok .reservedSeven ∧ decodeBytes [0b1100] = .ok (.reservedHigh 0b00) ∧
      decodeBytes [0b1101] = .ok (.reservedHigh 0b01) ∧ decodeBytes [0b1110] = .ok (.reservedHigh 0b10) ∧
      decodeBytes [0b1111] = .ok (.reservedHigh 0b11) := ⟨rfl, rfl, rfl, rfl, rfl⟩

/-! ### One step of each operation -/

/-- The state after reset with one request outstanding. -/
def asked (op : OpCode) (a b : Word) (lin : Bus) (tin : List Byte) : State :=
  { State.reset with pending := [⟨none, ⟨op, a, b, lin, tin⟩⟩] }

/-- The state a step answers with, the state after reset where it answers none. -/
def after (s : State) : State :=
  match step s with
  | .next t => t
  | .fault _ => State.reset
  | .refused _ => State.reset

/-- DE12: the largest finite word on the bus, as 95_test_vectors.md section 2.1 lists it. -/
theorem test_decode_largest :
    (after (asked 0 0x77FB86F26FC0FFFF 0 0 [])).lres = some 0x02386F26FC0FFFF0171 := by decide
/-- DE15: a non-canonical significand reads as 0. -/
theorem test_decode_noncanonical :
    (after (asked 0 0x6BFFFFFFFFFFFFFF 0 0 [])).lres.map ofBus = some ⟨false, .finite, 0, -15⟩ := by decide
/-- EN9: `10^16` carries. -/
theorem test_encode_carry :
    (after (asked 1 0 0 (toBus ⟨false, .finite, 10000000000000000, 0⟩) [])).res = some 0x31E38D7EA4C68000 := by decide
/-- EN30: the significand and exponent of a signalling NaN are ignored. -/
theorem test_encode_signalling :
    (after (asked 1 0 0 (toBus ⟨false, .signalingNaN, 123, 4⟩) [])).res = some 0x7E00000000000000 := by decide
/-- PA1: `"12.34"`. -/
theorem test_parse_numeral :
    (after (asked 2 0 0 0 [0x31, 0x32, 0x2E, 0x33, 0x34])).res = some 0x31800000000004D2 := by decide
/-- PA49: `"1.2.3"` is malformed. -/
theorem test_parse_malformed :
    (after (asked 2 0 0 0 [0x31, 0x2E, 0x32, 0x2E, 0x33])).res = some 0x7C00000000000000 := by decide
/-- FO5: `"-1.234500000000000E+10"`. -/
theorem test_format_finite :
    (after (asked 3 0xB280000000003039 0 0 [])).tout =
      some [0x2D, 0x31, 0x2E, 0x32, 0x33, 0x34, 0x35, 0x30, 0x30, 0x30, 0x30, 0x30, 0x30, 0x30, 0x30, 0x30, 0x30, 0x30,
        0x45, 0x2B, 0x31, 0x30] := by decide
/-- FO23: a signalling NaN prints as `-nan`. -/
theorem test_format_nan : (after (asked 3 0xFE00000000000000 0 0 [])).tout = some [0x2D, 0x6E, 0x61, 0x6E] := by decide
/-- ID2: a non-canonical word passes through. -/
theorem test_decodeFromBid : (after (asked 4 0x6C7386F26FC10000 0 0 [])).res = some 0x6C7386F26FC10000 := by decide
/-- ID3: a NaN with a payload passes through. -/
theorem test_encodeToBid : (after (asked 5 0x7C00000000000123 0 0 [])).res = some 0x7C00000000000123 := by decide
/-- IN4. -/
theorem test_isnan_signalling : (after (asked 6 0xFE03FFFFFFFFFFFF 0 0 [])).flag = some 1 := by decide
/-- IN7. -/
theorem test_isnan_infinity : (after (asked 6 0x7BFFFFFFFFFFFFFF 0 0 [])).flag = some 0 := by decide
/-- AD1: 12.34 + 0.66. -/
theorem test_add : (after (asked 8 0x31800000000004D2 0x3180000000000042 0 [])).res = some 0x3180000000000514 := by decide
/-- AD11: just above a tie. -/
theorem test_add_above_tie :
    (after (asked 8 0x31C462D53C8ABABF 0x3060000BA43B7401 0 [])).res = some 0x31C462D53C8ABAC0 := by decide
/-- SB5: -0 - +0. -/
theorem test_sub_negative_zero :
    (after (asked 9 0xB1C0000000000000 0x31C0000000000000 0 [])).res = some 0xB1C0000000000000 := by decide
/-- SB12: a NaN subtrahend keeps its sign. -/
theorem test_sub_nan : (after (asked 9 0x31C0000000000001 0xFC00000000000000 0 [])).res = some 0xFC00000000000000 := by decide
/-- MU3: the largest product of 32 digits. -/
theorem test_mul_largest :
    (after (asked 10 0x6C7386F26FC0FFFF 0x6C7386F26FC0FFFF 0 [])).res = some 0x6CF386F26FC0FFFE := by decide
/-- MU13: a subnormal product. -/
theorem test_mul_subnormal :
    (after (asked 10 0x0000000000000003 0x31A0000000000005 0 [])).res = some 0x0000000000000002 := by decide
/-- DV2: 2 / 3. -/
theorem test_div_inexact :
    (after (asked 11 0x31C0000000000002 0x31C0000000000003 0 [])).res = some 0x2FD7AF4C4A80AAAB := by decide
/-- DV15: 5 / -Infinity, at the default of `DIV_BY_INF_ZERO_EXP`. -/
theorem test_div_by_infinity :
    (after (asked 11 0x31C0000000000005 0xF800000000000000 0 [])).res = some 0x8000000000000000 := by decide
/-- RF1, RF2: reserved codes are refused, and the refusal is recorded. -/
theorem test_reserved_refused :
    exec .reservedSeven State.reset = .refused (.reservedOp 7) ∧
      (after { State.reset with inbox := [.raw none ⟨7, 0, 0, 0, []⟩] }).refusals = [⟨none, .reservedOp 7⟩] ∧
      (after { State.reset with inbox := [.raw none ⟨0xE, 0, 0, 0, []⟩] }).refusals = [⟨none, .reservedOp 0xE⟩] ∧
      (after { State.reset with inbox := [.raw none ⟨0xE, 0, 0, 0, []⟩] }).pending = [] :=
  ⟨rfl, rfl, rfl, rfl⟩
/-- A refused request changes nothing for the one behind it (R50, R205): AD1 behind the code 0x7, placed together. -/
theorem test_refusal_disturbs_none :
    (after (after { asked 7 0 0 0 [] with
      pending := [⟨none, ⟨7, 0, 0, 0, []⟩⟩, ⟨none, ⟨8, 0x31800000000004D2, 0x3180000000000042, 0, []⟩⟩] })).res =
      some 0x3180000000000514 := by decide
/-- FZ16: sticky rounds away from a tie, at the bottom of the range. -/
theorem test_finalize_sticky : finalize false 50000000000000000 (-415) true = ⟨false, .finite, 1, -398⟩ := by decide
/-- FZ15: without sticky the same tie goes to 0. -/
theorem test_finalize_tie : finalize false 50000000000000000 (-415) false = ⟨false, .finite, 0, -398⟩ := by decide
/-- EN25 and the second half of S2: no bus value carries this significand (log 9), but the rounding engine gives the listed
word. -/
theorem test_finalize_s2 : bidPack (finalize true 99999999999999995 (-2) false) = 0xB1C38D7EA4C68000 := by decide

/-! ### The host -/

/-- Reading an undriven port faults (U6). -/
theorem test_read_undriven : step { State.reset with inbox := [.read .flag] } = .fault (.undrivenPort .flag) := rfl
/-- A call that breaks the precondition of `finalize` faults (U7). -/
theorem test_sticky_precondition :
    finalizeChecked false 123 0 true = .error .stickyPrecondition := rfl
/-- Line 5 of program P3: `b = MUL q, three`, its operands the words the host kept. -/
theorem test_issue_named :
    (after { State.reset with
      inbox := [.issue ⟨some 2, .mul, [.name 0, .name 1]⟩]
      answers := [⟨some 0, .res 0x2FCBD7A625405555⟩, ⟨some 1, .res 0x31C0000000000003⟩] }).pending =
      [⟨some 2, ⟨0xA, 0x2FCBD7A625405555, 0x31C0000000000003, 0, []⟩⟩] := by decide
/-- A word serialised in either order (R42): the first byte is the least or the most significant. -/
theorem test_serialise :
    (serialise .littleEndian 0x31800000000004D2).head? = some 0xD2 ∧
      (serialise .bigEndian 0x31800000000004D2).head? = some 0x31 := by decide

/-! ### Witnesses: hypotheses that something meets -/

theorem witness_EveryCodeSelectsOneRow : encodeOp .add = 0x8 := rfl

theorem witness_StepRunsTheOldestRequest :
    (asked 8 1 2 0 []).pending = [⟨none, ⟨8, 1, 2, 0, []⟩⟩] ∧ (asked 8 1 2 0 []).inbox = [] ∧
      { asked 8 1 2 0 [] with inbox := [.await, .read .res] }.inbox = .await :: [.read .res] := ⟨rfl, rfl, rfl⟩

theorem witness_HostKeepsTheDrivenResponse : ∃ t, exec .isnan State.reset = .next t := ⟨_, rfl⟩

theorem witness_ReservedCodesAreRefused :
    (asked 12 0 0 0 []).inbox = [] ∧ (asked 12 0 0 0 []).pending = [⟨none, ⟨12, 0, 0, 0, []⟩⟩] := ⟨rfl, rfl⟩
theorem witness_ReservedCodesAreRefused_issued :
    { State.reset with inbox := [HostEvent.raw none ⟨12, 0, 0, 0, []⟩] }.inbox = HostEvent.raw none ⟨12, 0, 0, 0, []⟩ :: [] :=
  rfl

/-- A parameter value small enough to meet both clauses at their boundary. -/
def shortText (tin : List Byte) : State :=
  { State.reset with cfg := { Config.atReset with textMax := 2 }, tin := tin }

theorem witness_OnlyLongTextsAreRefused_long :
    (shortText [1, 2, 3]).cfg.textMax < (shortText [1, 2, 3]).tin.length := by decide
theorem witness_OnlyLongTextsAreRefused_longest :
    (shortText [1, 2]).tin.length ≤ (shortText [1, 2]).cfg.textMax := by decide

theorem witness_OnlyLongTextsAreRefused_issued :
    { shortText [] with inbox := [HostEvent.raw none ⟨2, 0, 0, 0, [1, 2, 3]⟩] }.inbox =
        HostEvent.raw none ⟨2, 0, 0, 0, [1, 2, 3]⟩ :: [] ∧
      (shortText []).cfg.textMax < [(1 : Byte), 2, 3].length ∧ [(1 : Byte), 2].length ≤ (shortText []).cfg.textMax :=
  ⟨rfl, by decide, by decide⟩

theorem witness_EveryAcceptedRequestIsAnsweredOnItsPort :
    Instr.parse.wf = true ∧ (Instr.parse = .parse → (shortText [1, 2]).tin.length ≤ (shortText [1, 2]).cfg.textMax) :=
  ⟨rfl, fun _ => by decide⟩

theorem witness_ResponseDependsOnReadPortsOnly :
    ∃ s t : State, s ≠ t ∧ s.cfg = t.cfg ∧ ∀ p ∈ Instr.isnan.reads, samePort s t p :=
  ⟨State.reset, { State.reset with b := 1, tin := [3] }, by decide, rfl, by simp [Instr.reads, samePort]⟩

theorem witness_NoResponseUntilTheFirst_reset :
    { State.reset with inbox := [HostEvent.assertReset], res := some 3 }.inbox = HostEvent.assertReset :: [] := rfl
theorem witness_NoResponseUntilTheFirst_before :
    ∃ t, noResponse State.reset ∧ step State.reset = .next t ∧ t.answers = State.reset.answers :=
  ⟨State.reset, ⟨rfl, rfl, rfl, rfl⟩, rfl, rfl⟩
theorem witness_NoResponseUntilTheFirst_read :
    noResponse { State.reset with inbox := [.read .res] } ∧
      { State.reset with inbox := [HostEvent.read .res] }.inbox = HostEvent.read .res :: [] :=
  ⟨⟨rfl, rfl, rfl, rfl⟩, rfl⟩

theorem witness_ResetDropsOutstandingRequests :
    { State.reset with inbox := [HostEvent.raw none ⟨6, 0, 0, 0, []⟩] }.inbox = [HostEvent.raw none ⟨6, 0, 0, 0, []⟩] ∧
      { State.reset with inbox := [HostEvent.raw none ⟨6, 0, 0, 0, []⟩] }.pending = [] ∧
      { asked 8 1 2 0 [] with inbox := [HostEvent.assertReset, .raw none ⟨6, 0, 0, 0, []⟩] }.inbox =
        [HostEvent.assertReset, .raw none ⟨6, 0, 0, 0, []⟩] ∧
      accepted State.reset.cfg ⟨6, 0, 0, 0, []⟩ = true ∧ accepted State.reset.cfg ⟨7, 0, 0, 0, []⟩ = false :=
  ⟨rfl, rfl, rfl, rfl, rfl⟩

theorem witness_ReadGivesThePortOrFaults_res :
    { State.reset with inbox := [HostEvent.read .res], res := some 3 }.res = some 3 := rfl
theorem witness_ReadGivesThePortOrFaults_lres :
    { State.reset with inbox := [HostEvent.read .lres], lres := some 3 }.lres = some 3 := rfl
theorem witness_ReadGivesThePortOrFaults_tout :
    { State.reset with inbox := [HostEvent.read .tout], tout := some [3] }.tout = some [3] := rfl
theorem witness_ReadGivesThePortOrFaults_flag :
    { State.reset with inbox := [HostEvent.read .flag], flag := some 1 }.flag = some 1 := rfl
theorem witness_ReadGivesThePortOrFaults_undriven (p : ResponsePort) :
    { State.reset with inbox := [HostEvent.read p] }.inbox = HostEvent.read p :: [] ∧ noResponse State.reset :=
  ⟨rfl, rfl, rfl, rfl, rfl⟩

/-- The state after reset with one line to issue. -/
def issuing (l : Line) : State := { State.reset with inbox := [.issue l] }

theorem witness_LinesSpellTheirRequests_twoWords :
    Instr.add.takes = some .twoWords ∧
      (issuing ⟨none, .add, [.word 1, .word 2]⟩).inbox = .issue ⟨none, .add, [.word 1, .word 2]⟩ :: [] := ⟨rfl, rfl⟩
theorem witness_LinesSpellTheirRequests_oneWord :
    Instr.isnan.takes = some .oneWord ∧
      (issuing ⟨none, .isnan, [.word 1]⟩).inbox = .issue ⟨none, .isnan, [.word 1]⟩ :: [] := ⟨rfl, rfl⟩
theorem witness_LinesSpellTheirRequests_logical :
    (LD.mk false .finite (2 ^ 54 - 1) (-32768)).onBus = true ∧
      (issuing ⟨none, .encode, [.logical ⟨false, .finite, 2 ^ 54 - 1, -32768⟩]⟩).inbox =
        .issue ⟨none, .encode, [.logical ⟨false, .finite, 2 ^ 54 - 1, -32768⟩]⟩ :: [] := ⟨by decide, rfl⟩
theorem witness_LinesSpellTheirRequests_text :
    (issuing ⟨none, .parse, [.text [0x31]]⟩).inbox = .issue ⟨none, .parse, [.text [0x31]]⟩ :: [] := rfl
theorem witness_LinesSpellTheirRequests_longText :
    { issuing ⟨none, .parse, [.text [1, 2, 3]]⟩ with cfg := (shortText []).cfg }.cfg.textMax < [(1 : Byte), 2, 3].length := by
  decide
/-- A literal and a name, the last answer of that name meant; nothing outstanding. -/
theorem witness_LinesSpellTheirRequests_name :
    ∃ s : State, s.inbox = [.issue ⟨none, .add, [.name 4, .word 7]⟩] ∧ s.pending = [] ∧
      ArgIs s.answers (.name 4) 9 ∧ ArgIs s.answers (.word 7) 7 :=
  ⟨{ State.reset with inbox := [.issue ⟨none, .add, [.name 4, .word 7]⟩]
                      answers := [⟨some 4, .res 8⟩, ⟨some 4, .res 9⟩, ⟨some 5, .flag 1⟩] }, rfl, rfl,
    .inr ⟨4, [⟨some 4, .res 8⟩], [⟨some 5, .flag 1⟩], rfl, rfl, by decide⟩, .inl rfl⟩
theorem witness_LinesSpellTheirRequests_raw :
    accepted (shortText []).cfg ⟨2, 0, 0, 0, [1, 2]⟩ = true ∧ accepted (shortText []).cfg ⟨2, 0, 0, 0, [1, 2, 3]⟩ = false ∧
      accepted (shortText []).cfg ⟨0xC, 0, 0, 0, []⟩ = false := ⟨rfl, rfl, rfl⟩
theorem witness_LinesSpellTheirRequests_wait :
    ∃ t, Arg.name 4 ∈ [Arg.name 4] ∧
      step { asked 6 0 0 0 [] with inbox := [.issue ⟨none, .isnan, [.name 4]⟩] } = .next t :=
  ⟨_, by decide, rfl⟩

theorem witness_ResponsesComeInRequestOrder :
    (asked 8 1 2 0 []).inbox = [] ∧ ∀ p ∈ (asked 8 1 2 0 []).pending, accepted (asked 8 1 2 0 []).cfg p.req = true := by
  decide

/-- A refused request, an await, and an accepted one. -/
theorem witness_EveryRequestFaresAsIfAlone :
    State.reset.pending = [] ∧
      ∀ e ∈ [HostEvent.raw none ⟨7, 0, 0, 0, []⟩, .await, .raw (some 1) ⟨6, 0, 0, 0, []⟩],
        e = .await ∨ ∃ name r, e = .raw name r := by
  refine ⟨rfl, ?_⟩
  simp

/-- `x = ENCODE LD(0, Finite, 5, 0)` and `t = FORMAT x`. -/
def twoLines : Program := [⟨some 0, .encode, [.logical ⟨false, .finite, 5, 0⟩]⟩, ⟨some 1, .format, [.name 0]⟩]

theorem witness_WellFormedProgramsRunToTheirEnd :
    (State.reset.load twoLines).pending = [] ∧ (State.reset.load twoLines).inbox = twoLines.map .issue ∧
      wfLines [] twoLines = true ∧ (∀ l ∈ twoLines, ∀ x, Arg.text x ∈ l.args → x.length ≤ State.reset.cfg.textMax) :=
  ⟨rfl, rfl, rfl, by simp [twoLines]⟩

theorem witness_PositionAdvancesWithResponses : ∃ t, step (asked 6 0 0 0 []) = .next t ∧ t.position = 1 := ⟨_, rfl, rfl⟩
theorem witness_NoStepChangesAParameter : ∃ t, step (asked 6 0 0 0 []) = .next t := ⟨_, rfl⟩
theorem witness_StepKeepsTheInvariant : ∃ t, (asked 6 0 0 0 []).Inv ∧ step (asked 6 0 0 0 []) = .next t := by
  refine ⟨_, ?_, rfl⟩
  simp [State.Inv, drivenPorts, asked, State.reset, accepted]
  decide

theorem witness_DiscardedBitsDoNotMatter_nan :
    (0xFC00000000000123 : Word).toNat / 2 ^ 58 % 32 = 31 ∧
      (0xFC00000000000123 : Word).toNat / 2 ^ 57 = (0xFC00000000000000 : Word).toNat / 2 ^ 57 := by decide
theorem witness_DiscardedBitsDoNotMatter_infinity :
    (0x7BFFFFFFFFFFFFFF : Word).toNat / 2 ^ 58 % 32 = 30 ∧
      (0x7BFFFFFFFFFFFFFF : Word).toNat / 2 ^ 58 = (0x7800000000000000 : Word).toNat / 2 ^ 58 := by decide
theorem witness_DiscardedBitsDoNotMatter_significand :
    (0x6C7386F26FC10000 : Word).toNat / 2 ^ 61 % 4 = 3 ∧ (0x6C7386F26FC10000 : Word).toNat / 2 ^ 59 % 4 ≠ 3 ∧
      (0x6C7386F26FC10000 : Word).toNat / 2 ^ 51 = (0x6C77FFFFFFFFFFFF : Word).toNat / 2 ^ 51 ∧
      992800745259007 < (0x6C7386F26FC10000 : Word).toNat % 2 ^ 51 ∧
      992800745259007 < (0x6C77FFFFFFFFFFFF : Word).toNat % 2 ^ 51 := by decide

theorem witness_CodecRoundTrips :
    (LD.mk true .finite 9999999999999999 369).inRange = true ∧ CanonicalWord 0 ∧ ¬ CanonicalWord 0x6C7386F26FC10000 := by
  unfold CanonicalWord
  decide
theorem witness_EncoderChoosesOneForm :
    (LD.mk false .finite 9007199254740992 (-398)).inRange = true ∧
      (LD.mk false .finite 9007199254740991 369).inRange = true := by decide
theorem witness_ClassOfAWordByItsBits :
    (0xF7FFFFFFFFFFFFFF : Word).toNat / 2 ^ 59 % 16 ≠ 15 ∧ (0x7BFFFFFFFFFFFFFF : Word).toNat / 2 ^ 58 % 32 = 30 ∧
      (0x7DFFFFFFFFFFFFFF : Word).toNat / 2 ^ 57 % 64 = 62 ∧ (0x7E00000000000000 : Word).toNat / 2 ^ 57 % 64 = 63 := by
  decide
theorem witness_BusCarriesTheFourFields :
    (LD.mk true .signalingNaN (2 ^ 54 - 1) (-32768)).onBus = true ∧ (LD.mk false .finite 9999999999999999 369).inRange = true := by
  decide
theorem witness_DecodeGivesTheFieldsOfTheWord_form1 :
    (0x5FFFFFFFFFFFFFFF : Word).toNat = signWeight false + 767 * 2 ^ 53 + (2 ^ 53 - 1) := by decide
theorem witness_DecodeGivesTheFieldsOfTheWord_form2 :
    (0xF7FFFFFFFFFFFFFF : Word).toNat = signWeight true + 3 * 2 ^ 61 + 767 * 2 ^ 51 + (2 ^ 51 - 1) := by decide
theorem witness_DecodeGivesTheFieldsOfTheWord_infinity :
    (0x7BFFFFFFFFFFFFFF : Word).toNat = signWeight false + 30 * 2 ^ 58 + (2 ^ 58 - 1) := by decide
theorem witness_DecodeGivesTheFieldsOfTheWord_quiet :
    (0xFC00000000000000 : Word).toNat = signWeight true + 62 * 2 ^ 57 + 0 := by decide
theorem witness_DecodeGivesTheFieldsOfTheWord_signalling :
    (0x7FFFFFFFFFFFFFFF : Word).toNat = signWeight false + 63 * 2 ^ 57 + (2 ^ 57 - 1) := by decide
theorem witness_EncodePacksTheBusValue :
    ofBus 0x02386F26FC0FFFF0171 = ⟨false, .finite, 9999999999999999, 369⟩ ∧
      ofBus 0x000000000000001FE72 = ⟨false, .finite, 1, -398⟩ ∧ ofBus 0x1400000000000000001 = ⟨true, .infinity, 0, 1⟩ ∧
      ofBus 0x1800000000000050000 = ⟨true, .quietNaN, 5, 0⟩ ∧ ofBus 0x0C00000000000000000 = ⟨false, .signalingNaN, 0, 0⟩ := by
  decide
theorem witness_InterchangeOperationsAreIdentities : Instr.encodeToBid = .decodeFromBid ∨ Instr.encodeToBid = .encodeToBid :=
  .inr rfl
theorem witness_ResultWordsAreCanonical :
    ∃ t w, exec .encode { State.reset with lin := 0x0C00000000000000000 } = .next t ∧ t.res = some w ∧
      (bidDecode w).k = .signalingNaN ∧ (ofBus 0x0C00000000000000000).k = .signalingNaN :=
  ⟨_, _, rfl, rfl, by decide, by decide⟩

theorem witness_RoundDigitsDropsHalfToEven :
    5 * 10 ^ (2 - 1) < 351 % 10 ^ 2 ∧ 350 % 10 ^ 2 = 5 * 10 ^ (2 - 1) ∧ 349 % 10 ^ 2 < 5 * 10 ^ (2 - 1) ∧ ndig 51 ≤ 2 := by
  decide
theorem witness_DigitCountIsLeast : 9999999999999999 < 10 ^ 16 := by decide
theorem witness_RoundingKeepsRepresentableValues :
    (LD.mk true .finite 9999999999999999 369).inRange = true := by decide
theorem witness_RoundingIsToNearestEven_exact :
    (finalize false 12345678901234565 0 false).k = .finite ∧ (LD.mk false .finite 1234567890123457 1).inRange = true := by decide
theorem witness_RoundingIsToNearestEven_sticky :
    (0 : ℚ) < 1 / 2 ∧ (1 / 2 : ℚ) < 1 ∧ 17 ≤ ndig 50000000000000000 ∧ (finalize false 50000000000000000 (-415) true).k = .finite :=
  ⟨by norm_num, by norm_num, by decide, by decide⟩
theorem witness_OverflowFromTenToThe385_clamp :
    roundToWidth 1 384 false = (1, 384) ∧ ((1 : Nat) : ℚ) * 10 ^ (384 : Int) < (10 : ℚ) ^ (385 : Int) ∧ (369 : Int) < 384 :=
  ⟨by decide, by rw [Nat.cast_one, one_mul]; exact zpow_lt_zpow_right₀ (by norm_num) (by norm_num), by decide⟩
theorem witness_OverflowFromTenToThe385_infinity :
    roundToWidth 1 385 false = (1, 385) ∧ (10 : ℚ) ^ (385 : Int) ≤ ((1 : Nat) : ℚ) * 10 ^ (385 : Int) :=
  ⟨by decide, by rw [Nat.cast_one, one_mul]⟩
theorem witness_OverflowFromTenToThe385_within :
    roundToWidth 12345678901234565 368 false = (1234567890123456, 369) ∧ (369 : Int) ≤ 369 := by decide
theorem witness_UnderflowKeepsTheSign_zero : ((5 : Nat) : ℚ) * 10 ^ (-399 : Int) ≤ 10 ^ (-398 : Int) / 2 := by
  rw [show (-398 : Int) = -399 + 1 by norm_num, zpow_add_one₀ (by norm_num)]
  generalize (10 : ℚ) ^ (-399 : Int) = x
  push_cast
  linarith
theorem witness_UnderflowKeepsTheSign_nonzero : (10 : ℚ) ^ (-398 : Int) / 2 < ((6 : Nat) : ℚ) * 10 ^ (-399 : Int) := by
  rw [show (-398 : Int) = -399 + 1 by norm_num, zpow_add_one₀ (by norm_num)]
  have h : (0 : ℚ) < 10 ^ (-399 : Int) := zpow_pos (by norm_num) _
  generalize (10 : ℚ) ^ (-399 : Int) = x at h ⊢
  push_cast
  linarith
/-- A carry, at the overflow threshold and below it; a subnormal result; a clamped one. -/
theorem witness_RoundedResultsKeepSignAndLeastExponent :
    1 = max (ndig 99999999999999995 - 16) (-398 - 0).toNat ∧ roundDigits 99999999999999995 1 false = 10 ^ 16 ∧
      (finalize true 99999999999999995 0 false).k = .finite ∧ 1 = max (ndig 15 - 16) (-398 - (-399)).toNat ∧
      finalize false 15 (-399) false = ⟨false, .finite, 2, -398⟩ ∧ 0 = max (ndig 1 - 16) (-398 - 370).toNat ∧
      finalize false 1 370 false = ⟨false, .finite, 10, 369⟩ := by decide
theorem witness_SeventeenDigitsAndStickySuffice : 17 < ndig 123456789012345678 := by decide
theorem witness_SaturatedExponentsGiveTheSameResult : ndig 99999 ≤ 5 ∧ 4 ≤ 5 ∧ ((5 : Nat) : Int) + 800 ≤ 805 := by decide
theorem witness_AlignmentIsExact : align ⟨false, .finite, 1, 0⟩ ⟨true, .finite, 5, -2⟩ = (100, 5, -2) := by decide

/-- The state after reset with operands on its word ports. -/
def operands (a b : Word) : State := { State.reset with a := a, b := b }

/-- A signalling `B` beside a quiet `A`. -/
theorem witness_NaNOperandsGiveTheirQuietNaN :
    ∃ x y : LD, x = bidDecode (operands 0x7C00000000000000 0xFE00000000000000).a ∧
      y = bidDecode (operands 0x7C00000000000000 0xFE00000000000000).b ∧ (x.isNaN ∨ y.isNaN) ∧ y.k = .signalingNaN :=
  ⟨_, _, rfl, rfl, .inl (.inl (by decide)), by decide⟩

/-- The operands of a state decode to a pair of values. -/
def decodeTo (a b : Word) (x y : LD) : Prop := x = bidDecode (operands a b).a ∧ y = bidDecode (operands a b).b

theorem witness_InfinitiesInSums_first :
    decodeTo 0x7800000000000000 0xB1C0000000000000 ⟨false, .infinity, 0, 0⟩ ⟨true, .finite, 0, 0⟩ := by
  unfold decodeTo; decide
theorem witness_InfinitiesInSums_second :
    decodeTo 0x5FE0000000000000 0xF800000000000000 ⟨false, .finite, 0, 369⟩ ⟨true, .infinity, 0, 0⟩ := by
  unfold decodeTo; decide
theorem witness_InfinitiesInSums_same :
    decodeTo 0xF800000000000000 0xF800000000000000 ⟨true, .infinity, 0, 0⟩ ⟨true, .infinity, 0, 0⟩ := by
  unfold decodeTo; decide
theorem witness_InfinitiesInSums_opposite :
    decodeTo 0x7800000000000000 0xF800000000000000 ⟨false, .infinity, 0, 0⟩ ⟨true, .infinity, 0, 0⟩ := by
  unfold decodeTo; decide
theorem witness_InfinitiesInProducts_zero :
    decodeTo 0x7800000000000000 0xB1C0000000000000 ⟨false, .infinity, 0, 0⟩ ⟨true, .finite, 0, 0⟩ := by
  unfold decodeTo; decide
theorem witness_InfinitiesInProducts_nonzero :
    decodeTo 0x0000000000000001 0xF800000000000000 ⟨false, .finite, 1, -398⟩ ⟨true, .infinity, 0, 0⟩ := by
  unfold decodeTo; decide
theorem witness_InfinitiesAndZeroDivisors_both :
    decodeTo 0x7800000000000000 0xF800000000000000 ⟨false, .infinity, 0, 0⟩ ⟨true, .infinity, 0, 0⟩ := by
  unfold decodeTo; decide
theorem witness_InfinitiesAndZeroDivisors_dividend :
    decodeTo 0x7800000000000000 0xB1C0000000000000 ⟨false, .infinity, 0, 0⟩ ⟨true, .finite, 0, 0⟩ := by
  unfold decodeTo; decide
theorem witness_InfinitiesAndZeroDivisors_divisor :
    decodeTo 0x31C0000000000005 0xF800000000000000 ⟨false, .finite, 5, 0⟩ ⟨true, .infinity, 0, 0⟩ := by
  unfold decodeTo; decide
theorem witness_InfinitiesAndZeroDivisors_byZero :
    decodeTo 0x0000000000000001 0xB2A0000000000000 ⟨false, .finite, 1, -398⟩ ⟨true, .finite, 0, 7⟩ := by
  unfold decodeTo; decide
theorem witness_InfinitiesAndZeroDivisors_zeroByZero :
    decodeTo 0x31C0000000000000 0x31C0000000000000 ⟨false, .finite, 0, 0⟩ ⟨false, .finite, 0, 0⟩ := by
  unfold decodeTo; decide
/-- The largest sum that is exact, `9999999999999998 + 1`, and the least that is not, `9999999999999999 + 1`. -/
theorem witness_SumsOfFiniteOperands :
    decodeTo 0x6C7386F26FC0FFFE 0x31C0000000000001 ⟨false, .finite, 9999999999999998, 0⟩ ⟨false, .finite, 1, 0⟩ ∧
      decodeTo 0x6C7386F26FC0FFFF 0x31C0000000000001 ⟨false, .finite, 9999999999999999, 0⟩ ⟨false, .finite, 1, 0⟩ := by
  unfold decodeTo; decide
/-- `-0 - +0`, whose effective signs are both negative. -/
theorem witness_SumsOfFiniteOperands_zero :
    decodeTo 0xB1C0000000000000 0x31C0000000000000 ⟨true, .finite, 0, 0⟩ ⟨false, .finite, 0, 0⟩ ∧
      (0 : Int) = -1 * 0 * 10 ^ 0 + -1 * 0 * 10 ^ 0 := by
  unfold decodeTo; decide
/-- A zero product, a product that fits, and one below the exponent range. -/
theorem witness_ProductsOfFiniteOperands :
    decodeTo 0x5FE0000000000000 0x5FE0000000000000 ⟨false, .finite, 0, 369⟩ ⟨false, .finite, 0, 369⟩ ∧
      decodeTo 0x18C0000000000001 0x1900000000000001 ⟨false, .finite, 1, -200⟩ ⟨false, .finite, 1, -198⟩ ∧
      decodeTo 0x0000000000000003 0x31A0000000000005 ⟨false, .finite, 3, -398⟩ ⟨false, .finite, 5, -1⟩ := by
  unfold decodeTo; decide
theorem witness_QuotientsOfFiniteOperands_zero :
    decodeTo 0xB120000000000000 0x3200000000000003 ⟨true, .finite, 0, -5⟩ ⟨false, .finite, 3, 2⟩ := by
  unfold decodeTo; decide
theorem witness_QuotientsOfFiniteOperands_exact :
    decodeTo 0x31C0000000000001 0x31C0000000000004 ⟨false, .finite, 1, 0⟩ ⟨false, .finite, 4, 0⟩ ∧
      25 * 4 = 1 * 10 ^ 2 ∧ ∀ i, i < 2 → ¬ ∃ b, b ≤ 9999999999999999 ∧ b * 4 = 1 * 10 ^ i := by
  refine ⟨by unfold decodeTo; decide, rfl, fun i hi => ?_⟩
  rintro ⟨b, -, hb⟩
  obtain rfl | rfl : i = 0 ∨ i = 1 := by omega
  all_goals omega
theorem witness_QuotientsOfFiniteOperands_inexact :
    decodeTo 0x31C0000000000001 0x31C0000000000003 ⟨false, .finite, 1, 0⟩ ⟨false, .finite, 3, 0⟩ ∧
      (¬ ∃ i b, b ≤ 9999999999999999 ∧ b * 3 = 1 * 10 ^ i) ∧ 10 ^ 16 ≤ 1 * 10 ^ 17 / 3 ∧
      ∀ i, 1 ≤ i → i < 17 → 1 * 10 ^ i / 3 < 10 ^ 16 := by
  refine ⟨by unfold decodeTo; decide, ?_, by norm_num, fun i _ hi => ?_⟩
  · rintro ⟨i, b, -, hb⟩
    have h : 10 ^ i % 3 = 1 := by rw [Nat.pow_mod]; simp
    omega
  · calc 1 * 10 ^ i / 3 ≤ 1 * 10 ^ 16 / 3 :=
        Nat.div_le_div_right (Nat.mul_le_mul_left _ (Nat.pow_le_pow_right (by decide) (by omega)))
      _ < 10 ^ 16 := by norm_num
theorem witness_SumsAndProductsCommute :
    (bidDecode 0xFC00000000000000).isNaN ∧ ¬ (bidDecode 0x31C0000000000001).isNaN := by
  unfold LD.isNaN
  decide
theorem witness_IdentityElements :
    (bidDecode 0x31C0000000000001).value = 1 ∧ (bidDecode 0x3180000000000000).c = 0 := by
  have h : bidDecode 0x31C0000000000001 = ⟨false, .finite, 1, 0⟩ := by decide
  rw [h]
  exact ⟨by norm_num [LD.value, LD.magnitude], by decide⟩
theorem witness_NaNsPropagate : (bidDecode 0x7E00000000000000).isNaN := .inr (by decide)

/-- `"-1e5"`. -/
theorem witness_ParseFollowsTheGrammar_numeral : NumeralText [0x2D, 0x31, 0x65, 0x35] true 1 5 :=
  ⟨[0x2D], [0x31], [0x31], [], [0x65, 0x35], 5, rfl, .inr ⟨rfl, rfl⟩,
    ⟨by simp [DigitText], by simp [DigitText], by simp, .inl ⟨rfl, rfl⟩⟩,
    .inr ⟨0x65, [], false, [0x35], .inl rfl, .inl ⟨rfl, .inl rfl⟩, by simp, by simp [DigitText], rfl, rfl⟩, rfl, rfl⟩
/-- `"nAN"` and `"+inf"`. -/
theorem witness_ParseFollowsTheGrammar_special :
    SpecialText [0x6E, 0x41, 0x4E] false .quietNaN ∧ SpecialText [0x2B, 0x69, 0x6E, 0x66] false .infinity :=
  ⟨⟨[], [0x6E, 0x41, 0x4E], rfl, .inl ⟨rfl, .inl rfl⟩, .inl ⟨rfl, by simp [InEitherCase, textNan]⟩⟩,
    ⟨[0x2B], [0x69, 0x6E, 0x66], rfl, .inl ⟨rfl, .inr rfl⟩, .inr ⟨rfl, .inl (by simp [InEitherCase, textInf])⟩⟩⟩
/-- The empty text is neither. -/
theorem witness_ParseFollowsTheGrammar_malformed :
    (∀ s C E, ¬ NumeralText [] s C E) ∧ ∀ s k, ¬ SpecialText [] s k := by
  constructor
  · rintro s C E ⟨sign, mantissa, int, frac, expo, x, h, -, ⟨-, -, hne, hm⟩, -⟩
    simp only [List.nil_eq, List.append_eq_nil_iff] at h
    obtain ⟨⟨-, rfl⟩, -⟩ := h
    rcases hm with ⟨rfl, rfl⟩ | hm
    · simp at hne
    · simp at hm
  · rintro s k ⟨sign, token, h, -, ht⟩
    simp only [List.nil_eq, List.append_eq_nil_iff] at h
    obtain ⟨-, rfl⟩ := h
    simp [InEitherCase, textNan, textInf, textInfinity] at ht
theorem witness_FormatPrintsSixteenDigits :
    (bidDecode 0xF7FB86F26FC0FFFF).k = .finite ∧ (bidDecode 0xF800000000000000).k = .infinity ∧
      (bidDecode 0xFE00000000000000).isNaN := ⟨by decide, by decide, .inr (by decide)⟩
theorem witness_FormatLengths :
    (bidDecode 0xF7FB86F26FC0FFFF).k = .finite ∧ (bidDecode 0xF800000000000000).k ≠ .finite := by decide
theorem witness_ValuesThatPrintAlike :
    (LD.mk false .finite 1300 (-2)).inRange = true ∧ (LD.mk false .finite 13 0).inRange = true ∧
      (LD.mk true .finite 0 (-398)).inRange = true ∧ (LD.mk true .infinity 0 0).inRange = true ∧
      (LD.mk true .quietNaN 0 0).inRange = true ∧ (LD.mk true .signalingNaN 0 0).isNaN :=
  ⟨rfl, rfl, rfl, rfl, rfl, .inr rfl⟩
theorem witness_ParseUndoesFormat : (LD.mk false .finite 1 (-398)).inRange = true ∧ (LD.mk true .infinity 0 0).inRange = true :=
  ⟨rfl, rfl⟩

end Sys2Proof.Tests
end

section
/-!
Every operation answers, on the port it drives (00_scope.md R18, 10_state.md R35): what reading a driven response gives, that
DIV never faults on decoded words, and what each operation drives.
-/

namespace Sys2Proof.Machine

/-! ### The driven port -/

/-- The port a response stands on (R35). -/
def Response.port : Response → ResponsePort
  | .res _ => .res
  | .lres _ => .lres
  | .tout _ => .tout
  | .flag _ => .flag

@[simp] theorem State.readPort_drive_port (s : State) (r : Response) : (s.drive r).readPort r.port = .ok r := by
  cases r <;> rfl

theorem State.readPort_drive_of_ne {s : State} {r : Response} {q : ResponsePort} (h : q ≠ r.port) :
    (s.drive r).readPort q = .error (.undrivenPort q) := by
  cases q with
  | res => cases r with
    | res => exact absurd rfl h
    | _ => rfl
  | lres => cases r with
    | lres => exact absurd rfl h
    | _ => rfl
  | tout => cases r with
    | tout => exact absurd rfl h
    | _ => rfl
  | flag => cases r with
    | flag => exact absurd rfl h
    | _ => rfl

/-- Driving a response writes the response ports only. -/
theorem State.drive_frame (s : State) (r : Response) :
    s.drive r = { s with
      res := (s.drive r).res, lres := (s.drive r).lres, tout := (s.drive r).tout, flag := (s.drive r).flag } := by
  cases r <;> rfl

/-! ### DIV of decoded words never faults -/

/-- A significand beyond CMAX is decoded as 0 (R82). -/
theorem finiteOfFields_c_le_cmax (s : Bool) (eb c : Nat) : (finiteOfFields s eb c).c ≤ cmax := by
  unfold finiteOfFields
  dsimp only
  split <;> omega

theorem bidDecode_c_le_cmax (w : Word) : (bidDecode w).c ≤ cmax := by
  unfold bidDecode
  dsimp only
  split
  case h_4 => split <;> exact finiteOfFields_c_le_cmax ..
  all_goals exact Nat.zero_le _

/-- The NaN steps of the precedence pass exactly when no operand is a NaN (R157, R158). -/
theorem nanOperand_eq_none_iff {x y : LD} : nanOperand x y = none ↔ ¬ x.isNaN ∧ ¬ y.isNaN := by
  unfold nanOperand LD.isNaN
  split_ifs <;> simp_all

/-- The special cases of DIV pass exactly when both operands are no Infinity and the divisor is no zero (R162, R163). -/
theorem infinityDiv_eq_none_iff {cfg : Config} {x y : LD} :
    infinityDiv cfg x y = none ↔ x.k ≠ .infinity ∧ y.k ≠ .infinity ∧ y.isZero = false := by
  unfold infinityDiv
  split_ifs <;> simp_all

/-- A class that is no NaN and no Infinity is finite. -/
theorem finite_of_not_special {x : LD} (hn : ¬ x.isNaN) (hi : x.k ≠ .infinity) : x.k = .finite := by
  unfold LD.isNaN at hn
  cases hk : x.k <;> simp_all

/-- The finite path of DIV answers for every nonzero in-range divisor, on the exact and on the inexact path (R171 to R174). -/
theorem divFinite_ok (x : LD) {y : LD} (hy0 : y.c ≠ 0) (hy : y.c ≤ cmax) : ∃ r, divFinite x y = .ok r := by
  unfold divFinite
  split
  · exact ⟨_, rfl⟩
  · rename_i hx0
    split
    · exact ⟨_, rfl⟩
    · exact ⟨_, divInexact_ok hx0 hy0 hy⟩

theorem divLogical_ok (cfg : Config) (x : LD) {y : LD} (hy : y.c ≤ cmax) : ∃ r, divLogical cfg x y = .ok r := by
  unfold divLogical
  split
  · exact ⟨_, rfl⟩
  · rename_i h
    obtain ⟨hnan, hinf⟩ := Option.or_eq_none_iff.1 h
    obtain ⟨-, hyn⟩ := nanOperand_eq_none_iff.1 hnan
    obtain ⟨-, hyi, hyz⟩ := infinityDiv_eq_none_iff.1 hinf
    have hy0 : y.c ≠ 0 := by simpa [LD.isZero, finite_of_not_special hyn hyi] using hyz
    exact divFinite_ok x hy0 hy

/-- DIV answers on every pair of words (R18, R171). -/
theorem execDiv_next (s : State) : ∃ w, execDiv s = .next (s.drive (.res w)) := by
  obtain ⟨r, hr⟩ := divLogical_ok s.cfg (bidDecode s.a) (bidDecode_c_le_cmax s.b)
  exact ⟨bidPack r, by simp only [execDiv, hr]⟩

/-! ### Every operation -/

/-- PARSE answers on every text of an accepted length (R44, R109). -/
theorem execParse_next {s : State} (h : s.tin.length ≤ s.cfg.textMax) :
    execParse s = .next (s.drive (.res (bidPack (parseText s.tin)))) :=
  if_neg (Nat.not_lt.2 h)

/-- The eleven operations answer every operand, by driving one response on the port R56 gives them (R18, R35). -/
theorem exec_drives {i : Instr} {s : State} (hwf : i.wf = true) (hlen : i = .parse → s.tin.length ≤ s.cfg.textMax) :
    ∃ r, exec i s = .next (s.drive r) ∧ i.drives = some r.port := by
  cases i with
  | parse => exact ⟨_, execParse_next (hlen rfl), rfl⟩
  | div =>
    obtain ⟨w, hw⟩ := execDiv_next s
    exact ⟨.res w, hw, rfl⟩
  | reservedSeven => cases hwf
  | reservedHigh low => cases hwf
  | _ => exact ⟨_, rfl, rfl⟩

/-- Settles O8: an operation drives one response (`exec_drives`), which is what can be read and all that changed. -/
theorem everyAcceptedRequestIsAnsweredOnItsPort : Obligations.EveryAcceptedRequestIsAnsweredOnItsPort := by
  intro i s hwf hlen
  obtain ⟨r, hexec, hport⟩ := exec_drives hwf hlen
  exact ⟨s.drive r, r.port, r, hexec, hport, s.readPort_drive_port r, fun _ => State.readPort_drive_of_ne, s.drive_frame r⟩

end Sys2Proof.Machine
end

section
/-!
Noninterference (10_state.md R30): the response of an operation depends only on the request ports listed for it in R56.
-/

namespace Sys2Proof.Machine

/-- A driven response is all that the response ports hold, whatever was on them before (R35). -/
theorem sameResponse_drive (s t : State) (r : Response) : sameResponse (s.drive r) (t.drive r) := by
  cases r <;> exact ⟨rfl, rfl, rfl, rfl⟩

theorem agree_next_drive {s t : State} {r q : Response} (h : r = q) : agree (.next (s.drive r)) (.next (t.drive q)) :=
  h ▸ sameResponse_drive s t r

/-- PARSE reads `TIN` alone, and `TEXT_MAX` (R44, R100). -/
theorem execParse_agree {s t : State} (hcfg : s.cfg = t.cfg) (htin : s.tin = t.tin) :
    agree (execParse s) (execParse t) := by
  unfold execParse
  rw [hcfg, htin]
  split
  · exact rfl
  · exact agree_next_drive rfl

/-- DIV reads `A` and `B` alone, and `DIV_BY_INF_ZERO_EXP` (R171, R175). -/
theorem execDiv_agree {s t : State} (hcfg : s.cfg = t.cfg) (ha : s.a = t.a) (hb : s.b = t.b) :
    agree (execDiv s) (execDiv t) := by
  unfold execDiv
  rw [hcfg, ha, hb]
  split
  · exact agree_next_drive rfl
  · exact rfl

/-- Settles O9: the response an operation drives is a function of the ports R56 lists for it, and of the open parameters
for PARSE and DIV. -/
theorem responseDependsOnReadPortsOnly : Obligations.ResponseDependsOnReadPortsOnly := by
  intro i s t hcfg hread
  cases i with
  | decode | format | decodeFromBid | encodeToBid | isnan =>
    have ha : s.a = t.a := hread .a (by decide)
    exact agree_next_drive (by rw [ha])
  | encode =>
    have hlin : s.lin = t.lin := hread .lin (by decide)
    exact agree_next_drive (by rw [hlin])
  | parse => exact execParse_agree hcfg (hread .tin (by decide))
  | add | sub | mul =>
    have ha : s.a = t.a := hread .a (by decide)
    have hb : s.b = t.b := hread .b (by decide)
    exact agree_next_drive (by rw [ha, hb])
  | div => exact execDiv_agree hcfg (hread .a (by decide)) (hread .b (by decide))
  | reservedSeven | reservedHigh low => exact rfl

end Sys2Proof.Machine
end

section
/-!
The opcode map is a bijection (30_encoding.md R56, R57): decoding inverts encoding on every constructor, and
encoding inverts decoding on the sixteen codes.
-/

namespace Sys2Proof

@[simp] theorem decodeOp_encodeOp (i : Instr) : decodeOp (encodeOp i) = i := by
  cases i with
  | reservedHigh low => exact (Laws.Encoding.reservedHigh low).1
  | _ => rfl

@[simp] theorem encodeOp_decodeOp : ∀ code : OpCode, encodeOp (decodeOp code) = code := by decide

/-- Settles O1: the selected row has the code (`encodeOp_decodeOp`), and a row is recovered from its code
(`decodeOp_encodeOp`), so no other row has it. -/
theorem everyCodeSelectsOneRow : Obligations.EveryCodeSelectsOneRow := by
  intro code
  refine ⟨encodeOp_decodeOp code, fun i hi => ?_⟩
  rw [← hi, decodeOp_encodeOp]

end Sys2Proof
end

section
/-!
The logical bus (30_encoding.md R70, R71): what each field of a written bus reads, that reading and writing invert each
other, and which values fit.
-/

namespace Sys2Proof

theorem LD.onBus_iff {x : LD} : x.onBus = true ↔ x.c < 2 ^ 54 ∧ -32768 ≤ x.e ∧ x.e ≤ 32767 := by
  simp only [LD.onBus, Bool.and_eq_true, decide_eq_true_eq, and_assoc]

/-- `CMAX` is below `2^54`, and 16 bits hold every exponent from `EMIN` to `EMAX` (R70). -/
theorem LD.onBus_of_inRange {x : LD} (hx : x.inRange = true) : x.onBus = true := by
  rw [LD.onBus_iff]
  cases hk : x.k with
  | finite =>
    simp only [LD.inRange, hk, Bool.and_eq_true, decide_eq_true_eq, cmax, emin, emax] at hx
    omega
  | infinity | quietNaN | signalingNaN =>
    simp only [LD.inRange, hk, Bool.and_eq_true, decide_eq_true_eq] at hx
    omega

namespace Machine

/-! ### The class code and the two's complement exponent -/

@[simp] theorem classOfCode_classCode (k : Class) : classOfCode (classCode k).toNat = k := by
  cases k <;> rfl

/-- All four class codes are used (R71). -/
theorem classCode_classOfCode : ∀ v < 4, (classCode (classOfCode v)).toNat = v := by decide

theorem signed16_emod {e : Int} (h0 : -32768 ≤ e) (h1 : e ≤ 32767) : signed16 (e % 2 ^ 16).toNat = e := by
  unfold signed16
  split <;> omega

theorem emod_signed16 {v : Nat} (h : v < 2 ^ 16) : (signed16 v % 2 ^ 16).toNat = v := by
  unfold signed16
  split <;> omega

theorem signed16_range {v : Nat} (h : v < 2 ^ 16) : -32768 ≤ signed16 v ∧ signed16 v ≤ 32767 := by
  unfold signed16
  split <;> omega

/-! ### The fields of a bus -/

theorem field_lt {n : Nat} (w : BitVec n) (hi lo : Nat) : field w hi lo < 2 ^ (hi + 1 - lo) :=
  Nat.mod_lt _ (by positivity)

/-- Nothing stands above the sign (R70). -/
theorem field_sign (v : Bus) : field v 72 72 = v.toNat / 2 ^ 72 := by
  have := v.isLt
  unfold field
  omega

/-- The four fields are the whole bus (R70). -/
theorem bus_toNat_eq_fields (v : Bus) :
    v.toNat = field v 72 72 * 2 ^ 72 + field v 71 70 * 2 ^ 70 + field v 69 16 * 2 ^ 16 + field v 15 0 := by
  have := v.isLt
  unfold field
  omega

/-- Each field of a written bus holds its part of the value (R70, R71). -/
theorem field_toBus {x : LD} (hx : x.onBus = true) :
    field (toBus x) 72 72 = (if x.s then 1 else 0) ∧ field (toBus x) 71 70 = (classCode x.k).toNat ∧
    field (toBus x) 69 16 = x.c ∧ field (toBus x) 15 0 = (x.e % 2 ^ 16).toNat := by
  have hc := (LD.onBus_iff.1 hx).1
  have hk := (classCode x.k).isLt
  unfold field
  rw [toBus_toNat hx]
  split <;> omega

/-! ### Reading and writing invert each other -/

theorem ofBus_toBus {x : LD} (hx : x.onBus = true) : ofBus (toBus x) = x := by
  obtain ⟨hs, hk, hc, he⟩ := field_toBus hx
  obtain ⟨-, he0, he1⟩ := LD.onBus_iff.1 hx
  unfold ofBus
  rw [hs, hk, hc, he, classOfCode_classCode, signed16_emod he0 he1]
  cases x with
  | mk s k c e => cases s <;> rfl

theorem ofBus_onBus (v : Bus) : (ofBus v).onBus = true :=
  LD.onBus_iff.2 ⟨field_lt v 69 16, signed16_range (field_lt v 15 0)⟩

theorem toBus_ofBus (v : Bus) : toBus (ofBus v) = v := by
  apply BitVec.eq_of_toNat_eq
  have hs : (if (ofBus v).s then 2 ^ 72 else 0) = field v 72 72 * 2 ^ 72 := by
    have hlt : field v 72 72 < 2 := field_lt v 72 72
    simp only [ofBus, beq_iff_eq]
    split <;> omega
  have hk : (classCode (ofBus v).k).toNat = field v 71 70 := classCode_classOfCode _ (field_lt v 71 70)
  have he : ((ofBus v).e % 2 ^ 16).toNat = field v 15 0 := emod_signed16 (field_lt v 15 0)
  rw [toBus_toNat (ofBus_onBus v), hs, hk, he]
  exact (bus_toNat_eq_fields v).symm

/-- Settles O26: the fields of a written bus (`field_toBus`), the two round trips, and that in-range values fit. -/
theorem busCarriesTheFourFields : Obligations.BusCarriesTheFourFields := by
  refine ⟨fun x hx => ?_, fun _ => LD.onBus_of_inRange, fun v => ⟨ofBus_onBus v, toBus_ofBus v⟩⟩
  obtain ⟨hs, hk, hc, he⟩ := field_toBus hx
  refine ⟨(field_sign _).symm.trans hs, hk.trans (by cases x.k <;> rfl), hc, ?_, ofBus_toBus hx⟩
  simp only [field, pow_zero, Nat.div_one] at he
  omega

end Machine
end Sys2Proof
end

section
/-!
The codec (40_codec.md): the decoder, form by form, on a word's bits and on its number; that decoded values are in range; and
that packing and decoding invert each other on in-range values and canonical words.
-/

namespace Sys2Proof

/-! ### In-range values (R21) -/

theorem LD.inRange_finite_iff {x : LD} (hk : x.k = .finite) :
    x.inRange = true ↔ x.c ≤ cmax ∧ emin ≤ x.e ∧ x.e ≤ emax := by
  simp only [LD.inRange, hk, Bool.and_eq_true, decide_eq_true_eq, and_assoc]

/-- The in-range values, class by class (R21). -/
theorem LD.inRange_cases {x : LD} (hx : x.inRange = true) :
    (∃ s c e, x = ⟨s, .finite, c, e⟩ ∧ c ≤ cmax ∧ emin ≤ e ∧ e ≤ emax) ∨ (∃ s, x = ⟨s, .infinity, 0, 0⟩) ∨
      (∃ s, x = ⟨s, .quietNaN, 0, 0⟩) ∨ ∃ s, x = ⟨s, .signalingNaN, 0, 0⟩ := by
  obtain ⟨s, k, c, e⟩ := x
  cases k with
  | finite => exact .inl ⟨s, c, e, rfl, (LD.inRange_finite_iff rfl).1 hx⟩
  | infinity | quietNaN | signalingNaN =>
    obtain ⟨rfl, rfl⟩ : c = 0 ∧ e = 0 := by simpa [LD.inRange] using hx
    simp

namespace Machine

/-! ### The class of a word by its bits (R192) -/

theorem classify_finite {w : Word} (h : w.toNat / 2 ^ 59 % 16 ≠ 15) : classify w = .finite :=
  if_neg h

theorem classify_infinity {w : Word} (h : w.toNat / 2 ^ 58 % 32 = 30) : classify w = .infinity := by
  unfold classify field
  rw [if_pos (by omega), if_pos (by omega)]

theorem classify_quietNaN {w : Word} (h : w.toNat / 2 ^ 57 % 64 = 62) : classify w = .quietNaN := by
  unfold classify field
  rw [if_pos (by omega), if_neg (by omega), if_neg (by omega)]

theorem classify_signalingNaN {w : Word} (h : w.toNat / 2 ^ 57 % 64 = 63) : classify w = .signalingNaN := by
  unfold classify field
  rw [if_pos (by omega), if_neg (by omega), if_pos (by omega)]

/-! ### The decoder, form by form, on a word's bits (R80) -/

/-- The sign of a word (R61). -/
def signOf (w : Word) : Bool := field w 63 63 == 1

theorem signOf_toNat (w : Word) : (signOf w).toNat = w.toNat / 2 ^ 63 := by
  have hlt := w.isLt
  unfold signOf field
  obtain h | h : w.toNat / 2 ^ 63 = 0 ∨ w.toNat / 2 ^ 63 = 1 := by omega
  all_goals rw [h]; rfl

theorem signOf_eq_iff {w : Word} {s : Bool} : signOf w = s ↔ w.toNat / 2 ^ 63 = s.toNat := by
  rw [← signOf_toNat]
  cases signOf w <;> cases s <;> decide

theorem bidDecode_infinity {w : Word} (h : w.toNat / 2 ^ 58 % 32 = 30) : bidDecode w = ⟨signOf w, .infinity, 0, 0⟩ := by
  simp only [bidDecode, classify_infinity h, signOf]

theorem bidDecode_quietNaN {w : Word} (h : w.toNat / 2 ^ 57 % 64 = 62) : bidDecode w = ⟨signOf w, .quietNaN, 0, 0⟩ := by
  simp only [bidDecode, classify_quietNaN h, signOf]

theorem bidDecode_signalingNaN {w : Word} (h : w.toNat / 2 ^ 57 % 64 = 63) :
    bidDecode w = ⟨signOf w, .signalingNaN, 0, 0⟩ := by
  simp only [bidDecode, classify_signalingNaN h, signOf]

theorem bidDecode_form1 {w : Word} (h : w.toNat / 2 ^ 61 % 4 ≠ 3) :
    bidDecode w = ⟨signOf w, .finite, w.toNat % 2 ^ 53, (w.toNat / 2 ^ 53 % 2 ^ 10 : Nat) - 398⟩ := by
  simp only [bidDecode, classify_finite (w := w) (by omega)]
  rw [if_neg (show ¬ field w 62 61 = 3 from h)]
  change finiteOfFields (signOf w) (w.toNat / 2 ^ 53 % 2 ^ 10) (w.toNat / 2 ^ 0 % 2 ^ 53) = _
  rw [pow_zero, Nat.div_one, finiteOfFields, if_neg (by simp only [cmax]; omega)]

theorem bidDecode_form2 {w : Word} (h : w.toNat / 2 ^ 61 % 4 = 3) (h' : w.toNat / 2 ^ 59 % 4 ≠ 3) :
    bidDecode w = ⟨signOf w, .finite, if 992800745259007 < w.toNat % 2 ^ 51 then 0 else 2 ^ 53 + w.toNat % 2 ^ 51,
      (w.toNat / 2 ^ 51 % 2 ^ 10 : Nat) - 398⟩ := by
  simp only [bidDecode, classify_finite (w := w) (by omega)]
  rw [if_pos (show field w 62 61 = 3 from h)]
  change finiteOfFields (signOf w) (w.toNat / 2 ^ 51 % 2 ^ 10) (2 ^ 53 + w.toNat / 2 ^ 0 % 2 ^ 51) = _
  rw [pow_zero, Nat.div_one, finiteOfFields]
  congr 1
  exact if_congr (by simp only [cmax]; omega) rfl rfl

/-- Every word is of one of the five forms (R62 to R66). -/
theorem word_forms (w : Word) :
    w.toNat / 2 ^ 61 % 4 ≠ 3 ∨ (w.toNat / 2 ^ 61 % 4 = 3 ∧ w.toNat / 2 ^ 59 % 4 ≠ 3) ∨
      w.toNat / 2 ^ 58 % 32 = 30 ∨ w.toNat / 2 ^ 57 % 64 = 62 ∨ w.toNat / 2 ^ 57 % 64 = 63 := by
  omega

/-- The stored exponent of a finite word is below 768, and a significand above CMAX reads as 0 (R81). -/
theorem bidDecode_inRange (w : Word) : (bidDecode w).inRange = true := by
  rcases word_forms w with h | ⟨h, h'⟩ | h | h | h
  · rw [bidDecode_form1 h, LD.inRange_finite_iff rfl]
    simp only [cmax, emin, emax]
    omega
  · rw [bidDecode_form2 h h', LD.inRange_finite_iff rfl]
    simp only [cmax, emin, emax]
    split <;> omega
  · rw [bidDecode_infinity h]; rfl
  · rw [bidDecode_quietNaN h]; rfl
  · rw [bidDecode_signalingNaN h]; rfl

/-- Settles O20, form by form (`bidDecode_inRange`). -/
theorem decoderOutputIsInRange : Obligations.DecoderOutputIsInRange := bidDecode_inRange

theorem signOf_congr {v w : Word} (h : v.toNat / 2 ^ 63 = w.toNat / 2 ^ 63) : signOf v = signOf w := by
  rw [signOf_eq_iff, h, signOf_toNat]

/-- Settles O21: the decoder's value of each form (`bidDecode_infinity` and its likes) is written with the kept bits alone. -/
theorem discardedBitsDoNotMatter : Obligations.DiscardedBitsDoNotMatter := by
  intro v w
  refine ⟨fun hv hvw => ?_, fun hv hvw => ?_, fun hv hv' hvw hcv hcw => ?_⟩
  · have hs : signOf v = signOf w := signOf_congr (by omega)
    obtain hq | hq : v.toNat / 2 ^ 57 % 64 = 62 ∨ v.toNat / 2 ^ 57 % 64 = 63 := by omega
    · rw [bidDecode_quietNaN hq, bidDecode_quietNaN (hvw ▸ hq), hs]
    · rw [bidDecode_signalingNaN hq, bidDecode_signalingNaN (hvw ▸ hq), hs]
  · have hs : signOf v = signOf w := signOf_congr (by omega)
    rw [bidDecode_infinity hv, bidDecode_infinity (hvw ▸ hv), hs]
  · have hs : signOf v = signOf w := signOf_congr (by omega)
    rw [bidDecode_form2 hv hv', bidDecode_form2 (w := w) (by omega) (by omega), if_pos hcv, if_pos hcw, hvw, hs]

/-! ### The decoder on a word's number (R61 to R65) -/

theorem signWeight_eq (s : Bool) : signWeight s = s.toNat * 2 ^ 63 := by
  cases s <;> rfl

/-- The weight of the sign bit is all that a word has above `2^63` (R61). -/
theorem signOf_eq {w : Word} {s : Bool} {m : Nat} (hm : m < 2 ^ 63) (hw : w.toNat = signWeight s + m) : signOf w = s := by
  rw [signWeight_eq] at hw
  rw [signOf_eq_iff]
  omega

theorem bidDecode_form1_toNat {w : Word} {s : Bool} {eb c : Nat} (heb : eb < 768) (hc : c < 2 ^ 53)
    (hw : w.toNat = signWeight s + eb * 2 ^ 53 + c) : bidDecode w = ⟨s, .finite, c, (eb : Int) - 398⟩ := by
  have hs : signOf w = s := signOf_eq (m := eb * 2 ^ 53 + c) (by omega) (by omega)
  rw [signWeight_eq] at hw
  rw [bidDecode_form1 (by omega), hs, show w.toNat % 2 ^ 53 = c by omega,
    show w.toNat / 2 ^ 53 % 2 ^ 10 = eb by omega]

theorem bidDecode_form2_toNat {w : Word} {s : Bool} {eb f : Nat} (heb : eb < 768) (hf : f < 2 ^ 51)
    (hw : w.toNat = signWeight s + 3 * 2 ^ 61 + eb * 2 ^ 51 + f) :
    bidDecode w = ⟨s, .finite, if 992800745259007 < f then 0 else 2 ^ 53 + f, (eb : Int) - 398⟩ := by
  have hs : signOf w = s := signOf_eq (m := 3 * 2 ^ 61 + eb * 2 ^ 51 + f) (by omega) (by omega)
  rw [signWeight_eq] at hw
  rw [bidDecode_form2 (by omega) (by omega), hs, show w.toNat % 2 ^ 51 = f by omega,
    show w.toNat / 2 ^ 51 % 2 ^ 10 = eb by omega]

theorem bidDecode_infinity_toNat {w : Word} {s : Bool} {r : Nat} (hr : r < 2 ^ 58)
    (hw : w.toNat = signWeight s + 30 * 2 ^ 58 + r) : bidDecode w = ⟨s, .infinity, 0, 0⟩ := by
  have hs : signOf w = s := signOf_eq (m := 30 * 2 ^ 58 + r) (by omega) (by omega)
  rw [signWeight_eq] at hw
  rw [bidDecode_infinity (by omega), hs]

theorem bidDecode_quietNaN_toNat {w : Word} {s : Bool} {r : Nat} (hr : r < 2 ^ 57)
    (hw : w.toNat = signWeight s + 62 * 2 ^ 57 + r) : bidDecode w = ⟨s, .quietNaN, 0, 0⟩ := by
  have hs : signOf w = s := signOf_eq (m := 62 * 2 ^ 57 + r) (by omega) (by omega)
  rw [signWeight_eq] at hw
  rw [bidDecode_quietNaN (by omega), hs]

theorem bidDecode_signalingNaN_toNat {w : Word} {s : Bool} {r : Nat} (hr : r < 2 ^ 57)
    (hw : w.toNat = signWeight s + 63 * 2 ^ 57 + r) : bidDecode w = ⟨s, .signalingNaN, 0, 0⟩ := by
  have hs : signOf w = s := signOf_eq (m := 63 * 2 ^ 57 + r) (by omega) (by omega)
  rw [signWeight_eq] at hw
  rw [bidDecode_signalingNaN (by omega), hs]

/-- DECODE drives the bus of the value the word decodes to (R83). -/
theorem exec_decode_of_bidDecode {s : State} {x : LD} (h : bidDecode s.a = x) :
    exec .decode s = .next { s with res := none, lres := some (toBus x), tout := none, flag := none } :=
  h ▸ rfl

/-- Settles O27: DECODE drives the decoded value, which is that of the word's form. -/
theorem decodeGivesTheFieldsOfTheWord : Obligations.DecodeGivesTheFieldsOfTheWord := by
  intro s sg
  refine ⟨fun eb c heb hc hw => ?_, fun eb f heb hf hw => ?_, fun r hr hw => ?_, fun r hr hw => ?_, fun r hr hw => ?_⟩
  · exact exec_decode_of_bidDecode (bidDecode_form1_toNat heb hc hw)
  · refine exec_decode_of_bidDecode ((bidDecode_form2_toNat heb hf hw).trans ?_)
    congr 1
    split <;> split <;> omega
  · exact exec_decode_of_bidDecode (bidDecode_infinity_toNat hr hw)
  · exact exec_decode_of_bidDecode (bidDecode_quietNaN_toNat hr hw)
  · exact exec_decode_of_bidDecode (bidDecode_signalingNaN_toNat hr hw)

/-! ### The encoder, form by form (R87) -/

/-- Below `2^53` the packed word is of form 1 (R62). -/
theorem bidPack_form1_toNat {s : Bool} {c : Nat} {e : Int} (hc : c < 2 ^ 53) (he : emin ≤ e ∧ e ≤ emax) :
    (bidPack ⟨s, .finite, c, e⟩).toNat = signWeight s + (e + 398).toNat * 2 ^ 53 + c := by
  have hx : (LD.mk s .finite c e).inRange = true := (LD.inRange_finite_iff rfl).2 ⟨by dsimp only [cmax]; omega, he⟩
  rw [bidPack_finite_toNat rfl hx, if_pos hc, Nat.add_assoc]
  rfl

/-- From `2^53` on the packed word is of form 2 (R63). -/
theorem bidPack_form2_toNat {s : Bool} {c : Nat} {e : Int} (hc : 2 ^ 53 ≤ c) (hc' : c ≤ cmax) (he : emin ≤ e ∧ e ≤ emax) :
    (bidPack ⟨s, .finite, c, e⟩).toNat = signWeight s + 3 * 2 ^ 61 + (e + 398).toNat * 2 ^ 51 + (c - 2 ^ 53) := by
  have hx : (LD.mk s .finite c e).inRange = true := (LD.inRange_finite_iff rfl).2 ⟨hc', he⟩
  rw [bidPack_finite_toNat rfl hx, if_neg (Nat.not_lt.2 hc), ← Nat.add_assoc, ← Nat.add_assoc]
  rfl

theorem bidPack_infinity (s : Bool) (c : Nat) (e : Int) : bidPack ⟨s, .infinity, c, e⟩ = infinityWord s :=
  (bidPack_special s c e).1

theorem bidPack_quietNaN (s : Bool) (c : Nat) (e : Int) : bidPack ⟨s, .quietNaN, c, e⟩ = quietNaNWord s :=
  (bidPack_special s c e).2.1

theorem bidPack_signalingNaN (s : Bool) (c : Nat) (e : Int) : bidPack ⟨s, .signalingNaN, c, e⟩ = signalingNaNWord s :=
  (bidPack_special s c e).2.2

theorem infinityWord_toNat (s : Bool) : (infinityWord s).toNat = signWeight s + 30 * 2 ^ 58 := by
  cases s <;> rfl

theorem quietNaNWord_toNat (s : Bool) : (quietNaNWord s).toNat = signWeight s + 62 * 2 ^ 57 := by
  cases s <;> rfl

theorem signalingNaNWord_toNat (s : Bool) : (signalingNaNWord s).toNat = signWeight s + 63 * 2 ^ 57 := by
  cases s <;> rfl

/-! ### Packing and decoding invert each other (R93) -/

/-- A packed in-range value decodes to itself. -/
theorem bidDecode_bidPack {x : LD} (hx : x.inRange = true) : bidDecode (bidPack x) = x := by
  rcases LD.inRange_cases hx with ⟨s, c, e, rfl, hc, he⟩ | ⟨s, rfl⟩ | ⟨s, rfl⟩ | ⟨s, rfl⟩
  · have heb : (e + 398).toNat < 768 ∧ ((e + 398).toNat : Int) - 398 = e := by
      simp only [emin, emax] at he
      omega
    rcases Nat.lt_or_ge c (2 ^ 53) with hc1 | hc2
    · rw [bidDecode_form1_toNat heb.1 hc1 (bidPack_form1_toNat hc1 he), heb.2]
    · have hf : ¬ 992800745259007 < c - 2 ^ 53 := by simp only [cmax] at hc; omega
      rw [bidDecode_form2_toNat heb.1 (by omega) (bidPack_form2_toNat hc2 hc he), heb.2, if_neg hf,
        Nat.add_sub_cancel' hc2]
  · exact bidDecode_infinity_toNat (r := 0) (by decide) (by rw [bidPack_infinity, infinityWord_toNat, Nat.add_zero])
  · exact bidDecode_quietNaN_toNat (r := 0) (by decide) (by rw [bidPack_quietNaN, quietNaNWord_toNat, Nat.add_zero])
  · exact bidDecode_signalingNaN_toNat (r := 0) (by decide) (by rw [bidPack_signalingNaN, signalingNaNWord_toNat, Nat.add_zero])

theorem bidPack_injective {x y : LD} (hx : x.inRange = true) (hy : y.inRange = true) (h : bidPack x = bidPack y) : x = y := by
  rw [← bidDecode_bidPack hx, h, bidDecode_bidPack hy]

/-- A packed finite value is of form 1 exactly when its significand is below `2^53` (R88). -/
theorem bidPack_form1_iff {s : Bool} {c : Nat} {e : Int} (hc : c ≤ cmax) (he : emin ≤ e ∧ e ≤ emax) :
    (bidPack ⟨s, .finite, c, e⟩).toNat / 2 ^ 61 % 4 ≠ 3 ↔ c < 2 ^ 53 := by
  have hE : (e + 398).toNat < 768 := by simp only [emin, emax] at he; omega
  simp only [cmax] at hc
  rcases Nat.lt_or_ge c (2 ^ 53) with hc1 | hc2
  · rw [bidPack_form1_toNat hc1 he, signWeight_eq]
    omega
  · rw [bidPack_form2_toNat hc2 hc he, signWeight_eq]
    omega

theorem canonicalWord_bidPack {x : LD} (hx : x.inRange = true) : CanonicalWord (bidPack x) := by
  rcases LD.inRange_cases hx with ⟨s, c, e, rfl, hc, he⟩ | ⟨s, rfl⟩ | ⟨s, rfl⟩ | ⟨s, rfl⟩
  · rcases Nat.lt_or_ge c (2 ^ 53) with hc1 | hc2
    · exact .inl ((bidPack_form1_iff hc he).2 hc1)
    · refine .inr (.inl ?_)
      rw [bidPack_form2_toNat hc2 hc he, signWeight_eq]
      simp only [cmax, emin, emax] at hc he
      omega
  · refine .inr (.inr (.inl ?_))
    rw [bidPack_infinity, infinityWord_toNat, signWeight_eq]
    omega
  · refine .inr (.inr (.inr ?_))
    rw [bidPack_quietNaN, quietNaNWord_toNat, signWeight_eq]
    omega
  · refine .inr (.inr (.inr ?_))
    rw [bidPack_signalingNaN, signalingNaNWord_toNat, signWeight_eq]
    omega

/-- A canonical word is the packing of its decoded value. -/
theorem bidPack_bidDecode {w : Word} (hw : CanonicalWord w) : bidPack (bidDecode w) = w := by
  have hs : signWeight (signOf w) = w.toNat / 2 ^ 63 * 2 ^ 63 := by rw [signWeight_eq, signOf_toNat]
  apply BitVec.eq_of_toNat_eq
  obtain h | ⟨h, h', hf⟩ | ⟨h, h0⟩ | ⟨h, h0⟩ := hw
  · rw [bidDecode_form1 h, bidPack_form1_toNat (by omega) (by simp only [emin, emax]; omega), hs]
    omega
  · rw [bidDecode_form2 h h', if_neg (Nat.not_lt.2 hf),
      bidPack_form2_toNat (by omega) (by simp only [cmax]; omega) (by simp only [emin, emax]; omega), hs]
    omega
  · rw [bidDecode_infinity h, bidPack_infinity, infinityWord_toNat, hs]
    omega
  · obtain hq | hq : w.toNat / 2 ^ 57 % 64 = 62 ∨ w.toNat / 2 ^ 57 % 64 = 63 := by omega
    · rw [bidDecode_quietNaN hq, bidPack_quietNaN, quietNaNWord_toNat, hs]
      omega
    · rw [bidDecode_signalingNaN hq, bidPack_signalingNaN, signalingNaNWord_toNat, hs]
      omega

/-- Decoding and packing give exactly the canonical words back (R92). -/
theorem bidPack_bidDecode_iff {w : Word} : bidPack (bidDecode w) = w ↔ CanonicalWord w :=
  ⟨fun h => h ▸ canonicalWord_bidPack (bidDecode_inRange w), bidPack_bidDecode⟩

/-- Settles O23: the round trips of values (`bidDecode_bidPack`) and of words (`bidPack_bidDecode_iff`); the interchange
operations copy the word. -/
theorem codecRoundTrips : Obligations.CodecRoundTrips :=
  ⟨fun _ => bidDecode_bidPack, fun _ => bidPack_bidDecode, fun _ => mt bidPack_bidDecode_iff.1,
    fun s => ⟨s.drive (.res s.a), _, s.a, rfl, rfl, rfl, rfl⟩⟩

/-- Settles O22: words of canonical form are given back, and a packed decoded value is of canonical form
(`bidPack_bidDecode_iff`). -/
theorem canonicalWordsAreThoseListed : Obligations.CanonicalWordsAreThoseListed := fun _ => bidPack_bidDecode_iff

/-- Settles O24: the packed word is the only canonical one of its value, because a canonical word is recovered from its
value. -/
theorem encoderChoosesOneForm : Obligations.EncoderChoosesOneForm := by
  refine ⟨fun x hx hk => ⟨?_, ⟨canonicalWord_bidPack hx, bidDecode_bidPack hx⟩, fun v hv hvx => ?_⟩,
    fun _ _ => bidPack_injective⟩
  · obtain ⟨hc, he⟩ := (LD.inRange_finite_iff hk).1 hx
    obtain ⟨s, k, c, e⟩ := x
    cases hk
    exact bidPack_form1_iff hc he
  · rw [← hvx, bidPack_bidDecode hv]

/-! ### What the encoding operations drive -/

/-- Settles O29: either operation drives the word on `A`. -/
theorem interchangeOperationsAreIdentities : Obligations.InterchangeOperationsAreIdentities := by
  rintro s i (rfl | rfl)
  · rfl
  · rfl

/-- An in-range value is its own rounding: no digit is dropped and no exponent is clamped (R144). -/
theorem finalize_of_inRange {s : Bool} {c : Nat} {e : Int} (hc : c ≤ cmax) (he : emin ≤ e ∧ e ≤ emax) :
    finalize s c e false = ⟨s, .finite, c, e⟩ := by
  have hd : dropCount c e = 0 := by
    have := ndig_le_precision.2 hc
    unfold dropCount
    omega
  unfold finalize
  split
  · rename_i h
    rw [h.1, clamp, max_eq_left he.1, min_eq_left he.2]
  · rw [roundToWidth, if_pos hd, fitExponent, if_neg (not_lt.2 he.2)]

/-- Settles O28: ENCODE packs the rounded value of a finite bus value, which is the value itself when in range
(`finalize_of_inRange`), and the class and sign of any other. -/
theorem encodePacksTheBusValue : Obligations.EncodePacksTheBusValue := by
  intro s
  refine ⟨bidPack (encodable (ofBus s.lin)), rfl, fun sg c e h => ?_, fun sg c e h => ?_, fun sg c e h => ?_,
    fun sg c e h => ?_⟩ <;> simp only [h, encodable]
  · refine ⟨trivial, fun hc he0 he1 => ?_, fun hc hc' he0 he1 => ?_⟩
    · rw [finalize_of_inRange (by simp only [cmax]; omega) ⟨he0, he1⟩, bidPack_form1_toNat hc ⟨he0, he1⟩]
      omega
    · rw [finalize_of_inRange hc' ⟨he0, he1⟩, bidPack_form2_toNat hc hc' ⟨he0, he1⟩]
      omega
  · exact bidPack_infinity ..
  · exact bidPack_quietNaN ..
  · exact bidPack_signalingNaN ..

end Machine
end Sys2Proof
end

section
/-!
Results (40_codec.md R94): every operation but the two interchange operations drives `RES` with the packing of an in-range
value, which is a signalling NaN only when ENCODE is given one.
-/

namespace Sys2Proof

/-- What an arithmetic operation or PARSE gives `pack`: an in-range value that is no signalling NaN (R85, R94). -/
def LD.IsResult (x : LD) : Prop := x.inRange = true ∧ x.k ≠ .signalingNaN

theorem LD.isResult_infinity (s : Bool) : (LD.mk s .infinity 0 0).IsResult := ⟨rfl, by simp⟩

theorem LD.isResult_quietNaN (s : Bool) : (LD.mk s .quietNaN 0 0).IsResult := ⟨rfl, by simp⟩

namespace Machine

/-! ### The rounding engine and the special cases of arithmetic -/

/-- The engine's result is in range (R144). -/
theorem finalize_inRange (s : Bool) (C : Nat) (E : Int) (sticky : Bool) : (finalize s C E sticky).inRange = true := by
  unfold finalize
  split
  · rw [LD.inRange_finite_iff rfl]
    dsimp only [clamp, cmax, emin, emax]
    omega
  · obtain ⟨hq, hE⟩ := roundToWidth_spec C E sticky
    exact fitExponent_inRange hq hE

theorem finalize_isResult (s : Bool) (C : Nat) (E : Int) (sticky : Bool) : (finalize s C E sticky).IsResult := by
  refine ⟨finalize_inRange .., ?_⟩
  obtain h | h := finalize_class s C E sticky
  · simp [h]
  · simp [h]

theorem qnanInvalid_isResult : qnanInvalid.IsResult := LD.isResult_quietNaN false

/-- A NaN operand gives a quiet NaN (R157). -/
theorem nanOperand_isResult {x y r : LD} (h : nanOperand x y = some r) : r.IsResult := by
  unfold nanOperand at h
  split_ifs at h <;> cases h <;> exact LD.isResult_quietNaN _

theorem infinityAdd_isResult {x y r : LD} {sy : Bool} (h : infinityAdd x y sy = some r) : r.IsResult := by
  unfold infinityAdd at h
  split_ifs at h <;> cases h
  · exact LD.isResult_infinity _
  · exact qnanInvalid_isResult
  · exact LD.isResult_infinity _
  · exact LD.isResult_infinity _

theorem infinityMul_isResult {x y r : LD} (h : infinityMul x y = some r) : r.IsResult := by
  unfold infinityMul at h
  split_ifs at h <;> cases h
  · exact qnanInvalid_isResult
  · exact LD.isResult_infinity _

/-- The parameter's exponent is in range (R7, R175). -/
theorem divByInfZeroExp_range (cfg : Config) : emin ≤ cfg.divByInfZeroExp ∧ cfg.divByInfZeroExp ≤ emax := by
  have := cfg.divByInfZeroBiased.isLt
  simp only [Config.divByInfZeroExp, bias, emin, emax]
  omega

theorem infinityDiv_isResult {cfg : Config} {x y r : LD} (h : infinityDiv cfg x y = some r) : r.IsResult := by
  unfold infinityDiv at h
  split_ifs at h <;> cases h
  · exact qnanInvalid_isResult
  · exact LD.isResult_infinity _
  · exact ⟨(LD.inRange_finite_iff rfl).2 ⟨Nat.zero_le _, divByInfZeroExp_range cfg⟩, by simp⟩
  · exact qnanInvalid_isResult
  · exact LD.isResult_infinity _

/-! ### The operations on logical values -/

/-- The precedence of R156: a NaN step, a special case or the finite result. -/
theorem precedence_isResult {x y r : LD} {special : Option LD} (hs : ∀ q, special = some q → q.IsResult)
    (hr : r.IsResult) : (((nanOperand x y).or special).getD r).IsResult := by
  cases hn : nanOperand x y with
  | some q => exact nanOperand_isResult hn
  | none =>
    cases special with
    | some q => exact hs q rfl
    | none => exact hr

theorem addCore_isResult (x y : LD) (sy : Bool) : (addCore x y sy).IsResult := by
  unfold addCore
  split <;> exact finalize_isResult ..

theorem addLogical_isResult (x y : LD) : (addLogical x y).IsResult :=
  precedence_isResult (fun _ => infinityAdd_isResult) (addCore_isResult ..)

theorem subLogical_isResult (x y : LD) : (subLogical x y).IsResult :=
  precedence_isResult (fun _ => infinityAdd_isResult) (addCore_isResult ..)

theorem mulLogical_isResult (x y : LD) : (mulLogical x y).IsResult :=
  precedence_isResult (fun _ => infinityMul_isResult) (finalize_isResult ..)

theorem finalizeChecked_isResult {s : Bool} {C : Nat} {E : Int} {sticky : Bool} {r : LD}
    (h : finalizeChecked s C E sticky = .ok r) : r.IsResult := by
  unfold finalizeChecked at h
  split at h <;> cases h
  exact finalize_isResult ..

theorem divFinite_isResult {x y r : LD} (h : divFinite x y = .ok r) : r.IsResult := by
  unfold divFinite at h
  split at h
  · cases h
    exact finalize_isResult ..
  · split at h
    · cases h
      exact finalize_isResult ..
    · exact finalizeChecked_isResult h

theorem divLogical_isResult {cfg : Config} {x y r : LD} (h : divLogical cfg x y = .ok r) : r.IsResult := by
  unfold divLogical at h
  split at h
  · rename_i q hq
    cases h
    obtain hn | ⟨-, hi⟩ := Option.or_eq_some_iff.1 hq
    · exact nanOperand_isResult hn
    · exact infinityDiv_isResult hi
  · exact divFinite_isResult h

/-- The tokens are those of quiet NaNs and Infinities (R108, R113). -/
theorem parseSpecial_class {t : List Byte} {k : Class} (h : parseSpecial t = some k) : k = .quietNaN ∨ k = .infinity := by
  unfold parseSpecial at h
  split_ifs at h <;> cases h
  · exact .inl rfl
  · exact .inr rfl

theorem parseText_isResult (t : List Byte) : (parseText t).IsResult := by
  unfold parseText
  split
  · exact finalize_isResult ..
  · split
    · rename_i k hk
      obtain rfl | rfl := parseSpecial_class hk
      · exact LD.isResult_quietNaN _
      · exact LD.isResult_infinity _
    · exact LD.isResult_quietNaN _

/-! ### ENCODE -/

theorem encodable_inRange (x : LD) : (encodable x).inRange = true := by
  unfold encodable
  split
  · exact finalize_inRange ..
  all_goals rfl

/-- ENCODE packs a signalling NaN exactly when it is given one (R89). -/
theorem encodable_signalingNaN_iff {x : LD} : (encodable x).k = .signalingNaN ↔ x.k = .signalingNaN := by
  unfold encodable
  split
  · rename_i h
    simpa [h] using (finalize_isResult x.s x.c x.e false).2
  all_goals
    rename_i h
    simp [h]

/-! ### Every operation -/

/-- A result on `RES` is the packing of a value, a signalling NaN from ENCODE only (R94). -/
theorem exec_res {i : Instr} {s t : State} {w : Word} (hd : i ≠ .decodeFromBid) (he : i ≠ .encodeToBid)
    (h : exec i s = .next t) (hw : t.res = some w) :
    ∃ x, w = bidPack x ∧ (x.IsResult ∨ i = .encode ∧ x = encodable (ofBus s.lin)) := by
  cases i with
  | decode | format | isnan => cases h; cases hw
  | reservedSeven | reservedHigh low => cases h
  | decodeFromBid => exact absurd rfl hd
  | encodeToBid => exact absurd rfl he
  | encode =>
    cases h; cases hw
    exact ⟨_, rfl, .inr ⟨rfl, rfl⟩⟩
  | parse =>
    simp only [exec, execParse] at h
    split at h
    · cases h
    · cases h; cases hw
      exact ⟨_, rfl, .inl (parseText_isResult _)⟩
  | add =>
    cases h; cases hw
    exact ⟨_, rfl, .inl (addLogical_isResult ..)⟩
  | sub =>
    cases h; cases hw
    exact ⟨_, rfl, .inl (subLogical_isResult ..)⟩
  | mul =>
    cases h; cases hw
    exact ⟨_, rfl, .inl (mulLogical_isResult ..)⟩
  | div =>
    simp only [exec, execDiv] at h
    split at h
    · rename_i r hr
      cases h; cases hw
      exact ⟨r, rfl, .inl (divLogical_isResult hr)⟩
    · cases h

/-- Settles O31: a result is packed from an in-range value (`exec_res`), so it is canonical and decodes to that value. -/
theorem resultWordsAreCanonical : Obligations.ResultWordsAreCanonical := by
  refine ⟨fun i s t w hd he h hw => ?_, fun s hs => ?_⟩
  · obtain ⟨x, rfl, ⟨hx, hk⟩ | ⟨hi, rfl⟩⟩ := exec_res hd he h hw
    · rw [bidDecode_bidPack hx]
      exact ⟨canonicalWord_bidPack hx, fun hsn => absurd hsn hk⟩
    · rw [bidDecode_bidPack (encodable_inRange _)]
      exact ⟨canonicalWord_bidPack (encodable_inRange _), fun hsn => ⟨hi, encodable_signalingNaN_iff.1 hsn⟩⟩
  · refine ⟨_, _, rfl, rfl, ?_⟩
    rw [bidDecode_bidPack (encodable_inRange _)]
    exact encodable_signalingNaN_iff.2 hs

end Machine
end Sys2Proof
end

section
/-!
The parser follows the grammar (41_parser.md R101 to R109): each scanner takes exactly the part of a text its nonterminal
names, so `parseNumeral` and `parseSpecial` decide the grammar of what is left after the sign.
-/

namespace Sys2Proof.Machine

/-! ### Digits -/

theorem isDigit_iff {b : Byte} : isDigit b = true ↔ 0x30 ≤ b.toNat ∧ b.toNat ≤ 0x39 := by
  simp only [isDigit, Bool.and_eq_true, decide_eq_true_eq]

/-- The text does not go on with a digit. -/
def EndsDigits (t : List Byte) : Prop := ∀ b ∈ t.head?, isDigit b = false

theorem takeDigits_append {ds rest : List Byte} (hds : DigitText ds) (hrest : EndsDigits rest) :
    takeDigits (ds ++ rest) = (ds, rest) := by
  induction ds with
  | nil =>
    cases rest with
    | nil => rfl
    | cons b t =>
      have hb : isDigit b = false := hrest b rfl
      simp [takeDigits, hb]
  | cons d ds ih =>
    obtain ⟨hd, hds⟩ := List.forall_mem_cons.1 hds
    simp [takeDigits, isDigit_iff.2 hd, ih hds]

/-- A text of digits is taken whole. -/
theorem takeDigits_of_digitText {ds : List Byte} (hds : DigitText ds) : takeDigits ds = (ds, []) := by
  simpa using takeDigits_append hds (rest := []) (by simp [EndsDigits])

/-- A text that starts with no digit keeps everything. -/
theorem takeDigits_of_endsDigits {t : List Byte} (ht : EndsDigits t) : takeDigits t = ([], t) :=
  takeDigits_append (ds := []) (by simp [DigitText]) ht

theorem takeDigits_spec (t : List Byte) : DigitText (takeDigits t).1 ∧ t = (takeDigits t).1 ++ (takeDigits t).2 := by
  induction t with
  | nil => simp [takeDigits, DigitText]
  | cons b t ih =>
    unfold takeDigits
    split
    · rename_i hb
      exact ⟨List.forall_mem_cons.2 ⟨isDigit_iff.1 hb, ih.1⟩, congrArg (b :: ·) ih.2⟩
    · simp [DigitText]

/-! ### The sign (R101, R105) -/

/-- The text does not start with a sign. -/
def Unsigned (t : List Byte) : Prop := ∀ b ∈ t.head?, b ≠ asciiMinus ∧ b ≠ asciiPlus

theorem takeSign_append {sign t : List Byte} {s : Bool} (hs : SignText sign s) (ht : Unsigned t) :
    takeSign (sign ++ t) = (s, t) := by
  obtain ⟨rfl, rfl | rfl⟩ | ⟨rfl, rfl⟩ := hs
  · cases t with
    | nil => rfl
    | cons b t =>
      obtain ⟨hm, hp⟩ := ht b rfl
      simp [takeSign, hm, hp]
  · rfl
  · rfl

theorem takeSign_spec (t : List Byte) : ∃ sign, SignText sign (takeSign t).1 ∧ t = sign ++ (takeSign t).2 := by
  unfold takeSign
  split
  · exact ⟨[], .inl ⟨rfl, .inl rfl⟩, rfl⟩
  · split_ifs with hm hp
    · exact ⟨[0x2D], .inr ⟨rfl, rfl⟩, by rw [hm]; rfl⟩
    · exact ⟨[0x2B], .inl ⟨rfl, .inr rfl⟩, by rw [hp]; rfl⟩
    · exact ⟨[], .inl ⟨rfl, .inl rfl⟩, rfl⟩

theorem unsigned_of_isDigit {b : Byte} {t : List Byte} (hb : isDigit b = true) : Unsigned (b :: t) := by
  rintro _ ⟨⟩
  constructor
  · rintro rfl
    exact absurd hb (by decide)
  · rintro rfl
    exact absurd hb (by decide)

/-! ### The exponent (R101, R103, R104) -/

theorem exponentDigits_append {sign ds : List Byte} {neg : Bool} (hs : SignText sign neg) (hne : ds ≠ [])
    (hds : DigitText ds) :
    exponentDigits (sign ++ ds) = some (if neg then -(decimalValue ds : Int) else (decimalValue ds : Int)) := by
  obtain ⟨d, ds, rfl⟩ := List.exists_cons_of_ne_nil hne
  have hd : isDigit d = true := isDigit_iff.2 (hds d (by simp))
  simp only [exponentDigits, takeSign_append hs (unsigned_of_isDigit hd), takeDigits_of_digitText hds]
  cases neg <;> rfl

theorem exponentDigits_eq_some {t : List Byte} {x : Int} (h : exponentDigits t = some x) :
    ∃ sign neg ds, SignText sign neg ∧ ds ≠ [] ∧ DigitText ds ∧ t = sign ++ ds ∧
      x = if neg then -(decimalValue ds : Int) else (decimalValue ds : Int) := by
  obtain ⟨sign, hs, ht⟩ := takeSign_spec t
  obtain ⟨hds, hrest⟩ := takeDigits_spec (takeSign t).2
  unfold exponentDigits at h
  split at h
  · cases h
  · cases h
  · rename_i d ds hd
    rw [hd] at hds hrest
    refine ⟨sign, (takeSign t).1, d :: ds, hs, by simp, hds, by simpa [hrest] using ht, ?_⟩
    rw [← apply_ite some] at h
    exact (Option.some.inj h).symm

/-- The exponent part of a text is taken when, and with the value, the grammar says. -/
theorem takeExponent_eq_some_iff {t : List Byte} {x : Int} : takeExponent t = some x ↔ ExponentText t x := by
  constructor
  · intro h
    unfold takeExponent at h
    split at h
    · exact .inl ⟨rfl, (Option.some.inj h).symm⟩
    · rename_i marker t
      split at h
      · rename_i hmarker
        obtain ⟨sign, neg, ds, hs, hne, hds, rfl, hx⟩ := exponentDigits_eq_some h
        exact .inr ⟨marker, sign, neg, ds, hmarker, hs, hne, hds, rfl, hx⟩
      · cases h
  · rintro (⟨rfl, rfl⟩ | ⟨marker, sign, neg, ds, hmarker, hs, hne, hds, rfl, rfl⟩)
    · rfl
    · exact (if_pos hmarker).trans (exponentDigits_append hs hne hds)

/-- An exponent part starts with its marker, which is no digit and no point. -/
theorem exponentText_head {t : List Byte} {x : Int} (h : ExponentText t x) :
    ∀ b ∈ t.head?, isDigit b = false ∧ b ≠ asciiPoint := by
  obtain ⟨rfl, -⟩ | ⟨marker, sign, neg, ds, rfl | rfl, -, -, -, rfl, -⟩ := h
  · rintro _ ⟨⟩
  · rintro _ ⟨⟩
    decide
  · rintro _ ⟨⟩
    decide

/-! ### The mantissa and the numeral (R101, R103, R104) -/

theorem takeFraction_point (t : List Byte) : takeFraction (asciiPoint :: t) = takeDigits t := by
  simp [takeFraction]

theorem takeFraction_of_no_point {t : List Byte} (ht : ∀ b ∈ t.head?, b ≠ asciiPoint) : takeFraction t = ([], t) := by
  cases t with
  | nil => rfl
  | cons b t => exact if_neg (ht b rfl)

/-- A mantissa before anything that cannot extend it is taken apart at its point. -/
theorem takeFraction_mantissa_append {m int frac rest : List Byte} (hm : MantissaText m int frac)
    (hrest : ∀ b ∈ rest.head?, isDigit b = false ∧ b ≠ asciiPoint) :
    takeFraction (takeDigits (m ++ rest)).2 = (frac, rest) ∧ (takeDigits (m ++ rest)).1 = int := by
  have hend : EndsDigits rest := fun b hb => (hrest b hb).1
  obtain ⟨hint, hfrac, -, ⟨rfl, rfl⟩ | rfl⟩ := hm
  · rw [takeDigits_append hint hend]
    exact ⟨takeFraction_of_no_point fun b hb => (hrest b hb).2, rfl⟩
  · have hpoint : EndsDigits (asciiPoint :: (frac ++ rest)) := by rintro _ ⟨⟩; decide
    rw [List.append_assoc, List.cons_append, show (0x2E : Byte) = asciiPoint from rfl, takeDigits_append hint hpoint]
    exact ⟨(takeFraction_point _).trans (takeDigits_append hfrac hend), rfl⟩

/-- What is taken as digits, point and digits is a mantissa, if a digit was taken. -/
theorem takeFraction_spec {t : List Byte} (hne : ¬ ((takeDigits t).1 = [] ∧ (takeFraction (takeDigits t).2).1 = [])) :
    ∃ m, MantissaText m (takeDigits t).1 (takeFraction (takeDigits t).2).1 ∧
      t = m ++ (takeFraction (takeDigits t).2).2 := by
  obtain ⟨hint, ht⟩ := takeDigits_spec t
  generalize takeDigits t = p at *
  obtain ⟨int, rest⟩ := p
  dsimp only at *
  by_cases hp : rest.head? = some asciiPoint
  · obtain ⟨u, rfl⟩ := List.head?_eq_some_iff.1 hp
    obtain ⟨hfrac, hu⟩ := takeDigits_spec u
    rw [takeFraction_point] at hne ⊢
    refine ⟨int ++ asciiPoint :: (takeDigits u).1, ⟨hint, hfrac, not_and_or.1 hne, .inr rfl⟩, ?_⟩
    rw [ht, List.append_assoc, List.cons_append, ← hu]
  · rw [takeFraction_of_no_point fun b hb he => hp (he ▸ hb)] at hne ⊢
    exact ⟨int, ⟨hint, by simp [DigitText], not_and_or.1 hne, .inl ⟨rfl, rfl⟩⟩, ht⟩

/-- `numeral` of R101, with its exact significand and exponent. -/
def UnsignedNumeralText (t : List Byte) (C : Nat) (E : Int) : Prop :=
  ∃ mantissa int frac expo x, t = mantissa ++ expo ∧ MantissaText mantissa int frac ∧ ExponentText expo x ∧
    C = decimalValue (int ++ frac) ∧ E = x - (frac.length : Int)

theorem numeralText_iff_sign {t : List Byte} {s : Bool} {C : Nat} {E : Int} :
    NumeralText t s C E ↔ ∃ sign u, t = sign ++ u ∧ SignText sign s ∧ UnsignedNumeralText u C E := by
  constructor
  · rintro ⟨sign, m, int, frac, expo, x, rfl, hs, h⟩
    exact ⟨sign, m ++ expo, List.append_assoc .., hs, m, int, frac, expo, x, rfl, h⟩
  · rintro ⟨sign, _, rfl, hs, m, int, frac, expo, x, rfl, h⟩
    exact ⟨sign, m, int, frac, expo, x, (List.append_assoc ..).symm, hs, h⟩

/-- The parser takes exactly the numerals, with their exact significand and exponent. -/
theorem parseNumeral_eq_some_iff {t : List Byte} {C : Nat} {E : Int} :
    parseNumeral t = some (C, E) ↔ UnsignedNumeralText t C E := by
  constructor
  · intro h
    unfold parseNumeral at h
    dsimp only at h
    split at h
    · cases h
    · rename_i hne
      obtain ⟨x, hx, hCE⟩ := Option.map_eq_some_iff.1 h
      obtain ⟨rfl, rfl⟩ := Prod.mk.inj hCE
      obtain ⟨m, hm, ht⟩ := takeFraction_spec hne
      exact ⟨m, _, _, _, x, ht, hm, takeExponent_eq_some_iff.1 hx, rfl, rfl⟩
  · rintro ⟨m, int, frac, expo, x, rfl, hm, hexpo, rfl, rfl⟩
    obtain ⟨hfrac, hint⟩ := takeFraction_mantissa_append hm (exponentText_head hexpo)
    obtain ⟨-, -, hne, -⟩ := hm
    unfold parseNumeral
    dsimp only
    rw [hfrac, hint, if_neg (not_and_or.2 hne), takeExponent_eq_some_iff.2 hexpo]
    rfl

theorem UnsignedNumeralText.unsigned {t : List Byte} {C : Nat} {E : Int} (h : UnsignedNumeralText t C E) : Unsigned t := by
  obtain ⟨m, int, frac, expo, x, rfl, ⟨hint, -, hne, hm⟩, -⟩ := h
  cases int with
  | cons d int =>
    have hd : isDigit d = true := isDigit_iff.2 (hint d (by simp))
    obtain ⟨rfl, -⟩ | rfl := hm
    · exact unsigned_of_isDigit hd
    · exact unsigned_of_isDigit hd
  | nil =>
    obtain ⟨-, rfl⟩ | rfl := hm
    · simp at hne
    · rintro _ ⟨⟩
      decide

/-! ### The special tokens (R101, R108) -/

theorem lowercase_eq_iff {b l : Byte} (hl : 0x61 ≤ l.toNat ∧ l.toNat ≤ 0x7A) :
    lowercase b = l ↔ b = l ∨ b + 0x20 = l := by
  unfold lowercase
  split
  · constructor
    · exact .inr
    · rintro (rfl | h)
      · omega
      · exact h
  · constructor
    · exact .inl
    · rintro (h | h)
      · exact h
      · bv_omega

/-- A text in lower case is a token of letters exactly when its own letters are the token's, each in either case. -/
theorem map_lowercase_eq_iff {t token : List Byte} (htoken : ∀ l ∈ token, 0x61 ≤ l.toNat ∧ l.toNat ≤ 0x7A) :
    t.map lowercase = token ↔ InEitherCase t token := by
  unfold InEitherCase
  induction token generalizing t with
  | nil => simp
  | cons l token ih =>
    obtain ⟨hl, htoken⟩ := List.forall_mem_cons.1 htoken
    cases t with
    | nil => simp
    | cons b t => rw [List.map_cons, List.cons.injEq, List.forall₂_cons, lowercase_eq_iff hl, ih htoken]

/-- `special` of R101, with its class. -/
def UnsignedSpecialText (t : List Byte) (k : Class) : Prop :=
  (k = .quietNaN ∧ InEitherCase t textNan) ∨ (k = .infinity ∧ (InEitherCase t textInf ∨ InEitherCase t textInfinity))

/-- The parser takes exactly the special tokens. -/
theorem parseSpecial_eq_some_iff {t : List Byte} {k : Class} : parseSpecial t = some k ↔ UnsignedSpecialText t k := by
  have hdisjoint : t.map lowercase = textNan → ¬ (t.map lowercase = textInf ∨ t.map lowercase = textInfinity) := by
    intro h
    rw [h]
    decide
  unfold parseSpecial UnsignedSpecialText
  rw [← map_lowercase_eq_iff (token := textNan) (by decide), ← map_lowercase_eq_iff (token := textInf) (by decide),
    ← map_lowercase_eq_iff (token := textInfinity) (by decide)]
  split_ifs with hnan hinf
  · rw [eq_true hnan, eq_false (hdisjoint hnan)]
    simp [eq_comm]
  · rw [eq_false hnan, eq_true hinf]
    simp [eq_comm]
  · rw [eq_false hnan, eq_false hinf]
    simp

/-- In either case, a lower-case letter is a byte from `A` on. -/
theorem inEitherCase_head {t token : List Byte} {l : Byte} (hl : 0x61 ≤ l.toNat) (h : InEitherCase t (l :: token)) :
    ∃ b u, t = b :: u ∧ 0x41 ≤ b.toNat := by
  obtain ⟨b, u, hb, -, rfl⟩ := List.forall₂_cons_right_iff.1 h
  refine ⟨b, u, rfl, ?_⟩
  obtain rfl | rfl := hb
  · omega
  · bv_omega

/-- A special token starts with a letter. -/
theorem UnsignedSpecialText.head {t : List Byte} {k : Class} (h : UnsignedSpecialText t k) :
    ∃ b u, t = b :: u ∧ 0x41 ≤ b.toNat := by
  obtain ⟨-, h⟩ | ⟨-, h | h⟩ := h
  · exact inEitherCase_head (by decide) h
  · exact inEitherCase_head (by decide) h
  · exact inEitherCase_head (by decide) h

theorem UnsignedSpecialText.unsigned {t : List Byte} {k : Class} (h : UnsignedSpecialText t k) : Unsigned t := by
  obtain ⟨b, u, rfl, hb⟩ := h.head
  rintro _ ⟨⟩
  constructor
  · rintro rfl
    exact absurd hb (by decide)
  · rintro rfl
    exact absurd hb (by decide)

/-- No special token is a numeral: it starts with a letter, which is no digit and no point. -/
theorem UnsignedSpecialText.parseNumeral_eq_none {t : List Byte} {k : Class} (h : UnsignedSpecialText t k) :
    parseNumeral t = none := by
  obtain ⟨b, u, rfl, hb⟩ := h.head
  have hdigit : EndsDigits (b :: u) := by
    rintro _ ⟨⟩
    exact Bool.eq_false_iff.2 fun hd => by have := (isDigit_iff.1 hd).2; omega
  have hpoint : ∀ c ∈ (b :: u).head?, c ≠ asciiPoint := by
    rintro _ ⟨⟩ rfl
    exact absurd hb (by decide)
  simp [parseNumeral, takeDigits_of_endsDigits hdigit, takeFraction_of_no_point hpoint]

/-! ### Whole texts -/

/-- The numerals of the grammar are the texts `parseText` takes as numerals. -/
theorem numeralText_iff {t : List Byte} {s : Bool} {C : Nat} {E : Int} :
    NumeralText t s C E ↔ (takeSign t).1 = s ∧ parseNumeral (takeSign t).2 = some (C, E) := by
  rw [numeralText_iff_sign, parseNumeral_eq_some_iff]
  constructor
  · rintro ⟨sign, u, rfl, hs, hu⟩
    rw [takeSign_append hs hu.unsigned]
    exact ⟨rfl, hu⟩
  · rintro ⟨rfl, hu⟩
    obtain ⟨sign, hs, ht⟩ := takeSign_spec t
    exact ⟨sign, _, ht, hs, hu⟩

/-- The special texts of the grammar are those `parseText` takes as special tokens. -/
theorem specialText_iff {t : List Byte} {s : Bool} {k : Class} :
    SpecialText t s k ↔ (takeSign t).1 = s ∧ parseSpecial (takeSign t).2 = some k := by
  rw [parseSpecial_eq_some_iff]
  constructor
  · rintro ⟨sign, u, rfl, hs, hu⟩
    have hu : UnsignedSpecialText u k := hu
    rw [takeSign_append hs hu.unsigned]
    exact ⟨rfl, hu⟩
  · rintro ⟨rfl, hu⟩
    obtain ⟨sign, hs, ht⟩ := takeSign_spec t
    exact ⟨sign, _, ht, hs, hu⟩

/-- A numeral is rounded once (R104, R108). -/
theorem parseText_of_numeralText {t : List Byte} {s : Bool} {C : Nat} {E : Int} (h : NumeralText t s C E) :
    parseText t = finalize s C E false := by
  obtain ⟨rfl, hn⟩ := numeralText_iff.1 h
  simp only [parseText, hn]

/-- A special token is the value of its class and sign (R108). -/
theorem parseText_of_specialText {t : List Byte} {s : Bool} {k : Class} (h : SpecialText t s k) :
    parseText t = ⟨s, k, 0, 0⟩ := by
  obtain ⟨rfl, hk⟩ := specialText_iff.1 h
  simp only [parseText, (parseSpecial_eq_some_iff.1 hk).parseNumeral_eq_none, hk]

/-- Every other text is the positive quiet NaN (R109). -/
theorem parseText_of_malformed {t : List Byte} (hn : ∀ s C E, ¬ NumeralText t s C E) (hs : ∀ s k, ¬ SpecialText t s k) :
    parseText t = ⟨false, .quietNaN, 0, 0⟩ := by
  have hnone : parseNumeral (takeSign t).2 = none :=
    Option.eq_none_iff_forall_not_mem.2 fun CE h => hn _ CE.1 CE.2 (numeralText_iff.2 ⟨rfl, h⟩)
  have hnone' : parseSpecial (takeSign t).2 = none :=
    Option.eq_none_iff_forall_not_mem.2 fun k h => hs _ k (specialText_iff.2 ⟨rfl, h⟩)
  simp only [parseText, hnone, hnone']

/-- Settles O51: PARSE packs the value `parseText` gives a text of each class of the grammar. -/
theorem parseFollowsTheGrammar : Obligations.ParseFollowsTheGrammar := by
  intro s hlen
  refine ⟨bidPack (parseText s.tin), execParse_next hlen, fun sg C E h => ?_, fun sg h => ?_, fun sg h => ?_,
    fun hn hs => ?_⟩
  · rw [parseText_of_numeralText h]
  · rw [parseText_of_specialText h, bidPack_quietNaN]
  · rw [parseText_of_specialText h, bidPack_infinity]
  · rw [parseText_of_malformed hn hs, bidPack_quietNaN]
    rfl

end Sys2Proof.Machine
end

section
/-!
The decimal spelling of a number (42_formatter.md R121, R124), read back by `decimalValue`.
-/

namespace Sys2Proof.Machine

theorem digitByte_toNat {d : Nat} (hd : d < 10) : (digitByte d).toNat = 0x30 + d := by
  rw [digitByte, BitVec.toNat_ofNat, Nat.mod_eq_of_lt (by omega)]

@[simp] theorem decimalDigits_length (k v : Nat) : (decimalDigits k v).length = k := by
  induction k generalizing v with
  | zero => rfl
  | succ k ih => simp [decimalDigits, ih]

theorem decimalDigits_digitText (k v : Nat) : DigitText (decimalDigits k v) := by
  induction k generalizing v with
  | zero => simp [decimalDigits, DigitText]
  | succ k ih =>
    refine List.forall_mem_append.2 ⟨ih _, List.forall_mem_singleton.2 ?_⟩
    rw [digitByte_toNat (Nat.mod_lt _ (by decide))]
    omega

theorem decimalValue_append_singleton (ds : List Byte) (b : Byte) :
    decimalValue (ds ++ [b]) = 10 * decimalValue ds + (b.toNat - 0x30) := by
  simp [decimalValue]

/-- `k` digits spell any number below `10^k`. -/
theorem decimalValue_decimalDigits {k v : Nat} (hv : v < 10 ^ k) : decimalValue (decimalDigits k v) = v := by
  induction k generalizing v with
  | zero =>
    obtain rfl : v = 0 := by simpa using hv
    rfl
  | succ k ih =>
    have hq : v / 10 < 10 ^ k := Nat.div_lt_of_lt_mul (by rwa [← pow_succ'])
    rw [decimalDigits, decimalValue_append_singleton, ih hq, digitByte_toNat (Nat.mod_lt _ (by decide))]
    omega

theorem decimalValue_decimalText (v : Nat) : decimalValue (decimalText v) = v :=
  decimalValue_decimalDigits (lt_pow_ndig v)

theorem decimalText_ne_nil (v : Nat) : decimalText v ≠ [] := by
  have := one_le_ndig v
  rw [← List.length_pos_iff, decimalText, decimalDigits_length]
  omega

/-- An in-range significand padded to 16 digits fits 16 digits (R121). -/
theorem padded_lt {c : Nat} (hc : c ≤ cmax) : c * 10 ^ (precision - ndig c) < 10 ^ precision :=
  calc c * 10 ^ (precision - ndig c)
    _ < 10 ^ ndig c * 10 ^ (precision - ndig c) := Nat.mul_lt_mul_of_pos_right (lt_pow_ndig c) (by positivity)
    _ = 10 ^ precision := by rw [← pow_add, Nat.add_sub_of_le (ndig_le_precision.2 hc)]

/-! ### Formatted texts are in the grammar -/

theorem signText_signText (s : Bool) : SignText (signText s) s := by
  cases s with
  | false => exact .inl ⟨rfl, .inl rfl⟩
  | true => exact .inr ⟨rfl, rfl⟩

theorem exponentText_exponentText (adj : Int) : ExponentText (exponentText adj) adj := by
  have hdigits := decimalDigits_digitText (ndig adj.natAbs) adj.natAbs
  refine .inr ⟨asciiUpperE, [if 0 ≤ adj then asciiPlus else asciiMinus], decide (adj < 0), decimalText adj.natAbs,
    .inr rfl, ?_, decimalText_ne_nil _, hdigits, rfl, ?_⟩
  · by_cases h : 0 ≤ adj
    · exact .inl ⟨by simpa using h, .inr (by rw [if_pos h]; rfl)⟩
    · exact .inr ⟨by simpa using h, by rw [if_neg h]; rfl⟩
  · rw [decimalValue_decimalText]
    simp only [decide_eq_true_eq]
    split <;> omega

/-- The 16 digits of a text, one before the point, are its mantissa (R121). -/
theorem mantissaText_significantDigits (c : Nat) :
    MantissaText ((significantDigits c).take 1 ++ asciiPoint :: (significantDigits c).drop 1)
      ((significantDigits c).take 1) ((significantDigits c).drop 1) := by
  have hdigits : DigitText (significantDigits c) := decimalDigits_digitText precision _
  refine ⟨fun b hb => hdigits b (List.mem_of_mem_take hb), fun b hb => hdigits b (List.mem_of_mem_drop hb), .inl ?_,
    .inr rfl⟩
  simp [significantDigits, ← List.length_pos_iff]

/-- A formatted finite value is a numeral: its significand padded to 16 digits, its exponent lowered by as many (R116). -/
theorem numeralText_formatText {s : Bool} {c : Nat} {e : Int} (hc : c ≤ cmax) :
    NumeralText (formatText ⟨s, .finite, c, e⟩) s (c * 10 ^ (precision - ndig c)) (e - (precision - ndig c : Nat)) := by
  have hn := ndig_le_precision.2 hc
  refine ⟨signText s, _, _, _, exponentText (e + ndig c - 1), _, ?_, signText_signText s, mantissaText_significantDigits c,
    exponentText_exponentText _, ?_, ?_⟩
  · simp [formatText, finiteText]
  · rw [List.take_append_drop, significantDigits, decimalValue_decimalDigits (padded_lt hc)]
  · rw [List.length_drop, significantDigits, decimalDigits_length]
    simp only [precision] at *
    omega

end Sys2Proof.Machine
end

section
/-!
Parsing what is printed (41_parser.md R116): a formatted value is in the grammar, and the rounding engine takes padding zeros
off again without rounding.
-/

namespace Sys2Proof.Machine

/-! ### Rounding of padded significands -/

/-- Dropping zeros is exact (R137). -/
theorem roundDigits_mul_pow {q d : Nat} (hd : 1 ≤ d) : roundDigits (q * 10 ^ d) d false = q := by
  have hpos : 0 < 5 * 10 ^ (d - 1) := by positivity
  rw [roundDigits_eq hd, Nat.mul_mod_left, Nat.mul_div_cancel _ (by positivity), if_neg (by omega), if_neg (by omega)]

/-- A nonzero in-range value written with padding zeros is finalized to a member of its cohort. -/
theorem finalize_padded {s : Bool} {c k : Nat} {e : Int} (hc0 : c ≠ 0) (hck : c * 10 ^ k ≤ cmax)
    (he : emin ≤ e ∧ e ≤ emax) :
    ∃ j : Nat, finalize s (c * 10 ^ k) (e - k) false = ⟨s, .finite, c * 10 ^ j, e - j⟩ := by
  have hne : c * 10 ^ k ≠ 0 := Nat.mul_ne_zero hc0 (by positivity)
  have hdrop : dropCount (c * 10 ^ k) (e - k) = (emin - (e - k)).toNat := by
    have := ndig_le_precision.2 hck
    unfold dropCount
    omega
  by_cases hd : emin ≤ e - k
  · exact ⟨k, finalize_of_inRange hck ⟨hd, by omega⟩⟩
  · obtain ⟨d, hdk⟩ : ∃ d : Nat, emin - (e - k) = d := Int.eq_ofNat_of_zero_le (by omega)
    obtain ⟨j, rfl⟩ : ∃ j, k = j + d := Nat.exists_eq_add_of_le' (by omega)
    have hround : roundDigits (c * 10 ^ (j + d)) d false = c * 10 ^ j := by
      rw [pow_add, ← mul_assoc, roundDigits_mul_pow (by omega)]
    have hq : c * 10 ^ j ≤ cmax :=
      (Nat.mul_le_mul_left c (Nat.pow_le_pow_right (by decide) (Nat.le_add_right j d))).trans hck
    refine ⟨j, ?_⟩
    rw [hdk, Int.toNat_natCast] at hdrop
    rw [finalize, if_neg (fun h => hne h.1), roundToWidth, hdrop, if_neg (by omega), hround, carry,
      if_neg (by simp only [precision, cmax] at *; omega), fitExponent, if_neg (by simp only; omega)]
    simp only [LD.mk.injEq, true_and]
    omega

/-- Members of one cohort are numerically equal (R26). -/
theorem numEq_cohort (s : Bool) (c j : Nat) (e : Int) : numEq ⟨s, .finite, c * 10 ^ j, e - j⟩ ⟨s, .finite, c, e⟩ := by
  have h : (c * 10 ^ j : ℚ) * 10 ^ (e - j) = c * 10 ^ e := by
    rw [mul_assoc, ← zpow_natCast, ← zpow_add₀ (by norm_num), add_sub_cancel]
  simp [numEq, LD.value, LD.magnitude, h]

/-- Finite zeros are numerically equal (R26). -/
theorem numEq_zero (s t : Bool) (e f : Int) : numEq ⟨s, .finite, 0, e⟩ ⟨t, .finite, 0, f⟩ := by
  simp [numEq, LD.value, LD.magnitude]

theorem numEq_finalize_padded {s : Bool} {c k : Nat} {e : Int} (hck : c * 10 ^ k ≤ cmax) (he : emin ≤ e ∧ e ≤ emax) :
    numEq (finalize s (c * 10 ^ k) (e - k) false) ⟨s, .finite, c, e⟩ := by
  by_cases hc0 : c = 0
  · subst hc0
    rw [Nat.zero_mul, finalize, if_pos ⟨rfl, rfl⟩]
    exact numEq_zero ..
  · obtain ⟨j, hj⟩ := finalize_padded hc0 hck he
    rw [hj]
    exact numEq_cohort ..

/-! ### The round trip -/

theorem specialText_formatText_infinity (s : Bool) (c : Nat) (e : Int) :
    SpecialText (formatText ⟨s, .infinity, c, e⟩) s .infinity :=
  ⟨signText s, textInf, rfl, signText_signText s, .inr ⟨rfl, .inl ((map_lowercase_eq_iff (by decide)).1 (by decide))⟩⟩

theorem specialText_formatText_nan {x : LD} (hx : x.isNaN) : SpecialText (formatText x) x.s .quietNaN := by
  refine ⟨signText x.s, textNan, ?_, signText_signText x.s, .inl ⟨rfl, (map_lowercase_eq_iff (by decide)).1 (by decide)⟩⟩
  obtain h | h := hx
  · simp [formatText, h]
  · simp [formatText, h]

/-- Settles O55: a formatted value is a text of the grammar (`numeralText_formatText`, `specialText_formatText_nan`), whose
padded significand is finalized within the cohort (`numEq_finalize_padded`); `1` comes back with its padding zeros. -/
theorem parseUndoesFormat : Obligations.ParseUndoesFormat := by
  refine ⟨fun x hx => ⟨fun hk => ?_, fun hk => ?_, fun hnan => ?_⟩, ⟨false, .finite, 1, 0⟩, rfl, rfl, by decide⟩
  · obtain ⟨s, k, c, e⟩ := x
    obtain rfl : k = .finite := hk
    obtain ⟨hc, he⟩ := (LD.inRange_finite_iff rfl).1 hx
    have hpadded : c * 10 ^ (precision - ndig c) ≤ cmax := Nat.le_of_lt_succ (padded_lt hc)
    rw [parseText_of_numeralText (numeralText_formatText hc)]
    exact ⟨numEq_finalize_padded hpadded he, finalize_sign ..⟩
  · obtain ⟨s, k, c, e⟩ := x
    obtain rfl : k = .infinity := hk
    obtain ⟨rfl, rfl⟩ : c = 0 ∧ e = 0 := by simpa [LD.inRange] using hx
    exact parseText_of_specialText (specialText_formatText_infinity ..)
  · exact parseText_of_specialText (specialText_formatText_nan hnan)

end Sys2Proof.Machine
end

section
/-!
What FORMAT prints (42_formatter.md R120 to R126): the texts `formatText` gives, and their digits, one leading digit at a time.
-/

namespace Sys2Proof.Machine

theorem exec_format (s : State) : exec .format s = .next { s with
    res := none, lres := none, tout := some (formatText (bidDecode s.a)), flag := none } := rfl

/-! ### The text of each class -/

theorem formatText_infinity {x : LD} (hk : x.k = .infinity) : formatText x = signText x.s ++ textInf := by
  simp only [formatText, hk]

theorem formatText_nan {x : LD} (hx : x.isNaN) : formatText x = signText x.s ++ textNan := by
  obtain hk | hk := hx
  · simp only [formatText, hk]
  · simp only [formatText, hk]

theorem formatText_finite {x : LD} (hk : x.k = .finite) : formatText x = signText x.s ++ finiteText x.c x.e := by
  simp only [formatText, hk]

/-! ### Leading digits -/

/-- `decimalDigits` splits digits off at the right; this splits off the leading one. -/
theorem decimalDigits_succ_eq_cons (k v : Nat) :
    decimalDigits (k + 1) v = digitByte (v / 10 ^ k % 10) :: decimalDigits k v := by
  induction k generalizing v with
  | zero => simp [decimalDigits]
  | succ k ih =>
    have hdiv : v / 10 / 10 ^ k = v / 10 ^ (k + 1) := by rw [Nat.div_div_eq_div_mul, ← pow_succ']
    rw [decimalDigits, ih, hdiv]
    rfl

theorem digitByte_ne_zero {d : Nat} (hd0 : d ≠ 0) (hd : d < 10) : digitByte d ≠ 0x30 := by
  intro h
  have hval : (digitByte d).toNat = 0x30 := by rw [h]; rfl
  rw [digitByte_toNat hd] at hval
  omega

/-- A number of exactly `k + 1` digits has a nonzero leading digit. -/
theorem leadingDigit_ne_zero {k v : Nat} (hle : 10 ^ k ≤ v) (hlt : v < 10 ^ (k + 1)) :
    digitByte (v / 10 ^ k % 10) ≠ 0x30 := by
  have hdigit : v / 10 ^ k < 10 := Nat.div_lt_of_lt_mul (by rwa [← pow_succ])
  have hpos : 0 < v / 10 ^ k := Nat.div_pos hle (by positivity)
  rw [Nat.mod_eq_of_lt hdigit]
  exact digitByte_ne_zero hpos.ne' hdigit

/-- A decimal spelling has no leading zeros (R121, R124). -/
theorem decimalText_noLeadingZeros (v : Nat) : decimalText v = [0x30] ∨ ∃ d ds, decimalText v = d :: ds ∧ d ≠ 0x30 := by
  by_cases hv : v = 0
  · exact .inl (by rw [hv]; rfl)
  · obtain ⟨k, hk⟩ := Nat.exists_eq_add_of_le' (one_le_ndig v)
    have hcons : decimalText v = digitByte (v / 10 ^ k % 10) :: decimalDigits k v := by
      rw [decimalText, hk, decimalDigits_succ_eq_cons]
    have hle := pow_ndig_le hv
    have hlt := lt_pow_ndig v
    rw [hk] at hle hlt
    exact .inr ⟨_, _, hcons, leadingDigit_ne_zero hle hlt⟩

/-! ### The text of a finite value -/

/-- A nonzero significand padded to 16 digits needs all of them (R121). -/
theorem le_padded {c : Nat} (hc0 : c ≠ 0) (hc : c ≤ cmax) : 10 ^ (precision - 1) ≤ c * 10 ^ (precision - ndig c) := by
  have hn1 := one_le_ndig c
  have hn := ndig_le_precision.2 hc
  calc 10 ^ (precision - 1)
    _ = 10 ^ (ndig c - 1) * 10 ^ (precision - ndig c) := by rw [← pow_add]; congr 1; omega
    _ ≤ c * 10 ^ (precision - ndig c) := Nat.mul_le_mul_right _ (pow_ndig_le hc0)

/-- The 16 digits of a text are one and 15 more, spell the padded significand, and start with 0 for a zero only (R121). -/
theorem significantDigits_eq_cons {c : Nat} (hc : c ≤ cmax) : ∃ first others, significantDigits c = first :: others ∧
    others.length = 15 ∧ DigitText (first :: others) ∧ decimalValue (first :: others) = c * 10 ^ (16 - ndig c) ∧
    (c ≠ 0 → first ≠ 0x30) := by
  have hcons : significantDigits c = _ := decimalDigits_succ_eq_cons 15 _
  refine ⟨_, _, hcons, decimalDigits_length .., ?_, ?_, fun hc0 => leadingDigit_ne_zero (le_padded hc0 hc) (padded_lt hc)⟩
  · exact hcons ▸ decimalDigits_digitText precision _
  · rw [← hcons, significantDigits, decimalValue_decimalDigits (padded_lt hc)]

theorem finiteText_of_significantDigits {c : Nat} {first : Byte} {others : List Byte}
    (h : significantDigits c = first :: others) (e : Int) :
    finiteText c e = first :: asciiPoint :: others ++ exponentText (e + ndig c - 1) := by
  simp [finiteText, h]

/-- Settles O52: the texts of the classes (`formatText_infinity` and its likes); a finite value's 16 digits are those of
`significantDigits_eq_cons`, its exponent digits `decimalText` of the adjusted exponent. -/
theorem formatPrintsSixteenDigits : Obligations.FormatPrintsSixteenDigits := by
  rintro s x sign rfl rfl
  refine ⟨fun hk => ?_, fun hnan => ?_, fun hk => ?_⟩
  · rw [exec_format, formatText_infinity hk]
    rfl
  · rw [exec_format, formatText_nan hnan]
    rfl
  · obtain ⟨first, others, hcons, hlen, hdigits, hvalue, hlead⟩ := significantDigits_eq_cons (bidDecode_c_le_cmax s.a)
    refine ⟨first, others, decimalText ((bidDecode s.a).e + ndig (bidDecode s.a).c - 1).natAbs, ?_, hlen, hdigits, hvalue,
      hlead, decimalDigits_digitText _ _, decimalValue_decimalText _, decimalText_noLeadingZeros _⟩
    rw [exec_format, formatText_finite hk, finiteText_of_significantDigits hcons, ← List.append_assoc]
    rfl

end Sys2Proof.Machine
end

section
/-!
The aligner, `roundDigits` case by case, and that `finalize` keeps in-range values (43_rounding_alignment.md R137, R144,
R147).
-/

namespace Sys2Proof

/-! ### Powers of ten -/

/-- Trailing zeros of a significand count in its exponent. -/
theorem cast_mul_pow_mul_zpow (c z : Nat) (e : Int) : ((c * 10 ^ z : Nat) : ℚ) * 10 ^ e = c * 10 ^ (e + z) := by
  rw [zpow_add₀ (by norm_num), zpow_natCast]
  push_cast
  ring

/-- Bringing a significand to a smaller exponent keeps the value. -/
theorem cast_mul_pow_toNat_mul_zpow (c : Nat) {e f : Int} (h : e ≤ f) :
    ((c * 10 ^ (f - e).toNat : Nat) : ℚ) * 10 ^ e = c * 10 ^ f := by
  rw [cast_mul_pow_mul_zpow, Int.toNat_of_nonneg (by omega), add_sub_cancel]

namespace Machine

/-! ### The aligner (R147) -/

/-- Settles O40: the factor of each significand makes up for the smaller exponent (`cast_mul_pow_toNat_mul_zpow`). -/
theorem alignmentIsExact : Obligations.AlignmentIsExact := by
  intro x y a b e h
  cases h
  exact ⟨rfl, cast_mul_pow_toNat_mul_zpow x.c (min_le_left ..), cast_mul_pow_toNat_mul_zpow y.c (min_le_right ..)⟩

/-! ### roundDigits, case by case (R137) -/

theorem roundDigits_of_gt {C d : Nat} {sticky : Bool} (hd : 1 ≤ d) (h : 5 * 10 ^ (d - 1) < C % 10 ^ d) :
    roundDigits C d sticky = C / 10 ^ d + 1 := by
  rw [roundDigits_eq hd, if_pos h]

theorem roundDigits_of_lt {C d : Nat} {sticky : Bool} (hd : 1 ≤ d) (h : C % 10 ^ d < 5 * 10 ^ (d - 1)) :
    roundDigits C d sticky = C / 10 ^ d := by
  rw [roundDigits_eq hd, if_neg h.not_gt, if_neg h.ne]

theorem roundDigits_of_half_sticky {C d : Nat} (hd : 1 ≤ d) (h : C % 10 ^ d = 5 * 10 ^ (d - 1)) :
    roundDigits C d true = C / 10 ^ d + 1 := by
  rw [roundDigits_eq hd, if_neg h.not_gt, if_pos h, if_pos rfl]

theorem roundDigits_of_half {C d : Nat} (hd : 1 ≤ d) (h : C % 10 ^ d = 5 * 10 ^ (d - 1)) :
    roundDigits C d false = if C / 10 ^ d % 2 = 1 then C / 10 ^ d + 1 else C / 10 ^ d := by
  rw [roundDigits_eq hd, if_neg h.not_gt, if_pos h, if_neg (by decide)]

/-- A number with all digits dropped is at least half a unit only if no more than its digits are dropped. -/
theorem eq_ndig_of_half_le {C d : Nat} (hn : ndig C ≤ d) (h : 5 * 10 ^ (d - 1) ≤ C) : d = ndig C := by
  by_contra hne
  have hC : C < 10 ^ (d - 1) := (lt_pow_ndig C).trans_le (Nat.pow_le_pow_right (by decide) (by omega))
  omega

theorem roundDigits_of_ndig_le {C d : Nat} {sticky : Bool} (hd : 1 ≤ d) (hn : ndig C ≤ d) :
    roundDigits C d sticky =
      if d = ndig C ∧ (5 * 10 ^ (d - 1) < C ∨ (C = 5 * 10 ^ (d - 1) ∧ sticky = true)) then 1 else 0 := by
  have hC : C < 10 ^ d := (lt_pow_ndig C).trans_le (Nat.pow_le_pow_right (by decide) hn)
  have hmod : C % 10 ^ d = C := Nat.mod_eq_of_lt hC
  have hdiv : C / 10 ^ d = 0 := Nat.div_eq_of_lt hC
  obtain h | h | h := lt_trichotomy C (5 * 10 ^ (d - 1))
  · rw [roundDigits_of_lt hd (hmod.symm ▸ h), hdiv, if_neg]
    rintro ⟨-, hgt | ⟨heq, -⟩⟩
    · exact h.not_gt hgt
    · exact h.ne heq
  · have hhalf : C % 10 ^ d = 5 * 10 ^ (d - 1) := hmod.trans h
    cases sticky with
    | false => rw [roundDigits_of_half hd hhalf, hdiv, if_neg (by decide), if_neg (by simp [h.not_gt])]
    | true => rw [roundDigits_of_half_sticky hd hhalf, hdiv, if_pos ⟨eq_ndig_of_half_le hn h.ge, .inr ⟨h, rfl⟩⟩]
  · rw [roundDigits_of_gt hd (hmod.symm ▸ h), hdiv, if_pos ⟨eq_ndig_of_half_le hn h.le, .inl h⟩]

/-- Settles O32: the cases of R137, and `roundDigits_of_ndig_le` when every digit is dropped. -/
theorem roundDigitsDropsHalfToEven : Obligations.RoundDigitsDropsHalfToEven := by
  intro C d sticky hd
  refine ⟨roundDigits_of_gt hd, ?_, ?_, roundDigits_of_lt hd, roundDigits_of_ndig_le hd⟩
  · rintro h rfl
    exact roundDigits_of_half_sticky hd h
  · rintro h rfl
    exact roundDigits_of_half hd h

/-! ### In-range values (R144) -/

/-- Settles O34: `finalize_of_inRange` and `finalize_inRange`. -/
theorem roundingKeepsRepresentableValues : Obligations.RoundingKeepsRepresentableValues := by
  refine ⟨fun x hx hk => ?_, finalize_inRange⟩
  obtain ⟨s, k, c, e⟩ := x
  obtain rfl : k = .finite := hk
  obtain ⟨hc, he⟩ := (LD.inRange_finite_iff rfl).1 hx
  exact finalize_of_inRange hc he

end Machine
end Sys2Proof
end

section
/-!
The digits and exponent of a result (43_rounding_alignment.md R138, R139, R142, R145): what is clamped and what overflows,
what is dropped, and the 16 digits and least exponent of a rounded result.
-/

namespace Sys2Proof.Machine

/-! ### Clamping and overflow (R142) -/

/-- Each trailing zero is a digit. -/
theorem ndig_mul_pow {q : Nat} (hq : q ≠ 0) (z : Nat) : ndig (q * 10 ^ z) = ndig q + z := by
  have h1 := one_le_ndig q
  apply le_antisymm
  · rw [ndig_le_iff (by omega), pow_add]
    exact Nat.mul_lt_mul_of_pos_right (lt_pow_ndig q) (by positivity)
  · have hpow : 10 ^ (ndig q - 1 + z) ≤ q * 10 ^ z := by
      rw [pow_add]
      exact Nat.mul_le_mul_right _ (pow_ndig_le hq)
    have := (Nat.pow_lt_pow_iff_right (by decide)).1 (hpow.trans_lt (lt_pow_ndig _))
    omega

theorem fitExponent_of_le {E : Int} (h : E ≤ emax) (s : Bool) (q : Nat) : fitExponent s q E = ⟨s, .finite, q, E⟩ :=
  if_neg h.not_gt

/-- Above `EMAX`, a nonzero significand whose padding stays within `CMAX` is clamped. -/
theorem fitExponent_of_padded_le {s : Bool} {q : Nat} {E : Int} (hq : q ≠ 0) (hE : emax < E)
    (h : q * 10 ^ (E - emax).toNat ≤ cmax) : fitExponent s q E = ⟨s, .finite, q * 10 ^ (E - emax).toNat, emax⟩ := by
  rw [fitExponent, if_pos hE, if_pos]
  rwa [← ndig_mul_pow hq, ndig_le_precision]

/-- Above `EMAX`, a nonzero significand whose padding exceeds `CMAX` overflows. -/
theorem fitExponent_of_lt_padded {s : Bool} {q : Nat} {E : Int} (hq : q ≠ 0) (hE : emax < E)
    (h : cmax < q * 10 ^ (E - emax).toNat) : fitExponent s q E = ⟨s, .infinity, 0, 0⟩ := by
  rw [fitExponent, if_pos hE, if_neg]
  rwa [← ndig_mul_pow hq, ndig_le_precision, not_le]

/-- A finite result of fitting the exponent, clamped or not. -/
theorem fitExponent_of_finite {s : Bool} {q : Nat} {E : Int} (h : (fitExponent s q E).k = .finite) :
    fitExponent s q E = ⟨s, .finite, q * 10 ^ (E - emax).toNat, min E emax⟩ := by
  by_cases hE : emax < E
  · rw [min_eq_right hE.le]
    unfold fitExponent at h ⊢
    rw [if_pos hE] at h ⊢
    split at h
    · rw [if_pos ‹_›]
    · cases h
  · rw [not_lt] at hE
    rw [fitExponent_of_le hE, min_eq_left hE, Int.toNat_of_nonpos (by omega), pow_zero, mul_one]

/-- A padded significand exceeds `CMAX` exactly when the magnitude reaches `10^385`. -/
theorem pow_385_le_iff {q : Nat} {E : Int} (hE : emax ≤ E) :
    (10 : ℚ) ^ (385 : Int) ≤ q * 10 ^ E ↔ cmax < q * 10 ^ (E - emax).toNat := by
  have hbound : (10 : ℚ) ^ (385 : Int) = ((1 * 10 ^ 16 : Nat) : ℚ) * 10 ^ emax := by
    rw [cast_mul_pow_mul_zpow, Nat.cast_one, one_mul]
    rfl
  rw [hbound, ← cast_mul_pow_toNat_mul_zpow q hE, mul_le_mul_iff_left₀ (by positivity), Nat.cast_le]
  simp only [cmax]
  omega

/-- With an exponent of at most `EMAX` nothing reaches `10^385`. -/
theorem lt_pow_385 {q : Nat} {E : Int} (hq : q ≤ cmax) (hE : E ≤ emax) : (q : ℚ) * 10 ^ E < 10 ^ (385 : Int) := by
  have hmax : (q : ℚ) * 10 ^ emax < 10 ^ (385 : Int) := by
    rw [← not_le, pow_385_le_iff le_rfl]
    simpa using hq
  exact (mul_le_mul_of_nonneg_left (zpow_le_zpow_right₀ (by norm_num) hE) q.cast_nonneg).trans_lt hmax

/-! ### What is dropped (R138, R139) -/

/-- At most 16 digits are kept. -/
theorem div_dropCount_le (C : Nat) (E : Int) : C / 10 ^ dropCount C E ≤ cmax := by
  refine Nat.le_of_lt_succ (Nat.div_lt_of_lt_mul ?_ : C / 10 ^ dropCount C E < 10 ^ 16)
  rw [← pow_add]
  exact (lt_pow_ndig C).trans_le (Nat.pow_le_pow_right (by decide) (by simp only [dropCount, precision]; omega))

/-- When the exponent floor did not decide how many digits to drop, 16 are kept. -/
theorem le_div_dropCount {C : Nat} {E : Int} (hd : dropCount C E ≠ 0) (hE : emin < E + dropCount C E) :
    10 ^ 15 ≤ C / 10 ^ dropCount C E := by
  have hn : ndig C - 1 = 15 + dropCount C E := by
    simp only [dropCount, precision] at *
    omega
  have hC : C ≠ 0 := by
    rintro rfl
    rw [ndig_zero] at hn
    omega
  rw [Nat.le_div_iff_mul_le (by positivity), ← pow_add, ← hn]
  exact pow_ndig_le hC

theorem div_le_roundDigits {C d : Nat} {sticky : Bool} (hd : 1 ≤ d) : C / 10 ^ d ≤ roundDigits C d sticky := by
  rw [roundDigits_eq hd]
  split_ifs <;> omega

/-- The carry of R138 needs sixteen kept nines. -/
theorem div_dropCount_eq_of_carry {C : Nat} {E : Int} {sticky : Bool} (hd : dropCount C E ≠ 0)
    (h : roundDigits C (dropCount C E) sticky = 10 ^ 16) : C / 10 ^ dropCount C E = cmax := by
  have hle := div_dropCount_le C E
  have hround := roundDigits_le (C := C) (sticky := sticky) (Nat.one_le_iff_ne_zero.2 hd)
  simp only [cmax] at *
  omega

theorem roundToWidth_of_dropCount_eq_zero {C : Nat} {E : Int} (hd : dropCount C E = 0) (sticky : Bool) :
    roundToWidth C E sticky = (C, E) :=
  if_pos hd

theorem roundToWidth_of_dropCount_ne_zero {C : Nat} {E : Int} (hd : dropCount C E ≠ 0) (sticky : Bool) :
    roundToWidth C E sticky = carry (roundDigits C (dropCount C E) sticky) (E + dropCount C E) :=
  if_neg hd

/-- A rounded significand above the exponent floor has 16 digits (R145). -/
theorem le_roundToWidth {C : Nat} {E : Int} {sticky : Bool} (hd : dropCount C E ≠ 0)
    (hE : emin < (roundToWidth C E sticky).2) : 10 ^ 15 ≤ (roundToWidth C E sticky).1 := by
  rw [roundToWidth_of_dropCount_ne_zero hd] at *
  unfold carry at *
  split at hE
  · rw [if_pos ‹_›]
    rfl
  · rw [if_neg ‹_›]
    exact (le_div_dropCount hd hE).trans (div_le_roundDigits (Nat.one_le_iff_ne_zero.2 hd))

/-- A nonzero value is rounded to zero at the exponent floor only. -/
theorem roundToWidth_fst_ne_zero {C : Nat} {E : Int} {sticky : Bool} (hC : C ≠ 0)
    (hE : emin < (roundToWidth C E sticky).2) : (roundToWidth C E sticky).1 ≠ 0 := by
  by_cases hd : dropCount C E = 0
  · rwa [roundToWidth_of_dropCount_eq_zero hd]
  · have := le_roundToWidth hd hE
    omega

theorem finalize_of_ne_zero {C : Nat} (hC : C ≠ 0) (s : Bool) (E : Int) (sticky : Bool) :
    finalize s C E sticky = fitExponent s (roundToWidth C E sticky).1 (roundToWidth C E sticky).2 :=
  if_neg fun h => hC h.1

/-- Settles O36: at an exponent up to `EMAX` nothing reaches `10^385` (`lt_pow_385`); above it the padded significand decides
(`pow_385_le_iff`), which is no zero (`roundToWidth_fst_ne_zero`). -/
theorem overflowFromTenToThe385 : Obligations.OverflowFromTenToThe385 := by
  refine ⟨fun s C E sticky q E1 hC hround => ?_, by decide, by decide, by decide⟩
  have hfin := finalize_of_ne_zero hC s E sticky
  have hq := (roundToWidth_spec C E sticky).1
  have hq0 := roundToWidth_fst_ne_zero (E := E) (sticky := sticky) hC
  simp only [hround] at hfin hq hq0
  rw [hfin]
  by_cases hE : E1 ≤ emax
  · have hlt := lt_pow_385 hq hE
    have hfit := fitExponent_of_le hE s q
    exact ⟨by simpa [hfit] using hlt, fun h => absurd h hlt.not_ge, fun _ h => absurd hE h.not_ge, fun _ => hfit⟩
  · rw [not_le] at hE
    have hq0 := hq0 (by simp only [emin, emax] at *; omega)
    rw [← not_le, pow_385_le_iff hE.le]
    by_cases hover : cmax < q * 10 ^ (E1 - emax).toNat
    · have hfit : fitExponent s q E1 = _ := fitExponent_of_lt_padded hq0 hE hover
      exact ⟨by simp [hfit, hover], fun _ => hfit, fun h => absurd hover h, fun h => absurd hE h.not_gt⟩
    · have hfit : fitExponent s q E1 = _ := fitExponent_of_padded_le hq0 hE (not_lt.1 hover)
      exact ⟨by simp [hfit, hover], fun h => absurd h hover, fun _ _ => hfit, fun h => absurd hE h.not_gt⟩

/-! ### Digits and exponent of a result (R138, R145) -/

/-- A finite result without dropped digits. -/
theorem finalize_of_exact {s : Bool} {C : Nat} {E : Int} {sticky : Bool} (hC : C ≠ 0) (hd : dropCount C E = 0)
    (hk : (finalize s C E sticky).k = .finite) :
    finalize s C E sticky = ⟨s, .finite, C * 10 ^ (E - emax).toNat, min E emax⟩ := by
  rw [finalize_of_ne_zero hC, roundToWidth_of_dropCount_eq_zero hd] at hk ⊢
  exact fitExponent_of_finite hk

/-- A finite result with dropped digits is not clamped: above `EMAX` its 16 digits leave no room for padding. -/
theorem finalize_of_dropped {s : Bool} {C : Nat} {E : Int} {sticky : Bool} (hC : C ≠ 0) (hd : dropCount C E ≠ 0)
    (hk : (finalize s C E sticky).k = .finite) :
    finalize s C E sticky = ⟨s, .finite, (roundToWidth C E sticky).1, (roundToWidth C E sticky).2⟩ := by
  rw [finalize_of_ne_zero hC] at hk ⊢
  refine fitExponent_of_le (not_lt.1 fun hE => ?_) ..
  have hq : 10 ^ 15 ≤ (roundToWidth C E sticky).1 := le_roundToWidth hd (by simp only [emin, emax] at *; omega)
  have hpad : cmax < (roundToWidth C E sticky).1 * 10 ^ ((roundToWidth C E sticky).2 - emax).toNat :=
    calc cmax < 10 ^ 15 * 10 ^ 1 := by decide
      _ ≤ _ := Nat.mul_le_mul hq (Nat.pow_le_pow_right (by decide) (by omega))
  rw [fitExponent_of_lt_padded (by omega) hE hpad] at hk
  cases hk

/-- A magnitude at a smaller exponent is below `10^15` units of a larger one. -/
theorem magnitude_lt_of_e_lt {y : LD} {g : Int} (hc : y.c ≤ cmax) (he : y.e < g) :
    y.magnitude < ((10 ^ 15 : Nat) : ℚ) * 10 ^ g := by
  have hc' : (y.c : ℚ) < 10 ^ 16 := by
    exact_mod_cast Nat.lt_succ_of_le hc
  calc y.magnitude < 10 ^ 16 * 10 ^ y.e := mul_lt_mul_of_pos_right hc' (by positivity)
    _ ≤ 10 ^ 16 * 10 ^ (g - 1) := by
      gcongr
      · norm_num
      · omega
    _ = ((10 ^ 15 : Nat) : ℚ) * 10 ^ g := by
      rw [zpow_sub_one₀ (by norm_num)]
      push_cast
      ring

/-- A 16-digit significand has the smallest exponent of its magnitude. -/
theorem e_le_of_magnitude_eq {y z : LD} (hy : 10 ^ 15 ≤ y.c) (hz : z.c ≤ cmax) (h : z.magnitude = y.magnitude) :
    y.e ≤ z.e := by
  by_contra he
  have hlt := magnitude_lt_of_e_lt hz (not_le.1 he)
  have hge : ((10 ^ 15 : Nat) : ℚ) * 10 ^ y.e ≤ y.magnitude :=
    mul_le_mul_of_nonneg_right (Nat.cast_le.2 hy) (by positivity)
  linarith

theorem ndig_eq_sixteen_iff {c : Nat} (hc : c ≤ cmax) : ndig c = 16 ↔ 10 ^ 15 ≤ c := by
  have hle : ndig c ≤ 16 := ndig_le_precision.2 hc
  rw [← not_lt, ← ndig_le_iff (by decide)]
  omega

/-- A rounded result that is neither subnormal nor a zero has 16 digits. -/
theorem ndig_roundToWidth {C : Nat} {E : Int} {sticky : Bool} (hd : dropCount C E ≠ 0)
    (h : ¬ ((roundToWidth C E sticky).2 = emin ∧ ndig (roundToWidth C E sticky).1 < 16)) :
    ndig (roundToWidth C E sticky).1 = 16 := by
  obtain ⟨hq, hE⟩ := roundToWidth_spec C E sticky
  obtain hmin | hmin := hE.eq_or_lt
  · have hle : ndig (roundToWidth C E sticky).1 ≤ 16 := ndig_le_precision.2 hq
    have hge := not_lt.1 fun hn => h ⟨hmin.symm, hn⟩
    exact le_antisymm hle hge
  · exact (ndig_eq_sixteen_iff hq).2 (le_roundToWidth hd hmin)

/-- Settles O56: `finalize_of_exact` and `finalize_of_dropped` give the digits and exponent; the carry needs sixteen nines
(`div_dropCount_eq_of_carry`); 16 digits (`ndig_roundToWidth`) have the least exponent (`e_le_of_magnitude_eq`). -/
theorem roundedResultsKeepSignAndLeastExponent : Obligations.RoundedResultsKeepSignAndLeastExponent := by
  intro s C E sticky d y hC _ hdrop hy
  obtain rfl : d = dropCount C E := hdrop
  subst hy
  refine ⟨finalize_sign .., fun hk hd => ?_, fun hk hd => ?_⟩
  · rw [finalize_of_exact hC hd hk]
    exact ⟨rfl, rfl⟩
  · have hd := Nat.one_le_iff_ne_zero.1 hd
    rw [finalize_of_dropped hC hd hk]
    refine ⟨fun hround => ?_, fun hround => ?_, fun hnormal => ?_⟩
    · rw [roundToWidth_of_dropCount_ne_zero hd, carry, if_neg hround]
      exact ⟨rfl, rfl⟩
    · rw [roundToWidth_of_dropCount_ne_zero hd, carry, if_pos hround]
      exact ⟨div_dropCount_eq_of_carry hd hround, rfl, rfl⟩
    · have hn := ndig_roundToWidth hd hnormal
      refine ⟨hn, fun z hz hzk => e_le_of_magnitude_eq ?_ ((LD.inRange_finite_iff hzk).1 hz).1⟩
      exact (ndig_eq_sixteen_iff (roundToWidth_spec C E sticky).1).1 hn

end Sys2Proof.Machine
end

section
/-!
Rounding is to the nearest in-range value, a tie to even (43_rounding_alignment.md R135, R136): `roundDigits` rounds to the
nearest integer, and the in-range values are the integers in units of the last kept digit, or too small to be near.
-/

namespace Sys2Proof.Machine

/-! ### Nearest, a tie to even (R136) -/

/-- `q` is an integer nearest to `x`, and even where `x` is halfway between two. -/
def NearestEven (x : ℚ) (q : Nat) : Prop := |x - q| ≤ 1 / 2 ∧ (|x - q| = 1 / 2 → q % 2 = 0)

theorem nearestEven_of_lt_half (k : Nat) {f : ℚ} (h0 : 0 ≤ f) (h : f < 1 / 2) : NearestEven (k + f) k := by
  have habs : |(k : ℚ) + f - k| = f := by rw [add_sub_cancel_left, abs_of_nonneg h0]
  exact ⟨habs.trans_le h.le, fun heq => absurd (habs.symm.trans heq) h.ne⟩

theorem nearestEven_of_half_lt (k : Nat) {f : ℚ} (h : 1 / 2 < f) (h1 : f < 1) : NearestEven (k + f) (k + 1) := by
  have habs : |(k : ℚ) + f - (k + 1 : Nat)| = 1 - f := by
    rw [Nat.cast_add_one, add_sub_add_left_eq_sub, abs_of_neg (by linarith), neg_sub]
  exact ⟨by linarith, fun heq => by linarith⟩

theorem nearestEven_of_half (k : Nat) : NearestEven (k + 1 / 2) (if k % 2 = 1 then k + 1 else k) := by
  split
  · refine ⟨?_, fun _ => by omega⟩
    rw [Nat.cast_add_one, add_sub_add_left_eq_sub]
    norm_num
  · refine ⟨?_, fun _ => by omega⟩
    rw [add_sub_cancel_left]
    norm_num

/-- No integer is nearer, and another equally near one is a tie. -/
theorem NearestEven.le {x : ℚ} {q : Nat} (h : NearestEven x q) (m : Nat) :
    |x - q| ≤ |x - m| ∧ (|x - q| = |x - m| → m ≠ q → q % 2 = 0) := by
  obtain ⟨hle, heven⟩ := h
  obtain rfl | hne := eq_or_ne m q
  · exact ⟨le_rfl, fun _ hmm => absurd rfl hmm⟩
  · have hone : (1 : ℚ) ≤ |(m : ℚ) - q| := by
      have : (1 : Int) ≤ |(m : Int) - q| := Int.one_le_abs (by omega)
      exact_mod_cast this
    have htri : |(m : ℚ) - q| ≤ |x - q| + |x - m| := by
      rw [abs_sub_comm x m, add_comm]
      exact abs_sub_le _ _ _
    exact ⟨by linarith, fun heq _ => heven (by linarith)⟩

/-- What lies below an integer below `x` is farther from `x`. -/
theorem NearestEven.lt_of_lt_of_le {x y : ℚ} {q n : Nat} (h : NearestEven x q) (hy : y < n) (hn : n ≤ x) :
    |x - q| < |x - y| := by
  refine (h.le n).1.trans_lt ?_
  rw [abs_of_nonneg (by linarith), abs_of_pos (by linarith)]
  linarith

/-- The exact values an argument of the engine stands for: `t` is what sticky says of the digits below `C` (R135). -/
def StickyPart (sticky : Bool) (t : ℚ) : Prop := (sticky = false ∧ t = 0) ∨ (sticky = true ∧ 0 < t ∧ t < 1)

theorem StickyPart.nonneg {sticky : Bool} {t : ℚ} (ht : StickyPart sticky t) : 0 ≤ t := by
  obtain ⟨-, rfl⟩ | ⟨-, h0, -⟩ := ht
  · exact le_rfl
  · exact h0.le

theorem StickyPart.lt_one {sticky : Bool} {t : ℚ} (ht : StickyPart sticky t) : t < 1 := by
  obtain ⟨-, rfl⟩ | ⟨-, -, h1⟩ := ht
  · exact zero_lt_one
  · exact h1

/-- Kept digits and dropped fraction of an exact value. -/
theorem add_div_pow_eq (C d : Nat) (t : ℚ) :
    (C + t) / 10 ^ d = (C / 10 ^ d : Nat) + ((C % 10 ^ d : Nat) + t) / 10 ^ d := by
  have hC : (C : ℚ) = 10 ^ d * (C / 10 ^ d : Nat) + (C % 10 ^ d : Nat) := by
    exact_mod_cast (Nat.div_add_mod C (10 ^ d)).symm
  have hpos : (10 : ℚ) ^ d ≠ 0 := by positivity
  rw [hC]
  field_simp
  ring

/-- `roundDigits` rounds the exact value, in units of the last kept digit, to the nearest, a tie to even. -/
theorem roundDigits_nearestEven {C d : Nat} {sticky : Bool} {t : ℚ} (hd : 1 ≤ d) (ht : StickyPart sticky t) :
    NearestEven ((C + t) / 10 ^ d) (roundDigits C d sticky) := by
  have hunit : (10 : ℚ) ^ d = 10 * 10 ^ (d - 1) := by rw [← pow_succ', Nat.sub_add_cancel hd]
  have hpos : (0 : ℚ) < 10 ^ d := by positivity
  have hmod : ((C % 10 ^ d : Nat) : ℚ) + 1 ≤ 10 ^ d := by exact_mod_cast Nat.mod_lt C (by positivity)
  have hmod0 : (0 : ℚ) ≤ (C % 10 ^ d : Nat) := Nat.cast_nonneg _
  have ht0 := ht.nonneg
  have ht1 := ht.lt_one
  have hf1 : ((C % 10 ^ d : Nat) + t) / 10 ^ d < 1 := (div_lt_one hpos).2 (by linarith)
  rw [add_div_pow_eq]
  obtain h | h | h := lt_trichotomy (C % 10 ^ d) (5 * 10 ^ (d - 1))
  · rw [roundDigits_of_lt hd h]
    have hr : ((C % 10 ^ d : Nat) : ℚ) + 1 ≤ 5 * 10 ^ (d - 1) := by exact_mod_cast h
    exact nearestEven_of_lt_half _ (by positivity) ((div_lt_iff₀ hpos).2 (by linarith))
  · have hr : ((C % 10 ^ d : Nat) : ℚ) = 5 * 10 ^ (d - 1) := by exact_mod_cast h
    obtain ⟨rfl, rfl⟩ | ⟨rfl, hpos_t, -⟩ := ht
    · rw [roundDigits_of_half hd h, show ((C % 10 ^ d : Nat) + 0 : ℚ) / 10 ^ d = 1 / 2 by
        rw [div_eq_iff hpos.ne']; linarith]
      exact nearestEven_of_half _
    · rw [roundDigits_of_half_sticky hd h]
      exact nearestEven_of_half_lt _ ((lt_div_iff₀ hpos).2 (by linarith)) hf1
  · rw [roundDigits_of_gt hd h]
    have hr : (5 * 10 ^ (d - 1) : ℚ) + 1 ≤ (C % 10 ^ d : Nat) := by exact_mod_cast h
    exact nearestEven_of_half_lt _ ((lt_div_iff₀ hpos).2 (by linarith)) hf1

/-! ### Nearest of all in-range values -/

/-- `r` is as near to `v` as the in-range magnitude `y`, and of two equally near ones `r` has the even last digit `c`. -/
def NearerOrEven (v r y : ℚ) (c : Nat) : Prop := |v - r| ≤ |v - y| ∧ (|v - r| = |v - y| → y ≠ r → c % 2 = 0)

/-- An exact result is nearest, with no tie. -/
theorem nearerOrEven_self (v y : ℚ) (c : Nat) : NearerOrEven v v y c := by
  refine ⟨by simp, fun h hne => ?_⟩
  rw [sub_self, abs_zero] at h
  exact absurd (sub_eq_zero.1 (abs_eq_zero.1 h.symm)).symm hne

/-- Nearest among the multiples of a unit `u`, and nearer than anything below a multiple that the exact value reaches. -/
theorem NearestEven.nearerOrEven {x u y : ℚ} {q c : Nat} (h : NearestEven x q) (hu : 0 < u) (hc : q % 2 = 0 → c % 2 = 0)
    (hy : (∃ m : Nat, y = m * u) ∨ ∃ n : Nat, (n : ℚ) ≤ x ∧ y < n * u) : NearerOrEven (x * u) (q * u) y c := by
  have hscale (a : ℚ) : |x * u - a * u| = |x - a| * u := by rw [← sub_mul, abs_mul, abs_of_pos hu]
  obtain ⟨m, rfl⟩ | ⟨n, hn, hlt⟩ := hy
  · obtain ⟨hle, htie⟩ := h.le m
    refine ⟨?_, fun heq hne => hc (htie ?_ ?_)⟩
    · rw [hscale, hscale]
      exact mul_le_mul_of_nonneg_right hle hu.le
    · rw [hscale, hscale] at heq
      exact mul_right_cancel₀ hu.ne' heq
    · rintro rfl
      exact hne rfl
  · have hlt : |x * u - q * u| < |x * u - y| := by
      have := h.lt_of_lt_of_le ((div_lt_iff₀ hu).2 hlt) hn
      rw [hscale, ← div_mul_cancel₀ y hu.ne', hscale]
      exact mul_lt_mul_of_pos_right this hu
    exact ⟨hlt.le, fun heq => absurd heq hlt.ne⟩

theorem carry_value (q : Nat) (E : Int) : ((carry q E).1 : ℚ) * 10 ^ (carry q E).2 = q * 10 ^ E := by
  unfold carry
  split
  · rename_i h
    rw [h, zpow_add_one₀ (by norm_num)]
    norm_num [precision]
    ring
  · rfl

theorem carry_even {q : Nat} (E : Int) (h : q % 2 = 0) : (carry q E).1 % 2 = 0 := by
  unfold carry
  split
  · norm_num [precision]
  · exact h

/-- A zero, or a result without dropped digits, is the exact value. -/
theorem magnitude_finalize_of_exact {s : Bool} {C : Nat} {E : Int} (h : C = 0 ∨ dropCount C E = 0)
    (hk : (finalize s C E false).k = .finite) : (finalize s C E false).magnitude = C * 10 ^ E := by
  obtain rfl | hC := eq_or_ne C 0
  · rw [finalize, if_pos ⟨rfl, rfl⟩, LD.magnitude, Nat.cast_zero, zero_mul, zero_mul]
  · rw [finalize_of_exact hC (h.resolve_left hC) hk, LD.magnitude, cast_mul_pow_mul_zpow]
    congr 2
    simp only
    omega

/-- A result with dropped digits is the rounded digits in units of the last kept one. -/
theorem magnitude_finalize_of_dropped {s : Bool} {C : Nat} {E : Int} {sticky : Bool} (hC : C ≠ 0)
    (hd : dropCount C E ≠ 0) (hk : (finalize s C E sticky).k = .finite) :
    (finalize s C E sticky).magnitude = roundDigits C (dropCount C E) sticky * 10 ^ (E + dropCount C E) := by
  rw [finalize_of_dropped hC hd hk, LD.magnitude, roundToWidth_of_dropCount_ne_zero hd, carry_value]

theorem finalize_even_of_dropped {s : Bool} {C : Nat} {E : Int} {sticky : Bool} (hC : C ≠ 0) (hd : dropCount C E ≠ 0)
    (hk : (finalize s C E sticky).k = .finite) (h : roundDigits C (dropCount C E) sticky % 2 = 0) :
    (finalize s C E sticky).c % 2 = 0 := by
  rw [finalize_of_dropped hC hd hk, roundToWidth_of_dropCount_ne_zero hd]
  exact carry_even _ h

/-- An in-range magnitude is a multiple of the unit of the last kept digit, or below `10^15` units, which the exact value
reaches. -/
theorem magnitude_multiple_or_below {C : Nat} {E : Int} {t : ℚ} {y : LD} (hd : dropCount C E ≠ 0) (ht : 0 ≤ t)
    (hy : y.inRange = true) (hk : y.k = .finite) :
    (∃ m : Nat, y.magnitude = m * 10 ^ (E + dropCount C E)) ∨
      ∃ n : Nat, (n : ℚ) ≤ (C + t) / 10 ^ dropCount C E ∧ y.magnitude < n * 10 ^ (E + dropCount C E) := by
  obtain ⟨hc, he, -⟩ := (LD.inRange_finite_iff hk).1 hy
  by_cases hle : E + dropCount C E ≤ y.e
  · exact .inl ⟨_, (cast_mul_pow_toNat_mul_zpow y.c hle).symm⟩
  · refine .inr ⟨10 ^ 15, ?_, magnitude_lt_of_e_lt hc (not_le.1 hle)⟩
    have hkept : ((10 ^ 15 : Nat) : ℚ) ≤ (C / 10 ^ dropCount C E : Nat) :=
      Nat.cast_le.2 (le_div_dropCount hd (by omega))
    rw [add_div_pow_eq]
    exact hkept.trans (le_add_of_nonneg_right (by positivity))

/-- A call with sticky set that keeps the precondition of R143 drops digits. -/
theorem dropCount_ne_zero_of_seventeen_le {C : Nat} (h : 17 ≤ ndig C) (E : Int) : dropCount C E ≠ 0 := by
  simp only [dropCount, precision]
  omega

theorem ne_zero_of_seventeen_le {C : Nat} (h : 17 ≤ ndig C) : C ≠ 0 := by
  rintro rfl
  rw [ndig_zero] at h
  omega

/-- A finite result, exact or rounded, is nearest to the exact value of all in-range values. -/
theorem finalize_nearerOrEven {s : Bool} {C : Nat} {E : Int} {sticky : Bool} {t : ℚ} {y : LD} (ht : StickyPart sticky t)
    (hn : sticky = true → 17 ≤ ndig C) (hk : (finalize s C E sticky).k = .finite) (hy : y.inRange = true)
    (hyk : y.k = .finite) :
    NearerOrEven ((C + t) * 10 ^ E) (finalize s C E sticky).magnitude y.magnitude (finalize s C E sticky).c := by
  by_cases hexact : C = 0 ∨ dropCount C E = 0
  · obtain ⟨rfl, rfl⟩ | ⟨rfl, -⟩ := ht
    · rw [magnitude_finalize_of_exact hexact hk, add_zero]
      exact nearerOrEven_self ..
    · exact absurd hexact (not_or.2 ⟨ne_zero_of_seventeen_le (hn rfl), dropCount_ne_zero_of_seventeen_le (hn rfl) E⟩)
  · obtain ⟨hC, hd⟩ := not_or.1 hexact
    have hunits : (C + t) * 10 ^ E = (C + t) / 10 ^ dropCount C E * 10 ^ (E + dropCount C E) := by
      rw [zpow_add₀ (by norm_num), zpow_natCast, div_mul_eq_mul_div, eq_div_iff (by positivity)]
      ring
    rw [magnitude_finalize_of_dropped hC hd hk, hunits]
    exact (roundDigits_nearestEven (Nat.one_le_iff_ne_zero.2 hd) ht).nearerOrEven (by positivity)
      (finalize_even_of_dropped hC hd hk) (magnitude_multiple_or_below hd ht.nonneg hy hyk)

/-- Settles O35: `finalize_sign` and `finalize_nearerOrEven`. -/
theorem roundingIsToNearestEven : Obligations.RoundingIsToNearestEven := by
  intro s C E sticky t ht hk
  refine ⟨finalize_sign .., fun y hy hyk => ?_⟩
  obtain ⟨rfl, rfl⟩ | ⟨rfl, h0, h1, hn⟩ := ht
  · exact finalize_nearerOrEven (.inl ⟨rfl, rfl⟩) (by simp) hk hy hyk
  · exact finalize_nearerOrEven (.inr ⟨rfl, h0, h1⟩) (fun _ => hn) hk hy hyk

end Sys2Proof.Machine
end

section
/-!
Special operands of the four operations (44_arithmetic.md R156 to R163, R175, R178): what each operation drives, NaNs first,
then Infinities and zero divisors.
-/

namespace Sys2Proof

/-- ADD, SUB, MUL and DIV (R155). -/
def Instr.IsArithmetic (i : Instr) : Prop := i = .add ∨ i = .sub ∨ i = .mul ∨ i = .div

theorem LD.not_isNaN_of_finite {x : LD} (h : x.k = .finite) : ¬ x.isNaN := by simp [LD.isNaN, h]

theorem LD.not_isNaN_of_infinity {x : LD} (h : x.k = .infinity) : ¬ x.isNaN := by simp [LD.isNaN, h]

theorem LD.isZero_iff {x : LD} : x.isZero = true ↔ x.k = .finite ∧ x.c = 0 := by simp [LD.isZero]

namespace Machine

/-! ### The four operations on the ports (R155) -/

/-- The operation is ADD or SUB, and `sy` the effective sign it gives the second operand `y` (R160). -/
def EffectiveSign (i : Instr) (y : LD) (sy : Bool) : Prop := (i = .add ∧ sy = y.s) ∨ (i = .sub ∧ sy = !y.s)

/-- ADD and SUB on logical values, by the effective sign of the second operand (R164, R165). -/
def sumLogical (x y : LD) (sy : Bool) : LD := ((nanOperand x y).or (infinityAdd x y sy)).getD (addCore x y sy)

theorem exec_sum {s : State} {i : Instr} {sy : Bool} (h : EffectiveSign i (bidDecode s.b) sy) :
    exec i s = .next (s.drive (.res (bidPack (sumLogical (bidDecode s.a) (bidDecode s.b) sy)))) := by
  obtain ⟨rfl, rfl⟩ | ⟨rfl, rfl⟩ := h
  · rfl
  · rfl

theorem exec_mul (s : State) :
    exec .mul s = .next (s.drive (.res (bidPack (mulLogical (bidDecode s.a) (bidDecode s.b))))) := rfl

theorem exec_div_of_ok {s : State} {r : LD} (h : divLogical s.cfg (bidDecode s.a) (bidDecode s.b) = .ok r) :
    exec .div s = .next (s.drive (.res (bidPack r))) := by
  simp only [exec, execDiv, h]

/-! ### NaN operands (R157, R158) -/

/-- The sign of the NaN operand that the precedence chooses. -/
def chosenNaNSign (x y : LD) : Bool :=
  if x.k = .signalingNaN then x.s
  else if y.k = .signalingNaN then y.s
  else if x.k = .quietNaN then x.s
  else y.s

theorem nanOperand_of_isNaN {x y : LD} (h : x.isNaN ∨ y.isNaN) :
    nanOperand x y = some ⟨chosenNaNSign x y, .quietNaN, 0, 0⟩ := by
  unfold nanOperand chosenNaNSign
  split_ifs with hxs hys hxq hyq
  · rfl
  · rfl
  · rfl
  · rfl
  · exact absurd h (by simp [LD.isNaN, hxs, hys, hxq, hyq])

/-- What the NaN steps answer is the result of every one of the four operations. -/
theorem exec_of_nanOperand {s : State} {i : Instr} {r : LD} (hi : i.IsArithmetic)
    (h : nanOperand (bidDecode s.a) (bidDecode s.b) = some r) : exec i s = .next (s.drive (.res (bidPack r))) := by
  obtain rfl | rfl | rfl | rfl := hi
  · simp only [exec, execAdd, addLogical, h, Option.some_or, Option.getD_some]
  · simp only [exec, execSub, subLogical, h, Option.some_or, Option.getD_some]
  · simp only [exec, execMul, mulLogical, h, Option.some_or, Option.getD_some]
  · exact exec_div_of_ok (by simp only [divLogical, h, Option.some_or])

theorem exec_of_isNaN {s : State} {i : Instr} (hi : i.IsArithmetic)
    (h : (bidDecode s.a).isNaN ∨ (bidDecode s.b).isNaN) :
    exec i s = .next (s.drive (.res (quietNaNWord (chosenNaNSign (bidDecode s.a) (bidDecode s.b))))) := by
  rw [exec_of_nanOperand hi (nanOperand_of_isNaN h), bidPack_quietNaN]

/-- Settles O41: the NaN steps of the precedence decide (`nanOperand_of_isNaN`), in every one of the operations. -/
theorem naNOperandsGiveTheirQuietNaN : Obligations.NaNOperandsGiveTheirQuietNaN := by
  rintro s i hi x y rfl rfl h
  exact exec_of_isNaN hi h

theorem bidDecode_quietNaNWord (sg : Bool) : bidDecode (quietNaNWord sg) = ⟨sg, .quietNaN, 0, 0⟩ := by
  rw [← bidPack_quietNaN sg 0 0, bidDecode_bidPack rfl]

/-- Settles O50: the result is a quiet NaN word (`exec_of_isNaN`), which ISNAN decodes. -/
theorem naNsPropagate : Obligations.NaNsPropagate := by
  intro s i hi h
  refine ⟨_, _, _, exec_of_isNaN hi h, rfl, by rw [bidDecode_quietNaNWord], rfl, ?_⟩
  simp only [State.drive_flag_flag, bidDecode_quietNaNWord]
  rfl

/-! ### Infinities in ADD and SUB (R160) -/

theorem exec_sum_of_infinityAdd {s : State} {i : Instr} {sy : Bool} {r : LD} (hi : EffectiveSign i (bidDecode s.b) sy)
    (hx : ¬ (bidDecode s.a).isNaN) (hy : ¬ (bidDecode s.b).isNaN)
    (h : infinityAdd (bidDecode s.a) (bidDecode s.b) sy = some r) : exec i s = .next (s.drive (.res (bidPack r))) := by
  rw [exec_sum hi, sumLogical, nanOperand_eq_none_iff.2 ⟨hx, hy⟩, h]
  rfl

theorem infinityAdd_left {x y : LD} (hx : x.k = .infinity) (hy : y.k = .finite) (sy : Bool) :
    infinityAdd x y sy = some ⟨x.s, .infinity, 0, 0⟩ := by
  simp [infinityAdd, hx, hy]

theorem infinityAdd_right {x y : LD} (hx : x.k = .finite) (hy : y.k = .infinity) (sy : Bool) :
    infinityAdd x y sy = some ⟨sy, .infinity, 0, 0⟩ := by
  simp [infinityAdd, hx, hy]

theorem infinityAdd_same_sign {x y : LD} (hx : x.k = .infinity) (hy : y.k = .infinity) :
    infinityAdd x y x.s = some ⟨x.s, .infinity, 0, 0⟩ := by
  simp [infinityAdd, hx, hy]

theorem infinityAdd_opposite_sign {x y : LD} {sy : Bool} (hx : x.k = .infinity) (hy : y.k = .infinity) (h : sy ≠ x.s) :
    infinityAdd x y sy = some qnanInvalid := by
  simp [infinityAdd, hx, hy, h.symm]

theorem bidPack_qnanInvalid : bidPack qnanInvalid = 0x7C00000000000000 := bidPack_quietNaN false 0 0

/-- Settles O42: the rows of the rule are those of `infinityAdd`. -/
theorem infinitiesInSums : Obligations.InfinitiesInSums := by
  rintro s i x y sy rfl rfl hi
  refine ⟨fun hx hy => ?_, fun hx hy => ?_, fun hx hy h => ?_, fun hx hy h => ?_⟩
  · rw [exec_sum_of_infinityAdd hi (LD.not_isNaN_of_infinity hx) (LD.not_isNaN_of_finite hy) (infinityAdd_left hx hy sy),
      bidPack_infinity]
    rfl
  · rw [exec_sum_of_infinityAdd hi (LD.not_isNaN_of_finite hx) (LD.not_isNaN_of_infinity hy) (infinityAdd_right hx hy sy),
      bidPack_infinity]
    rfl
  · subst h
    rw [exec_sum_of_infinityAdd hi (LD.not_isNaN_of_infinity hx) (LD.not_isNaN_of_infinity hy)
      (infinityAdd_same_sign hx hy), bidPack_infinity]
    rfl
  · rw [exec_sum_of_infinityAdd hi (LD.not_isNaN_of_infinity hx) (LD.not_isNaN_of_infinity hy)
      (infinityAdd_opposite_sign hx hy h), bidPack_qnanInvalid]
    rfl

/-! ### Infinities in MUL (R161) -/

theorem exec_mul_of_infinityMul {s : State} {r : LD} (hx : ¬ (bidDecode s.a).isNaN) (hy : ¬ (bidDecode s.b).isNaN)
    (h : infinityMul (bidDecode s.a) (bidDecode s.b) = some r) : exec .mul s = .next (s.drive (.res (bidPack r))) := by
  rw [exec_mul, mulLogical, nanOperand_eq_none_iff.2 ⟨hx, hy⟩, h]
  rfl

theorem infinityMul_of_infinity {x y : LD} (h : x.k = .infinity ∨ y.k = .infinity) :
    infinityMul x y = if x.isZero ∨ y.isZero then some qnanInvalid else some ⟨xor x.s y.s, .infinity, 0, 0⟩ :=
  if_pos h

/-- Settles O43: with an Infinity among the operands a zero decides the row (`infinityMul_of_infinity`). -/
theorem infinitiesInProducts : Obligations.InfinitiesInProducts := by
  rintro s x y rfl rfl hx hy hinf
  have hrow := infinityMul_of_infinity hinf
  simp only [LD.isZero_iff] at hrow
  refine ⟨fun hz => ?_, fun hz => ?_⟩
  · rw [if_pos hz] at hrow
    rw [exec_mul_of_infinityMul hx hy hrow, bidPack_qnanInvalid]
    rfl
  · rw [if_neg hz] at hrow
    rw [exec_mul_of_infinityMul hx hy hrow, bidPack_infinity]
    rfl

/-! ### Infinities and zero divisors in DIV (R162, R163, R175) -/

theorem exec_div_of_infinityDiv {s : State} {r : LD} (hx : ¬ (bidDecode s.a).isNaN) (hy : ¬ (bidDecode s.b).isNaN)
    (h : infinityDiv s.cfg (bidDecode s.a) (bidDecode s.b) = some r) : exec .div s = .next (s.drive (.res (bidPack r))) :=
  exec_div_of_ok (by rw [divLogical, nanOperand_eq_none_iff.2 ⟨hx, hy⟩, h]; rfl)

theorem infinityDiv_infinity_infinity (cfg : Config) {x y : LD} (hx : x.k = .infinity) (hy : y.k = .infinity) :
    infinityDiv cfg x y = some qnanInvalid := by
  simp [infinityDiv, hx, hy]

theorem infinityDiv_infinity_finite (cfg : Config) {x y : LD} (hx : x.k = .infinity) (hy : y.k = .finite) :
    infinityDiv cfg x y = some ⟨xor x.s y.s, .infinity, 0, 0⟩ := by
  simp [infinityDiv, hx, hy]

theorem infinityDiv_finite_infinity (cfg : Config) {x y : LD} (hx : x.k = .finite) (hy : y.k = .infinity) :
    infinityDiv cfg x y = some ⟨xor x.s y.s, .finite, 0, cfg.divByInfZeroExp⟩ := by
  simp [infinityDiv, hx, hy]

theorem infinityDiv_zero_divisor (cfg : Config) {x y : LD} (hx : x.k = .finite) (hy : y.k = .finite) (hy0 : y.c = 0) :
    infinityDiv cfg x y = if x.c = 0 then some qnanInvalid else some ⟨xor x.s y.s, .infinity, 0, 0⟩ := by
  simp [infinityDiv, LD.isZero, hx, hy, hy0]

/-- The zero of a finite value over Infinity is in range, whatever the parameter (R7, R175). -/
theorem divByInfZero_inRange (cfg : Config) (sg : Bool) : (LD.mk sg .finite 0 cfg.divByInfZeroExp).inRange = true :=
  (LD.inRange_finite_iff rfl).2 ⟨Nat.zero_le _, divByInfZeroExp_range cfg⟩

/-- Its word holds the parameter as it is stored (R62). -/
theorem divByInfZero_toNat (cfg : Config) (sg : Bool) :
    (bidPack ⟨sg, .finite, 0, cfg.divByInfZeroExp⟩).toNat = signWeight sg + cfg.divByInfZeroBiased * 2 ^ 53 := by
  rw [bidPack_form1_toNat (by decide) (divByInfZeroExp_range cfg), Nat.add_zero, Config.divByInfZeroExp, Int.sub_add_cancel,
    Int.toNat_natCast]

/-- Settles O44: the rows of the rules are those of `infinityDiv`. -/
theorem infinitiesAndZeroDivisors : Obligations.InfinitiesAndZeroDivisors := by
  refine ⟨rfl, ?_⟩
  rintro s x y rfl rfl hxn hyn
  refine ⟨fun hx hy => ?_, fun hx hy => ?_, fun hx hy => ?_, fun hx hx0 hy hy0 => ?_, fun hx hx0 hy hy0 => ?_⟩
  · rw [exec_div_of_infinityDiv hxn hyn (infinityDiv_infinity_infinity s.cfg hx hy), bidPack_qnanInvalid]
    rfl
  · rw [exec_div_of_infinityDiv hxn hyn (infinityDiv_infinity_finite s.cfg hx hy), bidPack_infinity]
    rfl
  · exact ⟨_, exec_div_of_infinityDiv hxn hyn (infinityDiv_finite_infinity s.cfg hx hy), divByInfZero_toNat ..,
      bidDecode_bidPack (divByInfZero_inRange ..)⟩
  · have hrow := infinityDiv_zero_divisor s.cfg hx hy hy0
    rw [if_neg hx0] at hrow
    rw [exec_div_of_infinityDiv hxn hyn hrow, bidPack_infinity]
    rfl
  · have hrow := infinityDiv_zero_divisor s.cfg hx hy hy0
    rw [if_pos hx0] at hrow
    rw [exec_div_of_infinityDiv hxn hyn hrow, bidPack_qnanInvalid]
    rfl

end Machine
end Sys2Proof
end

section
/-!
ADD, SUB and MUL of finite operands (44_arithmetic.md R164 to R169): the exact sum and product, and their rounding.
-/

namespace Sys2Proof

/-- In-range exponents bound the smaller of two. -/
theorem min_exponent_range {x y : LD} (hx : emin ≤ x.e ∧ x.e ≤ emax) (hy : emin ≤ y.e ∧ y.e ≤ emax) :
    emin ≤ min x.e y.e ∧ min x.e y.e ≤ emax :=
  ⟨le_min hx.1 hy.1, (min_le_left ..).trans hx.2⟩

namespace Machine

/-- What a finite word decodes to is within `CMAX` and the exponent range (R81). -/
theorem bidDecode_bounds {w : Word} (h : (bidDecode w).k = .finite) :
    (bidDecode w).c ≤ cmax ∧ emin ≤ (bidDecode w).e ∧ (bidDecode w).e ≤ emax :=
  (LD.inRange_finite_iff h).1 (bidDecode_inRange w)

/-- An exact zero keeps the sign, and its exponent is clamped (R141). -/
theorem finalize_zero (s : Bool) (E : Int) : finalize s 0 E false = ⟨s, .finite, 0, clamp E emin emax⟩ := if_pos ⟨rfl, rfl⟩

theorem bidDecode_bidPack_finalize (s : Bool) (C : Nat) (E : Int) (sticky : Bool) :
    bidDecode (bidPack (finalize s C E sticky)) = finalize s C E sticky :=
  bidDecode_bidPack (finalize_inRange ..)

theorem nanOperand_of_finite {x y : LD} (hx : x.k = .finite) (hy : y.k = .finite) : nanOperand x y = none :=
  nanOperand_eq_none_iff.2 ⟨LD.not_isNaN_of_finite hx, LD.not_isNaN_of_finite hy⟩

/-! ### Sums (R164 to R166) -/

theorem infinityAdd_of_finite {x y : LD} (hx : x.k = .finite) (hy : y.k = .finite) (sy : Bool) :
    infinityAdd x y sy = none := by
  simp [infinityAdd, hx, hy]

theorem sumLogical_of_finite {x y : LD} (hx : x.k = .finite) (hy : y.k = .finite) (sy : Bool) :
    sumLogical x y sy = addCore x y sy := by
  rw [sumLogical, nanOperand_of_finite hx hy, infinityAdd_of_finite hx hy]
  rfl

theorem signed_eq (s : Bool) (n : Nat) : signed s n = (if s then -1 else 1) * (n : Int) := by
  cases s <;> simp [signed]

/-- The exact signed sum, written over the operands' own significands. -/
theorem exactSum_eq (x y : LD) (sy : Bool) :
    exactSum x y sy = (if x.s then -1 else 1) * (x.c : Int) * 10 ^ (x.e - min x.e y.e).toNat
      + (if sy then -1 else 1) * (y.c : Int) * 10 ^ (y.e - min x.e y.e).toNat := by
  simp [exactSum, signed_eq, align]

theorem addCore_of_ne_zero {x y : LD} {sy : Bool} (h : exactSum x y sy ≠ 0) :
    addCore x y sy = finalize (decide (exactSum x y sy < 0)) (exactSum x y sy).natAbs (min x.e y.e) false :=
  if_neg h

theorem addCore_of_eq_zero {x y : LD} {sy : Bool} (he : emin ≤ min x.e y.e ∧ min x.e y.e ≤ emax)
    (h : exactSum x y sy = 0) : addCore x y sy = ⟨x.s && sy, .finite, 0, min x.e y.e⟩ :=
  (if_pos h).trans (finalize_of_inRange (Nat.zero_le _) he)

theorem bidDecode_bidPack_addCore (x y : LD) (sy : Bool) : bidDecode (bidPack (addCore x y sy)) = addCore x y sy :=
  bidDecode_bidPack (addCore_isResult x y sy).1

/-- Settles O45: the result is `addCore`, by whether the exact sum is zero; a sum that fits is its own rounding. -/
theorem sumsOfFiniteOperands : Obligations.SumsOfFiniteOperands := by
  rintro s i x y sy e S rfl rfl hx hy hi rfl hS
  rw [← exactSum_eq] at hS
  subst hS
  have he := min_exponent_range (bidDecode_bounds hx).2 (bidDecode_bounds hy).2
  refine ⟨bidPack (addCore (bidDecode s.a) (bidDecode s.b) sy), ?_, fun h => ?_, fun h => ?_, fun h hfit => ?_⟩
  · rw [exec_sum hi, sumLogical_of_finite hx hy]
    rfl
  · rw [bidDecode_bidPack_addCore, addCore_of_eq_zero he h]
  · rw [addCore_of_ne_zero h]
  · rw [bidDecode_bidPack_addCore, addCore_of_ne_zero h, finalize_of_inRange hfit he]

/-! ### Products (R168, R169) -/

theorem mulLogical_of_finite {x y : LD} (hx : x.k = .finite) (hy : y.k = .finite) : mulLogical x y = mulFinite x y := by
  rw [mulLogical, nanOperand_of_finite hx hy, infinityMul, if_neg (by simp [hx, hy])]
  rfl

theorem bidDecode_bidPack_mulFinite (x y : LD) : bidDecode (bidPack (mulFinite x y)) = mulFinite x y :=
  bidDecode_bidPack_finalize ..

/-- Clamping in the order of the statements. -/
theorem clamp_eq_max_min (E : Int) : clamp E emin emax = max (-398) (min 369 E) := by
  simp only [clamp, emin, emax]
  omega

/-- Settles O46: the result is `mulFinite`; a zero product is clamped, one that fits is its own rounding. -/
theorem productsOfFiniteOperands : Obligations.ProductsOfFiniteOperands := by
  rintro s x y rfl rfl hx hy
  refine ⟨bidPack (mulFinite (bidDecode s.a) (bidDecode s.b)), ?_, rfl, fun h => ?_, fun hc h0 h1 => ?_⟩
  · rw [exec_mul, mulLogical_of_finite hx hy]
    rfl
  · rw [bidDecode_bidPack_mulFinite, mulFinite, mul_eq_zero.2 h, finalize_zero, clamp_eq_max_min]
  · rw [bidDecode_bidPack_mulFinite, mulFinite, finalize_of_inRange hc ⟨h0, h1⟩]

end Machine
end Sys2Proof
end

section
/-!
DIV of finite operands (44_arithmetic.md R171 to R174): when the exact path answers and with which scale, and the one scale of
the 17-digit quotient.
-/

namespace Sys2Proof.Machine

/-! ### The exact path (R172) -/

/-- The quotient of a scaled dividend that is a multiple of the divisor. -/
def QuotientAt (c d b j : Nat) : Prop := b ≤ cmax ∧ b * d = c * 10 ^ j

theorem quotientAt_iff {c d b j : Nat} (hd : d ≠ 0) :
    QuotientAt c d b j ↔ c * 10 ^ j % d = 0 ∧ b = c * 10 ^ j / d ∧ b ≤ cmax := by
  constructor
  · rintro ⟨hb, h⟩
    rw [← h]
    exact ⟨Nat.mul_mod_left b d, (Nat.mul_div_cancel b (Nat.pos_of_ne_zero hd)).symm, hb⟩
  · rintro ⟨hmod, rfl, hb⟩
    exact ⟨hb, Nat.div_mul_cancel (Nat.dvd_of_mod_eq_zero hmod)⟩

/-- A scale that gives an exact quotient within `CMAX` is below 33, because the divisor is within `CMAX` too (R171). -/
theorem QuotientAt.scale_lt {c d b j : Nat} (h : QuotientAt c d b j) (hc : c ≠ 0) (hd : d ≤ cmax) : j < 33 := by
  obtain ⟨hb, h⟩ := h
  refine (Nat.pow_lt_pow_iff_right (a := 10) (by decide)).1 ?_
  calc 10 ^ j ≤ c * 10 ^ j := Nat.le_mul_of_pos_left _ (Nat.pos_of_ne_zero hc)
    _ = b * d := h.symm
    _ ≤ cmax * cmax := Nat.mul_le_mul hb hd
    _ < 10 ^ 33 := by decide

/-- The exact path finds the least scale, if it tries that many. -/
theorem exactQuotient_of_least {c d b k fuel j : Nat} (hd : d ≠ 0) (h : QuotientAt c d b k) (hjk : j ≤ k)
    (hfuel : k < j + fuel) (hleast : ∀ i, i < k → ¬ ∃ b', QuotientAt c d b' i) :
    exactQuotient c d fuel j = some (b, k) := by
  obtain ⟨hmod, rfl, hb⟩ := (quotientAt_iff hd).1 h
  induction fuel generalizing j with
  | zero => omega
  | succ fuel ih =>
    have hle : c * 10 ^ j / d ≤ cmax :=
      (Nat.div_le_div_right (Nat.mul_le_mul_left c (Nat.pow_le_pow_right (by decide) hjk))).trans hb
    rw [exactQuotient, if_neg (not_lt.2 hle)]
    obtain rfl | hlt := hjk.eq_or_lt
    · rw [if_pos hmod]
    · rw [if_neg fun h0 => hleast j hlt ⟨_, (quotientAt_iff hd).2 ⟨h0, rfl, hle⟩⟩]
      exact ih hlt (by omega)

/-- Without an exact quotient the exact path gives up. -/
theorem exactQuotient_eq_none {c d : Nat} (hd : d ≠ 0) (h : ¬ ∃ i b, QuotientAt c d b i) (fuel j : Nat) :
    exactQuotient c d fuel j = none := by
  cases hq : exactQuotient c d fuel j with
  | none => rfl
  | some p =>
    obtain ⟨hdiv, hmod, hb, -⟩ := exactQuotient_some hq
    exact absurd ⟨p.2, p.1, (quotientAt_iff hd).2 ⟨hmod, hdiv, hb⟩⟩ h

/-! ### The 17-digit quotient (R171, R173) -/

/-- `j` is the least positive scale that gives a quotient of at least `10^16`. -/
def IsLeastScale (c d j : Nat) : Prop :=
  1 ≤ j ∧ 10 ^ 16 ≤ c * 10 ^ j / d ∧ ∀ i, 1 ≤ i → i < j → c * 10 ^ i / d < 10 ^ 16

theorem IsLeastScale.le {c d j : Nat} (h : IsLeastScale c d j) (hc : c ≠ 0) (hd0 : d ≠ 0) (hd : d ≤ cmax) : j ≤ 32 := by
  obtain ⟨-, -, hleast⟩ := h
  by_contra hj
  exact (hleast 32 (by decide) (not_le.1 hj)).not_ge (scale_suffices hc hd0 hd)

/-- The divider's search finds the least scale. -/
theorem IsLeastScale.leastScale_eq {c d j : Nat} (h : IsLeastScale c d j) (hc : c ≠ 0) (hd0 : d ≠ 0) (hd : d ≤ cmax) :
    leastScale c d 31 1 = j := by
  obtain ⟨h1, hlarge, hleast⟩ := h
  obtain ⟨hlarge', h1', -, hleast'⟩ := leastScale_spec (j := 1) (fuel := 31) (scale_suffices hc hd0 hd)
  obtain hlt | heq | hgt := lt_trichotomy (leastScale c d 31 1) j
  · exact absurd hlarge' (hleast _ h1' hlt).not_ge
  · exact heq
  · exact absurd hlarge (hleast' _ h1 hgt).not_ge

/-- One scale lower the quotient has at most 16 digits, so at the least scale it has at most 17. -/
theorem IsLeastScale.quotient_lt {c d j : Nat} (h : IsLeastScale c d j) (hc : c ≤ cmax) (hd : d ≠ 0) :
    c * 10 ^ j / d < 10 ^ 17 := by
  obtain ⟨h1, -, hleast⟩ := h
  obtain ⟨i, rfl⟩ : ∃ i, j = i + 1 := Nat.exists_eq_add_of_le' h1
  have hprev : c * 10 ^ i / d < 10 ^ 16 := by
    obtain rfl | hi := Nat.eq_zero_or_pos i
    · rw [pow_zero, mul_one]
      exact (Nat.div_le_self c d).trans_lt (Nat.lt_succ_of_le hc)
    · exact hleast i hi (Nat.lt_succ_self i)
  rw [Nat.div_lt_iff_lt_mul (Nat.pos_of_ne_zero hd)] at hprev ⊢
  calc c * 10 ^ (i + 1) = c * 10 ^ i * 10 := by rw [pow_succ, mul_assoc]
    _ < 10 ^ 16 * d * 10 := Nat.mul_lt_mul_of_pos_right hprev (by decide)
    _ = 10 ^ 17 * d := by ring

theorem IsLeastScale.dividend_lt {c d j : Nat} (h : IsLeastScale c d j) (hc0 : c ≠ 0) (hc : c ≤ cmax) (hd0 : d ≠ 0)
    (hd : d ≤ cmax) : c * 10 ^ j < 10 ^ 48 :=
  calc c * 10 ^ j ≤ cmax * 10 ^ 32 := Nat.mul_le_mul hc (Nat.pow_le_pow_right (by decide) (h.le hc0 hd0 hd))
    _ < 10 ^ 48 := by decide

/-! ### The divider -/

theorem infinityDiv_of_finite (cfg : Config) {x y : LD} (hx : x.k = .finite) (hy : y.k = .finite) (hy0 : y.c ≠ 0) :
    infinityDiv cfg x y = none :=
  infinityDiv_eq_none_iff.2 ⟨by simp [hx], by simp [hy], by simp [LD.isZero, hy0]⟩

theorem divLogical_of_finite (cfg : Config) {x y : LD} (hx : x.k = .finite) (hy : y.k = .finite) (hy0 : y.c ≠ 0) :
    divLogical cfg x y = divFinite x y := by
  rw [divLogical, nanOperand_of_finite hx hy, infinityDiv_of_finite cfg hx hy hy0]
  rfl

theorem divFinite_of_zero {x : LD} (hx : x.c = 0) (y : LD) :
    divFinite x y = .ok (finalize (xor x.s y.s) 0 (x.e - y.e) false) :=
  if_pos hx

theorem divFinite_of_exact {x y : LD} {c j : Nat} (hx0 : x.c ≠ 0) (hy0 : y.c ≠ 0) (hy : y.c ≤ cmax)
    (h : QuotientAt x.c y.c c j) (hleast : ∀ i, i < j → ¬ ∃ b, QuotientAt x.c y.c b i) :
    divFinite x y = .ok (finalize (xor x.s y.s) c (x.e - y.e - j) false) := by
  have hscale : j < 0 + 33 := by simpa using h.scale_lt hx0 hy
  rw [divFinite, if_neg hx0, exactQuotient_of_least hy0 h (Nat.zero_le j) hscale hleast]

theorem divFinite_of_inexact {x y : LD} {j : Nat} (hx0 : x.c ≠ 0) (hy0 : y.c ≠ 0) (hy : y.c ≤ cmax)
    (hnone : ¬ ∃ i b, QuotientAt x.c y.c b i) (h : IsLeastScale x.c y.c j) :
    divFinite x y = .ok (finalize (xor x.s y.s) (x.c * 10 ^ j / y.c) (x.e - y.e - j)
      (decide (x.c * 10 ^ j % y.c ≠ 0))) := by
  rw [divFinite, if_neg hx0, exactQuotient_eq_none hy0 hnone]
  dsimp only
  rw [divInexact_ok hx0 hy0 hy, h.leastScale_eq hx0 hy0 hy]

/-- Settles O47: DIV packs what `divFinite` answers for a zero dividend, on the exact path (`divFinite_of_exact`) and on the
inexact one (`divFinite_of_inexact`). -/
theorem quotientsOfFiniteOperands : Obligations.QuotientsOfFiniteOperands := by
  rintro s x y rfl rfl hx hy hy0
  have hxc := (bidDecode_bounds hx).1
  have hyc := (bidDecode_bounds hy).1
  obtain ⟨r, hr⟩ := divFinite_ok (bidDecode s.a) hy0 hyc
  have hres : ∀ q, divFinite (bidDecode s.a) (bidDecode s.b) = .ok q → r = q := fun q hq =>
    Except.ok.inj (hr.symm.trans hq)
  refine ⟨bidPack r, exec_div_of_ok (by rw [divLogical_of_finite _ hx hy hy0, hr]), fun hx0 => ?_,
    fun c j hx0 hc h hleast => ?_, fun j hx0 hnone h1 hlarge hleast => ?_⟩
  · rw [hres _ (divFinite_of_zero hx0 _), bidDecode_bidPack_finalize, finalize_zero, clamp_eq_max_min]
  · rw [hres _ (divFinite_of_exact hx0 hy0 hyc ⟨hc, h⟩ hleast)]
  · have hscale : IsLeastScale (bidDecode s.a).c (bidDecode s.b).c j := ⟨h1, hlarge, hleast⟩
    exact ⟨hscale.le hx0 hy0 hyc, hscale.dividend_lt hx0 hxc hy0 hyc, hscale.quotient_lt hxc hy0,
      by rw [hres _ (divFinite_of_inexact hx0 hy0 hyc hnone hscale)]⟩

end Sys2Proof.Machine
end

section
/-!
ADD and MUL are commutative (44_arithmetic.md R176), step by step of the precedence.
-/

namespace Sys2Proof.Machine

/-! ### On logical values -/

/-- With at most one NaN operand there is nothing to choose. -/
theorem nanOperand_comm {x y : LD} (h : ¬ (x.isNaN ∧ y.isNaN)) : nanOperand x y = nanOperand y x := by
  by_cases hx : x.isNaN
  · have hy : ¬ y.isNaN := fun hy => h ⟨hx, hy⟩
    obtain ⟨hyq, hys⟩ := not_or.1 hy
    simp [nanOperand, hyq, hys]
  · obtain ⟨hxq, hxs⟩ := not_or.1 hx
    simp [nanOperand, hxq, hxs]

theorem infinityAdd_comm (x y : LD) : infinityAdd x y y.s = infinityAdd y x x.s := by
  by_cases hx : x.k = .infinity
  · by_cases hy : y.k = .infinity
    · by_cases hs : x.s = y.s
      · simp [infinityAdd, hx, hy, hs]
      · simp [infinityAdd, hx, hy, hs, Ne.symm hs]
    · simp [infinityAdd, hx, hy]
  · simp [infinityAdd, hx]

theorem infinityMul_comm (x y : LD) : infinityMul x y = infinityMul y x := by
  rw [infinityMul, infinityMul, Bool.xor_comm]
  exact if_congr or_comm (if_congr or_comm rfl rfl) rfl

theorem exactSum_comm (x y : LD) : exactSum x y y.s = exactSum y x x.s := by
  rw [exactSum, exactSum, align, align, min_comm, add_comm]

theorem addCore_comm (x y : LD) : addCore x y y.s = addCore y x x.s := by
  rw [addCore, addCore, exactSum_comm, Bool.and_comm]
  simp only [align, min_comm]

theorem mulFinite_comm (x y : LD) : mulFinite x y = mulFinite y x := by
  rw [mulFinite, mulFinite, Bool.xor_comm, mul_comm, add_comm]

theorem addLogical_comm {x y : LD} (h : ¬ (x.isNaN ∧ y.isNaN)) : addLogical x y = addLogical y x := by
  rw [addLogical, addLogical, nanOperand_comm h, infinityAdd_comm, addCore_comm]

theorem mulLogical_comm {x y : LD} (h : ¬ (x.isNaN ∧ y.isNaN)) : mulLogical x y = mulLogical y x := by
  rw [mulLogical, mulLogical, nanOperand_comm h, infinityMul_comm, mulFinite_comm]

/-! ### On the ports -/

/-- ADD and MUL are one function of the decoded operands, which is commutative. -/
theorem exec_commutative {i : Instr} (hi : i = .add ∨ i = .mul) :
    ∃ f : LD → LD → LD, (∀ s, exec i s = .next (s.drive (.res (bidPack (f (bidDecode s.a) (bidDecode s.b)))))) ∧
      ∀ x y, ¬ (x.isNaN ∧ y.isNaN) → f x y = f y x := by
  obtain rfl | rfl := hi
  · exact ⟨addLogical, fun _ => rfl, fun _ _ => addLogical_comm⟩
  · exact ⟨mulLogical, fun _ => rfl, fun _ _ => mulLogical_comm⟩

theorem res_of_isNaN {s t : State} {i : Instr} {v : Word} (hi : i.IsArithmetic)
    (h : (bidDecode s.a).isNaN ∨ (bidDecode s.b).isNaN) (ht : exec i s = .next t) (hv : t.res = some v) :
    v = quietNaNWord false ∨ v = quietNaNWord true := by
  rw [exec_of_isNaN hi h] at ht
  cases ht
  cases hv
  cases chosenNaNSign (bidDecode s.a) (bidDecode s.b)
  · exact .inl rfl
  · exact .inr rfl

/-- Settles O48: both orders are one commutative function of the decoded operands (`exec_commutative`), except with two NaNs,
which give quiet NaN words (`res_of_isNaN`). -/
theorem sumsAndProductsCommute : Obligations.SumsAndProductsCommute := by
  intro s i hi
  have harith : i.IsArithmetic := hi.elim .inl fun h => .inr (.inr (.inl h))
  obtain ⟨f, hexec, hcomm⟩ := exec_commutative hi
  refine ⟨_, _, _, _, hexec s, rfl, hexec _, rfl, fun h => ?_, fun ha hb => ⟨?_, ?_⟩⟩
  · rw [hcomm _ _ h]
  · exact res_of_isNaN harith (.inl ha) (hexec s) rfl
  · exact res_of_isNaN harith (.inl hb) (hexec _) rfl

end Sys2Proof.Machine
end

section
/-!
Identity elements (44_arithmetic.md R177): adding a zero and multiplying by one give the operand's significand with zeros after
it, and rounding drops zeros exactly.
-/

namespace Sys2Proof.Machine

/-! ### Rounding of trailing zeros -/

/-- When exactly the trailing zeros of a significand are dropped, the result is exact. -/
theorem finalize_of_dropped_zeros {s : Bool} {q d : Nat} {E : Int} (hq0 : q ≠ 0) (hq : q ≤ cmax)
    (hd : dropCount (q * 10 ^ d) E = d) (hE : E + d ≤ emax) : finalize s (q * 10 ^ d) E false = ⟨s, .finite, q, E + d⟩ := by
  have hround : roundToWidth (q * 10 ^ d) E false = (q, E + d) := by
    by_cases hd0 : d = 0
    · subst hd0
      rw [roundToWidth_of_dropCount_eq_zero hd, pow_zero, mul_one, Nat.cast_zero, add_zero]
    · have hcarry : q ≠ 10 ^ precision := by simp only [cmax, precision] at *; omega
      rw [roundToWidth_of_dropCount_ne_zero (by omega), hd, roundDigits_mul_pow (Nat.one_le_iff_ne_zero.2 hd0), carry,
        if_neg hcarry]
  rw [finalize_of_ne_zero (Nat.mul_ne_zero hq0 (by positivity)), hround, fitExponent_of_le hE]

/-- A nonzero in-range value written with any number of zeros after its significand is finalized to a member of its cohort:
only zeros are dropped. -/
theorem finalize_trailing_zeros {s : Bool} {c : Nat} {e : Int} (k : Nat) (hc0 : c ≠ 0) (hc : c ≤ cmax)
    (he : emin ≤ e ∧ e ≤ emax) :
    ∃ j : Nat, finalize s (c * 10 ^ k) (e - k) false = ⟨s, .finite, c * 10 ^ j, e - j⟩ := by
  have hn := ndig_le_precision.2 hc
  have hdrop : dropCount (c * 10 ^ k) (e - k) = max (ndig c + k - precision) (emin - (e - k)).toNat := by
    rw [dropCount, ndig_mul_pow hc0]
  obtain ⟨j, hj⟩ : ∃ j, k = j + dropCount (c * 10 ^ k) (e - k) := Nat.exists_eq_add_of_le' (by omega)
  have hq : c * 10 ^ j ≤ cmax := by
    rw [← ndig_le_precision, ndig_mul_pow hc0]
    omega
  have hpow : c * 10 ^ j * 10 ^ dropCount (c * 10 ^ k) (e - k) = c * 10 ^ k := by rw [mul_assoc, ← pow_add, ← hj]
  have hexact := finalize_of_dropped_zeros (s := s) (E := e - k) (Nat.mul_ne_zero hc0 (by positivity)) hq
    (by rw [hpow]) (by omega)
  refine ⟨j, ?_⟩
  rw [hpow] at hexact
  rw [hexact]
  congr 1
  omega

theorem numEq_finalize_trailing_zeros (s : Bool) {c : Nat} {e : Int} (k : Nat) (hc : c ≤ cmax)
    (he : emin ≤ e ∧ e ≤ emax) : numEq (finalize s (c * 10 ^ k) (e - k) false) ⟨s, .finite, c, e⟩ := by
  by_cases hc0 : c = 0
  · subst hc0
    rw [Nat.zero_mul, finalize_zero]
    exact numEq_zero ..
  · obtain ⟨j, hj⟩ := finalize_trailing_zeros k hc0 hc he
    rw [hj]
    exact numEq_cohort ..

/-! ### Adding a zero -/

theorem natAbs_signed (s : Bool) (n : Nat) : (signed s n).natAbs = n := by
  cases s <;> simp [signed]

theorem decide_signed_neg {n : Nat} (hn : n ≠ 0) (s : Bool) : decide (signed s n < 0) = s := by
  cases s <;> simp [signed, Nat.pos_of_ne_zero hn]

theorem exactSum_zero_right (x : LD) {y : LD} (hy : y.c = 0) (sy : Bool) :
    exactSum x y sy = signed x.s (x.c * 10 ^ (x.e - min x.e y.e).toNat) := by
  simp [exactSum, align, hy, signed]

theorem addCore_zero_zero {x y : LD} (he : emin ≤ min x.e y.e ∧ min x.e y.e ≤ emax) (hx : x.c = 0) (hy : y.c = 0)
    (sy : Bool) : addCore x y sy = ⟨x.s && sy, .finite, 0, min x.e y.e⟩ :=
  addCore_of_eq_zero he (by simp [exactSum_eq, hx, hy])

/-- A nonzero value plus a zero is rounded with the zeros that alignment gives it. -/
theorem addCore_zero_right {x y : LD} {k : Nat} (hx : x.c ≠ 0) (hy : y.c = 0) (hk : min x.e y.e = x.e - k) (sy : Bool) :
    addCore x y sy = finalize x.s (x.c * 10 ^ k) (x.e - k) false := by
  have hne : x.c * 10 ^ k ≠ 0 := Nat.mul_ne_zero hx (by positivity)
  have hsum : exactSum x y sy = signed x.s (x.c * 10 ^ k) := by
    rw [exactSum_zero_right x hy, hk, sub_sub_cancel, Int.toNat_natCast]
  have hsum0 : exactSum x y sy ≠ 0 := by rwa [hsum, ← Int.natAbs_ne_zero, natAbs_signed]
  rw [addCore_of_ne_zero hsum0, hsum, natAbs_signed, decide_signed_neg hne, hk]

theorem numEq_addCore_zero_right {x y : LD} (hxk : x.k = .finite) (hxc : x.c ≤ cmax) (hxe : emin ≤ x.e ∧ x.e ≤ emax)
    (hye : emin ≤ y.e ∧ y.e ≤ emax) (hy : y.c = 0) (sy : Bool) : numEq (addCore x y sy) x := by
  obtain ⟨s, k, c, e⟩ := x
  obtain rfl : k = .finite := hxk
  by_cases hc0 : c = 0
  · subst hc0
    rw [addCore_zero_zero (min_exponent_range hxe hye) rfl hy]
    exact numEq_zero ..
  · obtain ⟨k, hk⟩ : ∃ k : Nat, e - min e y.e = k := Int.eq_ofNat_of_zero_le (by omega)
    rw [addCore_zero_right (k := k) hc0 hy (by dsimp only; omega)]
    exact numEq_finalize_trailing_zeros s k hxc hxe

/-- A zero of no smaller exponent leaves the operand itself, except that `-0 + +0` is `+0` (R166). -/
theorem addCore_zero_right_eq {x y : LD} (hxk : x.k = .finite) (hxc : x.c ≤ cmax) (hxe : emin ≤ x.e ∧ x.e ≤ emax)
    (hy : y.c = 0) (hle : x.e ≤ y.e) {sy : Bool} (hsign : ¬ (x.c = 0 ∧ x.s = true ∧ sy = false)) :
    addCore x y sy = x := by
  obtain ⟨s, k, c, e⟩ := x
  obtain rfl : k = .finite := hxk
  have hmin : min e y.e = e := min_eq_left hle
  by_cases hc0 : c = 0
  · subst hc0
    have hs : (s && sy) = s := by
      cases s
      · rfl
      · simpa using hsign
    rw [addCore_zero_zero (by rwa [hmin]) rfl hy]
    simp only [hs, hmin]
  · rw [addCore_zero_right (k := 0) hc0 hy (by simpa using hle), pow_zero, mul_one, Nat.cast_zero, sub_zero]
    exact finalize_of_inRange hxc hxe

/-! ### Multiplying by one -/

/-- The members of the cohort of 1. -/
theorem exists_of_value_eq_one {y : LD} (h : y.value = 1) : y.s = false ∧ ∃ k : Nat, y.c = 10 ^ k ∧ y.e = -k := by
  obtain ⟨s, k, c, e⟩ := y
  obtain rfl : s = false := by
    rw [← Bool.not_eq_true]
    rintro rfl
    have hneg : -((c : ℚ) * 10 ^ e) = 1 := by simpa [LD.value, LD.magnitude] using h
    have hnonneg : (0 : ℚ) ≤ c * 10 ^ e := by positivity
    linarith
  have hval : (c : ℚ) * 10 ^ e = 1 := by simpa [LD.value, LD.magnitude] using h
  obtain ⟨k, rfl | rfl⟩ := e.eq_nat_or_neg
  · have hnat : c * 10 ^ k = 1 := by exact_mod_cast hval
    obtain ⟨rfl, hk⟩ := mul_eq_one.1 hnat
    obtain rfl : k = 0 := by simpa using hk
    exact ⟨rfl, 0, rfl, rfl⟩
  · refine ⟨rfl, k, ?_, rfl⟩
    rw [zpow_neg, zpow_natCast, ← div_eq_mul_inv, div_eq_one_iff_eq (by positivity)] at hval
    exact_mod_cast hval

theorem numEq_mulFinite_one {x y : LD} (hxk : x.k = .finite) (hxc : x.c ≤ cmax) (hxe : emin ≤ x.e ∧ x.e ≤ emax)
    (hy : y.value = 1) : numEq (mulFinite x y) x := by
  obtain ⟨s, k, c, e⟩ := x
  obtain rfl : k = .finite := hxk
  obtain ⟨hs, k, hc, he⟩ := exists_of_value_eq_one hy
  rw [mulFinite, hs, hc, he, Bool.xor_false, ← sub_eq_add_neg]
  exact numEq_finalize_trailing_zeros s k hxc hxe

theorem mulFinite_one {x : LD} (hxk : x.k = .finite) (hxc : x.c ≤ cmax) (hxe : emin ≤ x.e ∧ x.e ≤ emax) :
    mulFinite x ⟨false, .finite, 1, 0⟩ = x := by
  obtain ⟨s, k, c, e⟩ := x
  obtain rfl : k = .finite := hxk
  rw [mulFinite, Bool.xor_false, mul_one, add_zero]
  exact finalize_of_inRange hxc hxe

/-- The word of 1 with exponent 0 (R177). -/
theorem bidDecode_one : bidDecode 0x31C0000000000001 = ⟨false, .finite, 1, 0⟩ := by decide

/-- Settles O49: a zero operand or a member of the cohort of 1 adds trailing zeros at most, which rounding drops exactly
(`numEq_finalize_trailing_zeros`). -/
theorem identityElements : Obligations.IdentityElements := by
  rintro s x y rfl rfl hx hy
  obtain ⟨hxc, hxe⟩ := bidDecode_bounds hx
  refine ⟨fun hy0 => ?_, fun hy1 => ?_⟩
  · refine ⟨_, _, exec_sum (.inl ⟨rfl, rfl⟩), rfl, ?_⟩
    rw [sumLogical_of_finite hx hy, bidDecode_bidPack_addCore]
    exact ⟨numEq_addCore_zero_right hx hxc hxe (bidDecode_bounds hy).2 hy0 _,
      fun hle => addCore_zero_right_eq hx hxc hxe hy0 hle⟩
  · refine ⟨_, _, exec_mul s, rfl, ?_⟩
    rw [mulLogical_of_finite hx hy, bidDecode_bidPack_mulFinite]
    refine ⟨numEq_mulFinite_one hx hxc hxe hy1, fun hb => ?_⟩
    rw [hb, bidDecode_one, mulFinite_one hx hxc hxe]

end Sys2Proof.Machine
end

section
/-!
The classifier (45_classifier.md): the class of a word by its bits, as the class code that DECODE drives (R192) and as the
bit that ISNAN drives (R190, R191).
-/

namespace Sys2Proof.Machine

/-- The class code on the bus of a decoded word is that of the class its bits give (R71, R192). -/
theorem toBus_bidDecode_classCode {w : Word} {k : Class} (h : classify w = k) :
    (toBus (bidDecode w)).toNat / 2 ^ 70 % 4 = (classCode k).toNat := by
  obtain ⟨-, hk, -, -⟩ := field_toBus (LD.onBus_of_inRange (bidDecode_inRange w))
  rwa [bidDecode_class, h] at hk

/-- Settles O25: each bit condition gives its class (`classify_finite` and its likes), whose code the bus of the decoded
word carries (`toBus_bidDecode_classCode`). -/
theorem classOfAWordByItsBits : Obligations.ClassOfAWordByItsBits := by
  intro s
  have hcode {k : Class} (h : classify s.a = k) :
      classify s.a = k ∧ (toBus (bidDecode s.a)).toNat / 2 ^ 70 % 4 = (classCode k).toNat :=
    ⟨h, toBus_bidDecode_classCode h⟩
  exact ⟨toBus (bidDecode s.a), exec_decode_of_bidDecode rfl, (bidDecode_class s.a).symm,
    fun h => hcode (classify_finite h), fun h => hcode (classify_infinity h),
    fun h => hcode (classify_quietNaN h), fun h => hcode (classify_signalingNaN h)⟩

/-- A word is of a NaN class exactly when its bits 62 to 58 are all ones (R191): bit 57 tells the two NaN classes apart, and
bit 58 them from infinity. -/
theorem classify_isNaN_iff {w : Word} : (classify w).isNaN = true ↔ w.toNat / 2 ^ 58 % 32 = 31 := by
  obtain h | h | h | h : w.toNat / 2 ^ 59 % 16 ≠ 15 ∨ w.toNat / 2 ^ 58 % 32 = 30 ∨ w.toNat / 2 ^ 57 % 64 = 62 ∨
      w.toNat / 2 ^ 57 % 64 = 63 := by omega
  · rw [classify_finite h]
    exact iff_of_false Bool.false_ne_true (by omega)
  · rw [classify_infinity h]
    exact iff_of_false Bool.false_ne_true (by omega)
  · rw [classify_quietNaN h]
    exact iff_of_true rfl (by omega)
  · rw [classify_signalingNaN h]
    exact iff_of_true rfl (by omega)

/-- ISNAN drives the bit that says whether the word on `A` is of a NaN class (R190). -/
theorem exec_isnan (s : State) :
    exec .isnan s = .next (s.drive (.flag (BitVec.ofBool (classify s.a).isNaN))) := by
  rw [← bidDecode_class]
  rfl

/-- Settles O30: the NaN classes are those of the words with five ones below the sign (`classify_isNaN_iff`). -/
theorem isnanIsTheBitTest : Obligations.IsnanIsTheBitTest := by
  intro s
  rw [exec_isnan]
  split
  case isTrue h =>
    rw [classify_isNaN_iff.2 h]
    rfl
  case isFalse h =>
    rw [Bool.eq_false_of_not_eq_true (mt classify_isNaN_iff.1 h)]
    rfl

end Sys2Proof.Machine
end

section
/-!
No response before the first (70_reset_and_hazards.md R221): what a completed move can do, and that the response ports stay
empty until an answer is collected.
-/

namespace Sys2Proof.Machine

/-! ### Completed moves -/

theorem step_done {s : State} {r : Result} (h : nextMove s = .done r) : step s = r := by
  unfold step
  rw [h]

/-- A completed move idles, issues a request, reads a driven port or resets the CORE (R221, R231). -/
theorem nextMove_done {s t : State} (h : nextMove s = .done (.next t)) :
    ∃ rest, (s.pending = [] ∧ t = { s with inbox := rest }) ∨
      (∃ p, t = { s with inbox := rest }.submit p) ∨
      (∃ q v, s.readPort q = .ok v ∧ t = { s with inbox := rest, lastRead := some v }) ∨
      t = { s.resetCore with inbox := rest } := by
  have idle {u : State} (hu : serveOldest u = .done (.next t)) : u.pending = [] ∧ t = u := by
    obtain ⟨hp, hd⟩ | ⟨p, rest, -, hd⟩ := serveOldest_cases u
    · cases hd.symm.trans hu
      exact ⟨hp, rfl⟩
    · cases hd.symm.trans hu
  unfold nextMove at h
  split at h
  case h_1 => exact ⟨s.inbox, .inl (idle h)⟩
  case h_2 l rest _ =>
    unfold issueLine at h
    split at h <;> split at h
    · exact ⟨s.inbox, .inl (idle h)⟩
    · cases h
      exact ⟨rest, .inr (.inl ⟨_, rfl⟩)⟩
    · exact ⟨s.inbox, .inl (idle h)⟩
    · cases h
  case h_3 n r rest _ =>
    cases h
    exact ⟨rest, .inr (.inl ⟨_, rfl⟩)⟩
  case h_4 rest _ => exact ⟨rest, .inl (idle h)⟩
  case h_5 q rest _ =>
    unfold hostRead at h
    split at h
    case h_1 v hv =>
      cases h
      exact ⟨rest, .inr (.inr (.inl ⟨q, v, hv, rfl⟩))⟩
    case h_2 => cases h
  case h_6 rest _ =>
    cases h
    exact ⟨rest, .inr (.inr (.inr rfl))⟩

/-! ### Empty response ports -/

theorem noResponse_resetCore (s : State) : noResponse s.resetCore := ⟨rfl, rfl, rfl, rfl⟩

@[simp] theorem noResponse_submit {s : State} {p : Pending} : noResponse (s.submit p) ↔ noResponse s := by
  simp [noResponse]

/-- Reading a port that holds no value faults, and gives no value (R35, R221). -/
theorem noResponse.readPort {s : State} (h : noResponse s) (p : ResponsePort) :
    s.readPort p = .error (.undrivenPort p) := by
  obtain ⟨hres, hlres, htout, hflag⟩ := h
  cases p <;> simp [State.readPort, *]

/-- No completed move drives a response: only a served request does (R35). -/
theorem noResponse_of_nextMove_done {s t : State} (hs : noResponse s) (h : nextMove s = .done (.next t)) :
    noResponse t := by
  obtain ⟨rest, ⟨-, rfl⟩ | ⟨p, rfl⟩ | ⟨q, v, -, rfl⟩ | rfl⟩ := nextMove_done h
  · exact hs
  · exact noResponse_submit.2 hs
  · exact hs
  · exact noResponse_resetCore s

/-- A request that is served without an answer was refused, which leaves the response ports alone (R58). -/
theorem noResponse_of_nextMove_serve {s t u : State} {p : Pending} (hs : noResponse s) (h : nextMove s = .serve p u)
    (hst : step s = .next t) (hanswers : t.answers = s.answers) : noResponse t := by
  obtain ⟨r, -, rfl⟩ | ⟨reason, -, rfl⟩ := step_serve h hst <;> obtain ⟨rest, inbox, -, rfl⟩ := nextMove_serve h
  · simp at hanswers
  · exact hs

/-- Settles O10: a step without an answer is a completed move or a refusal, neither of which drives a port
(`noResponse_of_nextMove_done`, `noResponse_of_nextMove_serve`). -/
theorem noResponseUntilTheFirst : Obligations.NoResponseUntilTheFirst := by
  refine ⟨⟨rfl, rfl, rfl, rfl⟩, fun s rest hin => ?_, fun s t hs hst hanswers => ?_, fun s p rest hs hin => ?_⟩
  · refine ⟨{ s.resetCore with inbox := rest }, step_done ?_, noResponse_resetCore s⟩
    rw [nextMove, hin]
  · cases h : nextMove s with
    | done r => exact noResponse_of_nextMove_done hs (h.trans (congrArg Move.done ((step_done h).symm.trans hst)))
    | serve p u => exact noResponse_of_nextMove_serve hs h hst hanswers
  · refine step_done ?_
    rw [nextMove, hin]
    simp only [hostRead, hs.readPort]

end Sys2Proof.Machine
end

section
/-!
The opcode map on the bytes and the numbered words a host writes (30_encoding.md R53, R56; log 7).
-/

namespace Sys2Proof

theorem decodeBytes_encodeByte (i : Instr) : decodeBytes [encodeByte i] = .ok i := by
  cases i with
  | reservedHigh low => exact (Laws.Encoding.reservedHigh low).2
  | _ => rfl

/-- A numbered word below the byte range is decoded as the byte it spells. -/
theorem decodeTableWord_encodeOp (nbits : Nat) (i : Instr) : decodeTableWord nbits (encodeOp i).toNat = some i := by
  have hlt : (encodeOp i).toNat < 256 := (encodeOp i).isLt.trans (by decide)
  have hbyte : BitVec.ofNat 8 (encodeOp i).toNat = encodeByte i := BitVec.ofNat_toNat 8 (encodeOp i)
  rw [decodeTableWord, if_pos hlt, hbyte, decodeBytes_encodeByte]
  rfl

/-- Settles O3: each form of the code decodes back (`decodeOp_encodeOp`, `decodeBytes_encodeByte`,
`decodeTableWord_encodeOp`). -/
theorem decodeUndoesEncode : Obligations.DecodeUndoesEncode := fun i =>
  ⟨decodeOp_encodeOp i, decodeBytes_encodeByte i, decodeTableWord_encodeOp 8 i⟩

/-- Settles O2: the sixteen rows of R56, row by row. -/
theorem opcodeWordsSelectTheirRows : Obligations.OpcodeWordsSelectTheirRows := by
  unfold Obligations.OpcodeWordsSelectTheirRows
  decide

end Sys2Proof
end

section
/-!
Texts of values (42_formatter.md R127, R128): how long they are, and which values print alike.
-/

namespace Sys2Proof.Machine

/-! ### Lengths (R127) -/

theorem signText_length_le (s : Bool) : (signText s).length ≤ 1 := by
  cases s <;> decide

theorem finiteText_length (c : Nat) (e : Int) :
    (finiteText c e).length = 19 + ndig (e + ndig c - 1).natAbs := by
  simp only [finiteText, significantDigits, exponentText, decimalText, precision, List.length_append, List.length_cons,
    List.length_take, List.length_drop, decimalDigits_length]
  omega

/-- The adjusted exponent of an in-range value has at most three digits (R124). -/
theorem ndig_adjusted_le {c : Nat} {e : Int} (hc : c ≤ cmax) (he : emin ≤ e ∧ e ≤ emax) :
    ndig (e + ndig c - 1).natAbs ≤ 3 := by
  have h1 := one_le_ndig c
  have h16 := ndig_le_precision.2 hc
  rw [ndig_le_iff (by decide)]
  simp only [emin, emax, precision] at *
  omega

theorem formatText_length_of_finite {x : LD} (hk : x.k = .finite) (hx : x.inRange = true) :
    20 ≤ (formatText x).length ∧ (formatText x).length ≤ 23 := by
  obtain ⟨hc, he⟩ := (LD.inRange_finite_iff hk).1 hx
  have hsign := signText_length_le x.s
  have hexp1 := one_le_ndig (x.e + ndig x.c - 1).natAbs
  have hexp3 := ndig_adjusted_le hc he
  rw [formatText_finite hk, List.length_append, finiteText_length]
  omega

theorem formatText_length_of_special {x : LD} (hk : x.k ≠ .finite) :
    (formatText x).length = 3 ∨ (formatText x).length = 4 := by
  obtain ⟨s, k, c, e⟩ := x
  cases k with
  | finite => exact absurd rfl hk
  | infinity | quietNaN | signalingNaN => cases s <;> simp [formatText, signText, textInf, textNan]

/-- Settles O53: FORMAT drives the text of the decoded word, which is in range. -/
theorem formatLengths : Obligations.FormatLengths := fun s =>
  ⟨_, _, exec_format s, rfl, fun hk => formatText_length_of_finite hk (bidDecode_inRange s.a),
    formatText_length_of_special⟩

/-! ### Finite values that print alike (R128) -/

/-- A text is a numeral in one way at most. -/
theorem numeralText_unique {t : List Byte} {s s' : Bool} {C C' : Nat} {E E' : Int} (h : NumeralText t s C E)
    (h' : NumeralText t s' C' E') : s = s' ∧ C = C' ∧ E = E' := by
  obtain ⟨hs, hn⟩ := numeralText_iff.1 h
  obtain ⟨hs', hn'⟩ := numeralText_iff.1 h'
  cases hn.symm.trans hn'
  exact ⟨hs.symm.trans hs', rfl, rfl⟩

/-- Finite values that print alike have the same sign, padded significand and exponent of its last digit. -/
theorem formatText_finite_inj {s s' : Bool} {c c' : Nat} {e e' : Int} (hc : c ≤ cmax) (hc' : c' ≤ cmax)
    (h : formatText ⟨s, .finite, c, e⟩ = formatText ⟨s', .finite, c', e'⟩) :
    s = s' ∧ c * 10 ^ (precision - ndig c) = c' * 10 ^ (precision - ndig c') ∧
      e - (precision - ndig c : Nat) = e' - (precision - ndig c' : Nat) :=
  numeralText_unique (numeralText_formatText hc) (h ▸ numeralText_formatText hc')

/-- The value of a significand is that of the padded one (R121). -/
theorem padded_value (c : Nat) (e : Int) :
    ((c * 10 ^ (precision - ndig c) : Nat) : ℚ) * 10 ^ (e - (precision - ndig c : Nat)) = c * 10 ^ e := by
  rw [cast_mul_pow_mul_zpow, sub_add_cancel]

theorem numEq_finite_iff {s : Bool} {c c' : Nat} {e e' : Int} :
    numEq ⟨s, .finite, c, e⟩ ⟨s, .finite, c', e'⟩ ↔ (c : ℚ) * 10 ^ e = c' * 10 ^ e' := by
  cases s <;> simp [numEq, LD.value, LD.magnitude]

/-- Trailing zeros of a significand print as padding does (R121). -/
theorem finiteText_mul_pow {c z : Nat} (hc0 : c ≠ 0) (hcz : c * 10 ^ z ≤ cmax) (e : Int) :
    finiteText (c * 10 ^ z) (e - z) = finiteText c e := by
  have hn : ndig (c * 10 ^ z) = ndig c + z := ndig_mul_pow hc0 z
  have hle : ndig c + z ≤ precision := hn ▸ ndig_le_precision.2 hcz
  have hdigits : significantDigits (c * 10 ^ z) = significantDigits c := by
    rw [significantDigits, hn, mul_assoc, ← pow_add, show z + (precision - (ndig c + z)) = precision - ndig c by omega]
    rfl
  have hadjusted : e - z + ndig (c * 10 ^ z) - 1 = e + ndig c - 1 := by
    rw [hn]
    omega
  rw [finiteText, hdigits, hadjusted]
  rfl

/-- Of two equal nonzero magnitudes, the one at the smaller exponent has its significand padded with zeros. -/
theorem finiteText_eq_of_le {c c' : Nat} {e e' : Int} (hc : c ≤ cmax) (hc0 : c' ≠ 0) (he : e ≤ e')
    (h : (c : ℚ) * 10 ^ e = c' * 10 ^ e') : finiteText c e = finiteText c' e' := by
  obtain ⟨z, rfl⟩ : ∃ z : Nat, e = e' - z := ⟨(e' - e).toNat, by omega⟩
  have hpad : ((c' * 10 ^ z : Nat) : ℚ) * 10 ^ (e' - z) = c' * 10 ^ e' := by
    rw [cast_mul_pow_mul_zpow, sub_add_cancel]
  obtain rfl : c = c' * 10 ^ z := by
    exact_mod_cast mul_right_cancel₀ (by positivity) (h.trans hpad.symm)
  exact finiteText_mul_pow hc0 hc e'

theorem finiteText_eq_of_value_eq {c c' : Nat} {e e' : Int} (hc : c ≤ cmax) (hc' : c' ≤ cmax) (hc0 : c ≠ 0)
    (hc0' : c' ≠ 0) (h : (c : ℚ) * 10 ^ e = c' * 10 ^ e') : finiteText c e = finiteText c' e' := by
  obtain he | he := le_total e e'
  · exact finiteText_eq_of_le hc hc0' he h
  · exact (finiteText_eq_of_le hc' hc0 he h.symm).symm

/-- Nonzero values print alike exactly when sign and value agree: the text is read back in one way. -/
theorem formatText_nonzero_iff {x y : LD} (hx : x.inRange = true) (hy : y.inRange = true) (hxk : x.k = .finite)
    (hyk : y.k = .finite) (hx0 : x.c ≠ 0) (hy0 : y.c ≠ 0) :
    formatText x = formatText y ↔ x.s = y.s ∧ numEq x y := by
  obtain ⟨hc, -⟩ := (LD.inRange_finite_iff hxk).1 hx
  obtain ⟨hc', -⟩ := (LD.inRange_finite_iff hyk).1 hy
  obtain ⟨s, k, c, e⟩ := x
  obtain ⟨s', k', c', e'⟩ := y
  obtain rfl : k = .finite := hxk
  obtain rfl : k' = .finite := hyk
  constructor
  · intro h
    obtain ⟨rfl, hpadded, hexponent⟩ := formatText_finite_inj hc hc' h
    refine ⟨rfl, numEq_finite_iff.2 ?_⟩
    rw [← padded_value c e, ← padded_value c' e', hpadded, hexponent]
  · rintro ⟨rfl, h⟩
    have htext := finiteText_eq_of_value_eq hc hc' hx0 hy0 (numEq_finite_iff.1 h)
    rw [formatText_finite rfl, formatText_finite rfl]
    exact congrArg _ htext

theorem formatText_zero_iff {x y : LD} (hxk : x.k = .finite) (hyk : y.k = .finite) (hx0 : x.c = 0) (hy0 : y.c = 0) :
    formatText x = formatText y ↔ x.s = y.s ∧ x.e = y.e := by
  obtain ⟨s, k, c, e⟩ := x
  obtain ⟨s', k', c', e'⟩ := y
  obtain ⟨rfl, rfl⟩ : k = .finite ∧ c = 0 := ⟨hxk, hx0⟩
  obtain ⟨rfl, rfl⟩ : k' = .finite ∧ c' = 0 := ⟨hyk, hy0⟩
  constructor
  · intro h
    obtain ⟨hs, -, he⟩ := formatText_finite_inj (Nat.zero_le _) (Nat.zero_le _) h
    exact ⟨hs, sub_left_injective he⟩
  · rintro ⟨rfl, rfl⟩
    rfl

/-! ### Special values that print alike (R128) -/

/-- Before one token, only the sign tells texts apart. -/
theorem signText_append_inj {s s' : Bool} {t : List Byte} : signText s ++ t = signText s' ++ t ↔ s = s' := by
  rw [List.append_cancel_right_eq]
  cases s <;> cases s' <;> decide

theorem formatText_special_iff {x y : LD} (h : (x.k = .infinity ∧ y.k = .infinity) ∨ (x.isNaN ∧ y.isNaN)) :
    formatText x = formatText y ↔ x.s = y.s := by
  obtain ⟨hx, hy⟩ | ⟨hx, hy⟩ := h
  · rw [formatText_infinity hx, formatText_infinity hy, signText_append_inj]
  · rw [formatText_nan hx, formatText_nan hy, signText_append_inj]

/-- Settles O54: `formatText_nonzero_iff`, `formatText_zero_iff` and `formatText_special_iff`. -/
theorem valuesThatPrintAlike : Obligations.ValuesThatPrintAlike := fun _ _ hx hy =>
  ⟨formatText_nonzero_iff hx hy, formatText_zero_iff, formatText_special_iff⟩

end Sys2Proof.Machine
end

section
/-!
The rounding engine at its ends (00_scope.md R10; 41_parser.md section 5; 43_rounding_alignment.md R141, R142): the digit
count, what underflows and what overflows whatever its digits, and that 17 digits with a sticky bit round as all of them do.
-/

namespace Sys2Proof.Machine

/-- Settles O33: `one_le_ndig`, `lt_pow_ndig` and `ndig_le_iff`. -/
theorem digitCountIsLeast : Obligations.DigitCountIsLeast := fun n =>
  ⟨one_le_ndig n, lt_pow_ndig n, fun _ hk => (ndig_le_iff hk).2, rfl, by decide, by decide, by decide⟩

/-! ### Underflow -/

/-- A significand of at most half of `10^d`, `d` the digits the exponent floor drops, is rounded to the zero at the floor. -/
theorem finalize_of_le_half {C d : Nat} {E : Int} (hC : C ≠ 0) (hd : 1 ≤ d) (hE : E + d = emin) (h : C ≤ 5 * 10 ^ (d - 1))
    (s : Bool) : finalize s C E false = ⟨s, .finite, 0, emin⟩ := by
  have hn : ndig C ≤ d := by
    have hpow : 10 ^ d = 10 ^ (d - 1) * 10 := by rw [← pow_succ, Nat.sub_add_cancel hd]
    have hpos : 0 < 10 ^ (d - 1) := by positivity
    exact (ndig_le_iff hd).2 (by omega)
  have hdrop : dropCount C E = d := by
    unfold dropCount
    omega
  have hround : roundDigits C d false = 0 := by
    rw [roundDigits_of_ndig_le hd hn, if_neg]
    rintro ⟨-, hgt | ⟨-, hsticky⟩⟩
    · exact h.not_gt hgt
    · cases hsticky
  have hwidth : roundToWidth C E false = (0, emin) := by
    rw [roundToWidth_of_dropCount_ne_zero (by omega), hdrop, hround, hE]
    rfl
  rw [finalize_of_ne_zero hC, hwidth]
  rfl

/-- Half of the least positive magnitude, in units of a smaller exponent. -/
theorem half_least_eq {d : Nat} {E : Int} (hd : 1 ≤ d) (hE : E + d = emin) :
    (10 : ℚ) ^ emin / 2 = ((5 * 10 ^ (d - 1) : Nat) : ℚ) * 10 ^ E := by
  rw [cast_mul_pow_mul_zpow, ← hE, show E + (d : Int) = E + (d - 1 : Nat) + 1 by omega, zpow_add_one₀ (by norm_num)]
  push_cast
  ring

/-- A nonzero magnitude of at most half the least positive one is rounded to zero (R141). -/
theorem finalize_of_le_half_least {C : Nat} {E : Int} (hC : C ≠ 0) (h : (C : ℚ) * 10 ^ E ≤ 10 ^ emin / 2) (s : Bool) :
    finalize s C E false = ⟨s, .finite, 0, emin⟩ := by
  have hC1 : (1 : ℚ) ≤ C := by exact_mod_cast Nat.one_le_iff_ne_zero.2 hC
  have hlow : E < emin := by
    by_contra hge
    have hpow : (10 : ℚ) ^ emin ≤ 10 ^ E := zpow_le_zpow_right₀ (by norm_num) (not_lt.1 hge)
    have hpos : (0 : ℚ) < 10 ^ emin := by positivity
    have hvalue := mul_le_mul hC1 hpow hpos.le (by positivity)
    linarith
  obtain ⟨d, hd⟩ : ∃ d : Nat, emin - E = d := Int.eq_ofNat_of_zero_le (by omega)
  rw [half_least_eq (d := d) (E := E) (by omega) (by omega), mul_le_mul_iff_left₀ (by positivity), Nat.cast_le] at h
  exact finalize_of_le_half hC (by omega) (by omega) h s

/-- A magnitude above half the least positive one is nearer to that than to zero (R136). -/
theorem finalize_ne_zero_of_half_least_lt {C : Nat} {E : Int} {s : Bool} (h : (10 : ℚ) ^ emin / 2 < C * 10 ^ E) :
    ¬ ((finalize s C E false).k = .finite ∧ (finalize s C E false).c = 0) := by
  rintro ⟨hk, hc⟩
  have hnear :=
    (finalize_nearerOrEven (y := ⟨s, .finite, 1, emin⟩) (.inl ⟨rfl, rfl⟩) (by simp) hk (by rfl) rfl).1
  rw [LD.magnitude, LD.magnitude, hc, Nat.cast_zero, zero_mul, Nat.cast_one, one_mul, add_zero, sub_zero] at hnear
  have hpos : (0 : ℚ) < 10 ^ emin := by positivity
  rw [abs_of_nonneg (by positivity), le_abs] at hnear
  obtain hle | hle := hnear <;> linarith

/-- Settles O37: exact zeros are clamped (`finalize_zero`); a nonzero value is rounded to zero up to half of the least
magnitude (`finalize_of_le_half_least`) and never above (`finalize_ne_zero_of_half_least_lt`). -/
theorem underflowKeepsTheSign : Obligations.UnderflowKeepsTheSign := by
  refine ⟨fun s E => ?_, fun s C E hC => ⟨fun h => finalize_of_le_half_least hC h s, finalize_ne_zero_of_half_least_lt⟩⟩
  simp only [finalize_zero, clamp_eq_max_min, LD.mk.injEq, true_and]
  omega

/-! ### Saturated exponents (41_parser.md section 5) -/

/-- Rounding never lowers the exponent. -/
theorem le_roundToWidth_snd (C : Nat) (E : Int) (sticky : Bool) : E ≤ (roundToWidth C E sticky).2 := by
  unfold roundToWidth carry
  split_ifs <;> simp only <;> omega

/-- From the exponent 385 on every nonzero value overflows (R142). -/
theorem finalize_of_385_le {C : Nat} {E : Int} (hC : C ≠ 0) (hE : 385 ≤ E) (s : Bool) (sticky : Bool) :
    finalize s C E sticky = ⟨s, .infinity, 0, 0⟩ := by
  have hE1 := le_roundToWidth_snd C E sticky
  have hq : (roundToWidth C E sticky).1 ≠ 0 := roundToWidth_fst_ne_zero hC (by simp only [emin]; omega)
  have hpad : cmax < (roundToWidth C E sticky).1 * 10 ^ ((roundToWidth C E sticky).2 - emax).toNat :=
    calc cmax < 1 * 10 ^ 16 := by decide
      _ ≤ _ := Nat.mul_le_mul (Nat.one_le_iff_ne_zero.2 hq) (Nat.pow_le_pow_right (by decide) (by simp only [emax]; omega))
  rw [finalize_of_ne_zero hC]
  exact fitExponent_of_lt_padded hq (by simp only [emax]; omega) hpad

/-- An integer of at most `n` digits at an exponent of at most `-399 - n` underflows (R141). -/
theorem finalize_of_le_neg {C n : Nat} {E : Int} (hC : C ≠ 0) (hn : ndig C ≤ n) (hE : E + n ≤ -399) (s : Bool) :
    finalize s C E false = ⟨s, .finite, 0, emin⟩ := by
  refine finalize_of_le_half_least hC ?_ s
  have hlt : (C : ℚ) ≤ 10 ^ (n : Int) := by
    rw [zpow_natCast]
    exact_mod_cast ((lt_pow_ndig C).trans_le (Nat.pow_le_pow_right (by decide) hn)).le
  calc (C : ℚ) * 10 ^ E ≤ 10 ^ (n : Int) * 10 ^ E := by gcongr
    _ = 10 ^ (E + n) := by rw [← zpow_add₀ (by norm_num), add_comm]
    _ ≤ 10 ^ (emin - 1) := zpow_le_zpow_right₀ (by norm_num) hE
    _ ≤ 10 ^ emin / 2 := by
      rw [zpow_sub_one₀ (by norm_num), ← div_eq_mul_inv]
      gcongr
      norm_num

/-- Exponents that both overflow, or both underflow whatever the digits, give one result (41_parser.md section 5). -/
theorem finalize_congr_of_far {C n : Nat} {E E' : Int} (hn : ndig C ≤ n)
    (h : (385 ≤ E ∧ 385 ≤ E') ∨ (E + n ≤ -399 ∧ E' + n ≤ -399)) (s : Bool) :
    finalize s C E false = finalize s C E' false := by
  obtain rfl | hC := eq_or_ne C 0
  · simp only [finalize_zero, clamp_eq_max_min, LD.mk.injEq, true_and]
    omega
  · obtain ⟨hE, hE'⟩ | ⟨hE, hE'⟩ := h
    · rw [finalize_of_385_le hC hE, finalize_of_385_le hC hE']
    · rw [finalize_of_le_neg hC hn hE, finalize_of_le_neg hC hn hE']

/-- Settles O39: a bound that an exponent exceeds lies with it beyond all digits (`finalize_congr_of_far`). -/
theorem saturatedExponentsGiveTheSameResult : Obligations.SaturatedExponentsGiveTheSameResult := by
  intro s C frac textMax X B hn hfrac hB
  by_cases hX : -B ≤ X ∧ X ≤ B
  · rw [min_eq_right hX.2, max_eq_right hX.1]
  · exact finalize_congr_of_far hn (by omega) s

/-! ### Seventeen digits and a sticky bit (41_parser.md section 5) -/

/-- There is one nearest integer, a tie to even (R136). -/
theorem NearestEven.unique {x : ℚ} {q q' : Nat} (h : NearestEven x q) (h' : NearestEven x q') : q = q' := by
  by_contra hne
  obtain ⟨hle, htie⟩ := h.le q'
  obtain ⟨hle', htie'⟩ := h'.le q
  have heven := htie (le_antisymm hle hle') (Ne.symm hne)
  have heven' := htie' (le_antisymm hle' hle) hne
  have hdist : |(q : ℚ) - q'| ≤ 1 := by
    have htri := abs_sub_le (q : ℚ) x q'
    rw [abs_sub_comm (q : ℚ) x] at htri
    linarith [h.1, h'.1]
  have hdist : |(q : Int) - q'| ≤ 1 := by exact_mod_cast hdist
  rw [abs_le] at hdist
  omega

/-- The digits dropped first are what the sticky bit stands for (R135). -/
theorem stickyPart_mod (C k : Nat) : StickyPart (decide (C % 10 ^ k ≠ 0)) ((C % 10 ^ k : Nat) / 10 ^ k) := by
  have hlt : ((C % 10 ^ k : Nat) : ℚ) < 10 ^ k := by exact_mod_cast Nat.mod_lt C (by positivity)
  by_cases h : C % 10 ^ k = 0
  · exact .inl (by simp [h])
  · have hpos : (0 : ℚ) < (C % 10 ^ k : Nat) := by exact_mod_cast Nat.pos_of_ne_zero h
    exact .inr ⟨by simp [h], by positivity, (div_lt_one (by positivity)).2 hlt⟩

/-- Dropping `k` digits into a sticky bit and then rounding `d` more off rounds `d + k` digits off at once: both give the
integer nearest to the same exact value. -/
theorem roundDigits_div_sticky (C k : Nat) {d : Nat} (hd : 1 ≤ d) :
    roundDigits (C / 10 ^ k) d (decide (C % 10 ^ k ≠ 0)) = roundDigits C (d + k) false := by
  have hvalue : ((C / 10 ^ k : Nat) + ((C % 10 ^ k : Nat) : ℚ) / 10 ^ k) / 10 ^ d = (C + 0) / 10 ^ (d + k) := by
    have hsplit := add_div_pow_eq C k 0
    rw [add_zero, add_zero] at hsplit
    rw [← hsplit, add_zero, div_div, ← pow_add, add_comm d k]
  have hsteps := roundDigits_nearestEven (C := C / 10 ^ k) hd (stickyPart_mod C k)
  rw [hvalue] at hsteps
  exact hsteps.unique (roundDigits_nearestEven (by omega) (.inl ⟨rfl, rfl⟩))

theorem ndig_div_pow {C k : Nat} (h : k < ndig C) (hC : C ≠ 0) : ndig (C / 10 ^ k) = ndig C - k := by
  apply le_antisymm
  · rw [ndig_le_iff (by omega)]
    refine Nat.div_lt_of_lt_mul ?_
    rw [← pow_add, Nat.add_sub_of_le h.le]
    exact lt_pow_ndig C
  · have hle : 10 ^ (ndig C - 1 - k) ≤ C / 10 ^ k := by
      rw [Nat.le_div_iff_mul_le (by positivity), ← pow_add, Nat.sub_add_cancel (by omega)]
      exact pow_ndig_le hC
    have := (Nat.pow_lt_pow_iff_right (by decide)).1 (hle.trans_lt (lt_pow_ndig _))
    omega

/-- Settles O38: the engine drops every digit below the first 17 in any case, and the rest rounds with the sticky bit as the
whole does (`roundDigits_div_sticky`). -/
theorem seventeenDigitsAndStickySuffice : Obligations.SeventeenDigitsAndStickySuffice := by
  intro s C E hn
  obtain ⟨k, hk⟩ : ∃ k, ndig C = 17 + k := Nat.exists_eq_add_of_le hn.le
  rw [hk, Nat.add_sub_cancel_left]
  have hC : C ≠ 0 := ne_zero_of_seventeen_le hn.le
  have hn' : ndig (C / 10 ^ k) = 17 := by
    rw [ndig_div_pow (by omega) hC, hk, Nat.add_sub_cancel]
  have hC' : C / 10 ^ k ≠ 0 := ne_zero_of_seventeen_le hn'.ge
  have hdrop' : dropCount (C / 10 ^ k) (E + k) ≠ 0 := dropCount_ne_zero_of_seventeen_le hn'.ge _
  have hdrop : dropCount C E = dropCount (C / 10 ^ k) (E + k) + k := by
    simp only [dropCount, hn', hk, precision]
    omega
  have hwidth : roundToWidth C E false = roundToWidth (C / 10 ^ k) (E + k) (decide (C % 10 ^ k ≠ 0)) := by
    rw [roundToWidth_of_dropCount_ne_zero hdrop', roundToWidth_of_dropCount_ne_zero (by omega), hdrop,
      roundDigits_div_sticky C k (Nat.one_le_iff_ne_zero.2 hdrop')]
    congr 1
    omega
  rw [finalize_of_ne_zero hC, finalize_of_ne_zero hC', hwidth]

end Sys2Proof.Machine
end

section
/-!
Requests and moves: which requests are accepted (20_memory.md R44; 30_encoding.md R58), what each host move does
(70_reset_and_hazards.md R231), and what serving the oldest outstanding request does (R226).
-/

namespace Sys2Proof.Machine

/-! ### Accepted requests (R44, R58) -/

theorem accepted_iff {cfg : Config} {r : Request} :
    accepted cfg r = true ↔
      (decodeOp r.op).wf = true ∧ (decodeOp r.op = .parse → r.tin.length ≤ cfg.textMax) := by
  simp only [accepted, Bool.and_eq_true, Bool.or_eq_true, bne_iff_ne, decide_eq_true_eq, ne_eq, imp_iff_not_or]

/-- Issuing refuses exactly the requests that are not accepted, for the reason R44 or R58 gives. -/
theorem refusalOf_eq (cfg : Config) (r : Request) :
    refusalOf cfg r = if accepted cfg r then none else some (refusalReason r) := by
  by_cases hwf : (decodeOp r.op).wf = true
  · by_cases hlong : decodeOp r.op = .parse ∧ cfg.textMax < r.tin.length
    · have hrejected : ¬ accepted cfg r = true := fun h => (accepted_iff.1 h).2 hlong.1 |>.not_gt hlong.2
      rw [if_neg hrejected, refusalOf, if_neg (by simp [hwf]), if_pos hlong, refusalReason, if_pos hwf]
    · have haccepted : accepted cfg r = true :=
        accepted_iff.2 ⟨hwf, fun hparse => not_lt.1 fun hlt => hlong ⟨hparse, hlt⟩⟩
      rw [if_pos haccepted, refusalOf, if_neg (by simp [hwf]), if_neg hlong]
  · have hrejected : ¬ accepted cfg r = true := fun h => hwf (accepted_iff.1 h).1
    rw [if_neg hrejected, refusalOf, if_pos (by simpa using hwf), refusalReason, if_neg hwf]

theorem State.submit_of_accepted {s : State} {p : Pending} (h : accepted s.cfg p.req = true) : s.submit p = s.accept p :=
  State.submit_accept (by rw [refusalOf_eq, if_pos h])

theorem State.submit_of_not_accepted {s : State} {p : Pending} (h : ¬ accepted s.cfg p.req = true) :
    s.submit p = s.refuse p.name (refusalReason p.req) :=
  State.submit_refuse (by rw [refusalOf_eq, if_neg h])

/-- An accepted request on the ports is answered (R18, R35). -/
theorem exec_of_accepted {s : State} (h : accepted s.cfg s.ports = true) :
    ∃ r, exec (decodeOp s.op) s = .next (s.drive r) := by
  obtain ⟨hwf, hlen⟩ := accepted_iff.1 h
  obtain ⟨r, hr, -⟩ := exec_drives hwf hlen
  exact ⟨r, hr⟩

theorem exec_of_not_accepted {s : State} (h : ¬ accepted s.cfg s.ports = true) :
    exec (decodeOp s.op) s = .refused (refusalReason s.ports) :=
  exec_refused_iff.2 (by rw [refusalOf_eq, if_neg h])

/-! ### What an operation drives (R35, R56) -/

/-- An operation that answers is one of the eleven, and PARSE only for a text of an accepted length. -/
theorem wf_of_exec_next {i : Instr} {s t : State} (h : exec i s = .next t) :
    i.wf = true ∧ (i = .parse → s.tin.length ≤ s.cfg.textMax) := by
  cases i with
  | parse =>
    refine ⟨rfl, fun _ => not_lt.1 fun hlong => ?_⟩
    rw [exec, execParse, if_pos hlong] at h
    cases h
  | reservedSeven | reservedHigh low => cases h
  | _ => exact ⟨rfl, fun hparse => by cases hparse⟩

/-- An operation that answers drives one response, on its port. -/
theorem exec_next_drives {i : Instr} {s t : State} (h : exec i s = .next t) :
    ∃ r, t = s.drive r ∧ i.drives = some r.port := by
  obtain ⟨hwf, hlen⟩ := wf_of_exec_next h
  obtain ⟨r, hr, hport⟩ := exec_drives hwf hlen
  exact ⟨r, Host.Outcome.next.inj (h.symm.trans hr), hport⟩

theorem State.readPort_drive_iff {s : State} {r v : Response} {p : ResponsePort} :
    (s.drive r).readPort p = .ok v ↔ v = r ∧ p = r.port := by
  by_cases hp : p = r.port
  · subst hp
    simp [eq_comm]
  · simp [State.readPort_drive_of_ne hp, hp]

/-- Settles O5: the operation drives one response (`exec_next_drives`), which is what is collected (`collect_drive`) and all
that can be read (`State.readPort_drive_iff`). -/
theorem hostKeepsTheDrivenResponse : Obligations.HostKeepsTheDrivenResponse := by
  intro i s t name h
  obtain ⟨r, rfl, hport⟩ := exec_next_drives h
  refine ⟨r, collect_drive name s r, fun p v => ?_⟩
  rw [State.readPort_drive_iff, hport, Option.some_inj, eq_comm (a := p)]

/-! ### The host's moves (R231) -/

theorem step_raw {s : State} {name : Option Name} {r : Request} {rest : List HostEvent}
    (h : s.inbox = .raw name r :: rest) : step s = .next ({ s with inbox := rest }.submit ⟨name, r⟩) :=
  step_done (by rw [nextMove, h])

theorem step_assertReset {s : State} {rest : List HostEvent} (h : s.inbox = .assertReset :: rest) :
    step s = .next { s.resetCore with inbox := rest } :=
  step_done (by rw [nextMove, h])

theorem step_read {s : State} {p : ResponsePort} {v : Response} {rest : List HostEvent} (h : s.inbox = .read p :: rest)
    (hv : s.readPort p = .ok v) : step s = .next { s with inbox := rest, lastRead := some v } :=
  step_done (by rw [nextMove, h]; simp only [hostRead, hv])

theorem step_read_fault {s : State} {p : ResponsePort} {f : Fault} {rest : List HostEvent} (h : s.inbox = .read p :: rest)
    (hf : s.readPort p = .error f) : step s = .fault f :=
  step_done (by rw [nextMove, h]; simp only [hostRead, hf])

/-- With nothing outstanding the machine idles, whether or not the host awaits. -/
theorem step_idle {s : State} (hin : s.inbox = []) (hp : s.pending = []) : step s = .next s :=
  step_done (by rw [nextMove, hin]; simp only [serveOldest, hp])

theorem step_await_idle {s : State} {rest : List HostEvent} (hin : s.inbox = .await :: rest) (hp : s.pending = []) :
    step s = .next { s with inbox := rest } :=
  step_done (by rw [nextMove, hin]; simp only [serveOldest, hp])

/-- Issuing a request given port by port accepts it, or records why it is refused. -/
theorem step_raw_of_accepted {s : State} {name : Option Name} {r : Request} {rest : List HostEvent}
    (h : s.inbox = .raw name r :: rest) (ha : accepted s.cfg r = true) :
    step s = .next { s with inbox := rest, pending := s.pending ++ [⟨name, r⟩] } := by
  rw [step_raw h, State.submit_of_accepted (s := { s with inbox := rest }) (p := ⟨name, r⟩) ha]
  rfl

theorem step_raw_of_not_accepted {s : State} {name : Option Name} {r : Request} {rest : List HostEvent}
    (h : s.inbox = .raw name r :: rest) (ha : ¬ accepted s.cfg r = true) :
    step s = .next { s with inbox := rest, refusals := s.refusals ++ [⟨name, refusalReason r⟩] } := by
  rw [step_raw h, State.submit_of_not_accepted (s := { s with inbox := rest }) (p := ⟨name, r⟩) ha]
  rfl

/-- Settles O12: `step_read` and `step_read_fault`, port by port. -/
theorem readGivesThePortOrFaults : Obligations.ReadGivesThePortOrFaults := by
  intro s rest
  refine ⟨fun w hin h => step_read hin ?_, fun v hin h => step_read hin ?_, fun x hin h => step_read hin ?_,
    fun f hin h => step_read hin ?_, fun hin h => step_read_fault hin ?_, fun hin h => step_read_fault hin ?_,
    fun hin h => step_read_fault hin ?_, fun hin h => step_read_fault hin ?_⟩ <;> simp only [State.readPort, h]

/-! ### Serving the oldest request (R226) -/

/-- The state in which the CORE serves `p`: `p` taken off, its values on the request ports, the host at `inbox`. -/
def State.serving (s : State) (p : Pending) (rest : List Pending) (inbox : List HostEvent) : State :=
  { s with pending := rest, inbox := inbox }.present p.req

@[simp] theorem State.serving_cfg (s : State) (p : Pending) (rest : List Pending) (inbox : List HostEvent) :
    (s.serving p rest inbox).cfg = s.cfg := rfl
@[simp] theorem State.serving_ports (s : State) (p : Pending) (rest : List Pending) (inbox : List HostEvent) :
    (s.serving p rest inbox).ports = p.req := rfl
@[simp] theorem State.serving_op (s : State) (p : Pending) (rest : List Pending) (inbox : List HostEvent) :
    (s.serving p rest inbox).op = p.req.op := rfl
@[simp] theorem State.serving_pending (s : State) (p : Pending) (rest : List Pending) (inbox : List HostEvent) :
    (s.serving p rest inbox).pending = rest := rfl
@[simp] theorem State.serving_inbox (s : State) (p : Pending) (rest : List Pending) (inbox : List HostEvent) :
    (s.serving p rest inbox).inbox = inbox := rfl
@[simp] theorem State.serving_answers (s : State) (p : Pending) (rest : List Pending) (inbox : List HostEvent) :
    (s.serving p rest inbox).answers = s.answers := rfl
@[simp] theorem State.serving_refusals (s : State) (p : Pending) (rest : List Pending) (inbox : List HostEvent) :
    (s.serving p rest inbox).refusals = s.refusals := rfl

/-- A host that has no move, or awaits, and what is left of its moves. -/
def HostWaits (s : State) (inbox : List HostEvent) : Prop := (s.inbox = [] ∧ inbox = []) ∨ s.inbox = .await :: inbox

/-- While the host waits the oldest outstanding request is served. -/
theorem nextMove_of_hostWaits {s : State} {p : Pending} {rest : List Pending} {inbox : List HostEvent}
    (hp : s.pending = p :: rest) (hin : HostWaits s inbox) : nextMove s = .serve p (s.serving p rest inbox) := by
  obtain ⟨hin, rfl⟩ | hin := hin
  · rw [nextMove, hin]
    simp only [serveOldest, hp, State.serving, hin]
  · rw [nextMove, hin]
    simp only [serveOldest, hp, State.serving]

theorem step_of_hostWaits {s : State} {p : Pending} {rest : List Pending} {inbox : List HostEvent}
    (hp : s.pending = p :: rest) (hin : HostWaits s inbox) :
    step s = match exec (decodeOp p.req.op) (s.serving p rest inbox) with
      | .next u => .next (collect p.name u)
      | .fault f => .fault f
      | .refused r => .next ((s.serving p rest inbox).refuse p.name r) := by
  rw [step, nextMove_of_hostWaits hp hin]
  rfl

/-- Settles O4: `step_of_hostWaits`, also for the request `withFetchWord` places. -/
theorem stepRunsTheOldestRequest : Obligations.StepRunsTheOldestRequest := by
  refine ⟨fun s p rest hp inbox hin served hserved => ?_, fun s nbits w served hserved => ?_⟩
  · subst hserved
    exact step_of_hostWaits hp hin
  · subst hserved
    exact step_of_hostWaits (s := s.withFetchWord nbits w) rfl (.inr rfl)

/-- Serving an accepted request drives its response and has the host keep it. -/
theorem step_serving_of_accepted {s : State} {p : Pending} {rest : List Pending} {inbox : List HostEvent}
    (hmove : nextMove s = .serve p (s.serving p rest inbox)) (ha : accepted s.cfg p.req = true) :
    ∃ r, exec (decodeOp p.req.op) (s.serving p rest inbox) = .next ((s.serving p rest inbox).drive r) ∧
      step s = .next { (s.serving p rest inbox).drive r with answers := s.answers ++ [⟨p.name, r⟩] } := by
  obtain ⟨r, hr⟩ := exec_of_accepted (s := s.serving p rest inbox) ha
  refine ⟨r, hr, ?_⟩
  rw [step, hmove]
  simp only [hr, collect_drive, State.serving_answers]

/-- Serving a request that is not accepted, as one can be placed (log 6), records the refusal. -/
theorem step_serving_of_not_accepted {s : State} {p : Pending} {rest : List Pending} {inbox : List HostEvent}
    (hmove : nextMove s = .serve p (s.serving p rest inbox)) (ha : ¬ accepted s.cfg p.req = true) :
    step s = .next ((s.serving p rest inbox).refuse p.name (refusalReason p.req)) := by
  have hr := exec_of_not_accepted (s := s.serving p rest inbox) ha
  rw [step, hmove]
  simp only [hr, State.serving_ports]

end Sys2Proof.Machine
end

section
/-!
Refused requests (20_memory.md R44; 30_encoding.md R58): the reserved codes and the texts that are too long, when issued and
when served.
-/

namespace Sys2Proof.Machine

/-! ### The reserved codes (R58) -/

/-- The reserved codes are the rows that spell no operation. -/
theorem decodeOp_wf_eq_false_iff : ∀ code : OpCode, (decodeOp code).wf = false ↔ code = 0x7 ∨ 12 ≤ code.toNat := by
  decide

/-- The record of a refusal names the code exactly when the code is reserved. -/
theorem refusalReason_eq_reservedOp_iff {r : Request} :
    refusalReason r = .reservedOp r.op ↔ (decodeOp r.op).wf = false := by
  unfold refusalReason
  split <;> simp_all

theorem not_accepted_of_wf_eq_false {cfg : Config} {r : Request} (h : (decodeOp r.op).wf = false) :
    ¬ accepted cfg r = true := fun ha => by
  rw [(accepted_iff.1 ha).1] at h
  cases h

/-- Issuing records a reserved code exactly for a reserved code: otherwise the request becomes outstanding, or the reason is
another. -/
theorem step_raw_reservedOp_iff {s : State} {name : Option Name} {r : Request} {rest : List HostEvent}
    (h : s.inbox = .raw name r :: rest) :
    step s = .next { s with inbox := rest, refusals := s.refusals ++ [⟨name, .reservedOp r.op⟩] } ↔
      (decodeOp r.op).wf = false := by
  by_cases ha : accepted s.cfg r = true
  · have hwf : ¬ (decodeOp r.op).wf = false := fun hwf => not_accepted_of_wf_eq_false hwf ha
    simp [step_raw_of_accepted h ha, hwf]
  · rw [step_raw_of_not_accepted h ha, ← refusalReason_eq_reservedOp_iff]
    simp

/-- Serving records a reserved code exactly for a reserved code: otherwise there is an answer, or the reason is another. -/
theorem step_serving_reservedOp_iff {s : State} {p : Pending} {rest : List Pending} {inbox : List HostEvent}
    (hmove : nextMove s = .serve p (s.serving p rest inbox)) :
    step s = .next ((s.serving p rest inbox).refuse p.name (.reservedOp p.req.op)) ↔ (decodeOp p.req.op).wf = false := by
  by_cases ha : accepted s.cfg p.req = true
  · have hwf : ¬ (decodeOp p.req.op).wf = false := fun hwf => not_accepted_of_wf_eq_false hwf ha
    obtain ⟨r, -, hr⟩ := step_serving_of_accepted hmove ha
    refine iff_of_false (fun heq => ?_) hwf
    simpa using congrArg State.answers (Host.Outcome.next.inj (hr.symm.trans heq))
  · rw [step_serving_of_not_accepted hmove ha, ← refusalReason_eq_reservedOp_iff]
    simp [State.refuse]

/-- Settles O6: the two reserved arms refuse, and a recorded `reservedOp` tells a reserved code
(`step_raw_reservedOp_iff`, `step_serving_reservedOp_iff`). -/
theorem reservedCodesAreRefused : Obligations.ReservedCodesAreRefused := by
  refine ⟨fun _ => rfl, fun s low => ?_, fun s name r rest hin => ?_, fun s p rest hin hp => ?_⟩
  · have hcode : ∀ low : BitVec 2, encodeOp (.reservedHigh low) = BitVec.ofNat 4 (12 + low.toNat) := by decide
    rw [exec, execReservedHigh, refuseReserved, hcode]
  · rw [step_raw_reservedOp_iff hin, decodeOp_wf_eq_false_iff]
  · have hmove := nextMove_of_hostWaits hp (.inl ⟨hin, rfl⟩)
    rw [← decodeOp_wf_eq_false_iff, ← step_serving_reservedOp_iff hmove, State.serving, hin]
    rfl

/-! ### Texts that are too long (R44) -/

theorem execParse_refused {s : State} (h : s.cfg.textMax < s.tin.length) : execParse s = .refused .textTooLong :=
  if_pos h

/-- A PARSE request is accepted exactly when its text is short enough. -/
theorem accepted_parse_iff {cfg : Config} {r : Request} (h : decodeOp r.op = .parse) :
    accepted cfg r = true ↔ r.tin.length ≤ cfg.textMax := by
  simp [accepted_iff, h, Instr.wf]

theorem refusalReason_parse {r : Request} (h : decodeOp r.op = .parse) : refusalReason r = .textTooLong := by
  simp [refusalReason, h, Instr.wf]

/-- Settles O7: PARSE refuses by the length alone, when run (`execParse_refused`, `execParse_next`) and when issued
(`accepted_parse_iff`). -/
theorem onlyLongTextsAreRefused : Obligations.OnlyLongTextsAreRefused := by
  refine ⟨fun s => ⟨execParse_refused, fun h => ⟨_, execParse_next h⟩⟩, fun s name r rest hin hop => ?_⟩
  have hparse : decodeOp r.op = .parse := by rw [hop]; rfl
  refine ⟨fun h => ?_, fun h => step_raw_of_accepted hin ((accepted_parse_iff hparse).2 h)⟩
  rw [step_raw_of_not_accepted hin (by rwa [accepted_parse_iff hparse, not_le]), refusalReason_parse hparse]

end Sys2Proof.Machine
end

section
/-!
What every step keeps (10_state.md R33, R35, R37, R39; 30_encoding.md R72): the open parameters, the position but for a
response, and the invariant.
-/

namespace Sys2Proof.Machine

/-! ### Steps by what they add (R37, R226) -/

/-- A step is a completed move; or takes off the oldest outstanding request and answers it; or takes it off and records its
refusal. -/
theorem step_cases {s t : State} (h : step s = .next t) :
    nextMove s = .done (.next t) ∨
      ∃ p rest inbox, s.pending = p :: rest ∧
        ((∃ r, exec (decodeOp p.req.op) (s.serving p rest inbox) = .next ((s.serving p rest inbox).drive r) ∧
            t = { (s.serving p rest inbox).drive r with answers := s.answers ++ [⟨p.name, r⟩] }) ∨
          ∃ reason, t = (s.serving p rest inbox).refuse p.name reason) := by
  cases hmove : nextMove s with
  | done r => exact .inl (congrArg Move.done ((step_done hmove).symm.trans h))
  | serve p u =>
    obtain ⟨rest, inbox, hp, rfl⟩ := nextMove_serve hmove
    obtain ⟨r, hexec, ht⟩ | ⟨reason, -, ht⟩ := step_serve hmove h
    · exact .inr ⟨p, rest, inbox, hp, .inl ⟨r, hexec, ht⟩⟩
    · exact .inr ⟨p, rest, inbox, hp, .inr ⟨reason, ht⟩⟩

/-- Completed moves add no answer and change no parameter. -/
theorem nextMove_done_frame {s t : State} (h : nextMove s = .done (.next t)) : t.cfg = s.cfg ∧ t.answers = s.answers := by
  obtain ⟨rest, ⟨-, rfl⟩ | ⟨p, rfl⟩ | ⟨q, v, -, rfl⟩ | rfl⟩ := nextMove_done h <;> simp

/-- Settles O17: no move, answer or refusal writes the parameters. -/
theorem noStepChangesAParameter : Obligations.NoStepChangesAParameter := by
  intro s t h
  obtain hdone | ⟨p, rest, inbox, -, ⟨r, -, rfl⟩ | ⟨reason, rfl⟩⟩ := step_cases h
  · exact (nextMove_done_frame hdone).1
  · simp
  · simp

/-- Settles O16: of what a step can do (`step_cases`) only answering a request adds to the answers. -/
theorem positionAdvancesWithResponses : Obligations.PositionAdvancesWithResponses := by
  intro s t h
  have hkept (ha : t.answers = s.answers) : t.answers = s.answers ∧ t.position = s.position :=
    ⟨ha, congrArg List.length ha⟩
  obtain hdone | ⟨p, rest, inbox, hp, ⟨r, -, rfl⟩ | ⟨reason, rfl⟩⟩ := step_cases h
  · exact .inl (hkept (nextMove_done_frame hdone).2)
  · exact .inr ⟨p, r, by simpa using hp, rfl, by simp [State.position]⟩
  · exact .inl (hkept rfl)

/-! ### Possible responses (R33, R72) -/

theorem sameResponse.response? {s t : State} (h : sameResponse s t) : s.response? = t.response? := by
  obtain ⟨hres, hlres, htout, hflag⟩ := h
  simp only [State.response?, hres, hlres, htout, hflag]

/-- The ports tell which response was driven. -/
theorem eq_of_sameResponse_drive {s t : State} {r q : Response} (h : sameResponse (s.drive r) (t.drive q)) : r = q := by
  simpa using h.response?

theorem State.drive_inj {s : State} {r q : Response} (h : s.drive r = s.drive q) : r = q :=
  eq_of_sameResponse_drive (s := s) (t := s) (h ▸ ⟨rfl, rfl, rfl, rfl⟩)

theorem drives_of_exec {i : Instr} {s : State} {r : Response} (h : exec i s = .next (s.drive r)) :
    i.drives = some r.port := by
  obtain ⟨q, hq, hport⟩ := exec_next_drives h
  rwa [State.drive_inj hq]

/-- Every word and every flag is a possible response. -/
theorem responseOk_of_port {r : Response} (h : r.port = .res ∨ r.port = .flag) : responseOk r := by
  cases r with
  | res w | flag f => trivial
  | lres v | tout t => simp [Response.port] at h

/-- What FORMAT prints has 3 to 23 bytes (R33, R127). -/
theorem responseOk_formatText {x : LD} (hx : x.inRange = true) : responseOk (.tout (formatText x)) := by
  by_cases hk : x.k = .finite
  · obtain ⟨h20, h23⟩ := formatText_length_of_finite hk hx
    exact ⟨by omega, h23⟩
  · have := formatText_length_of_special hk
    exact ⟨by omega, by omega⟩

/-- DECODE puts an in-range value on the bus (R72, R81). -/
theorem responseOk_toBus {x : LD} (hx : x.inRange = true) : responseOk (.lres (toBus x)) := by
  rw [responseOk, ofBus_toBus (LD.onBus_of_inRange hx)]
  exact hx

/-- Every operation gives a possible response; only those of DECODE and FORMAT are bounded. -/
theorem responseOk_of_exec {i : Instr} {s : State} {r : Response} (h : exec i s = .next (s.drive r)) : responseOk r := by
  have hport := drives_of_exec h
  cases i with
  | decode =>
    rw [← State.drive_inj (Host.Outcome.next.inj h)]
    exact responseOk_toBus (bidDecode_inRange s.a)
  | format =>
    rw [← State.drive_inj (Host.Outcome.next.inj h)]
    exact responseOk_formatText (bidDecode_inRange s.a)
  | reservedSeven | reservedHigh low => cases hport
  | isnan => exact responseOk_of_port (.inr (Option.some.inj hport).symm)
  | _ => exact responseOk_of_port (.inl (Option.some.inj hport).symm)

/-! ### The invariant (R33, R35, R44, R58, R72) -/

theorem drivenPorts_drive (s : State) (r : Response) : drivenPorts (s.drive r) = 1 := by
  cases r <;> rfl

/-- A value on a port is a possible response. -/
theorem State.Inv.responseOk_of_readPort {s : State} (hs : s.Inv) {p : ResponsePort} {v : Response}
    (h : s.readPort p = .ok v) : responseOk v := by
  obtain ⟨-, hlres, htout, -⟩ := hs
  unfold State.readPort at h
  split at h <;> split at h <;> cases h
  · trivial
  · exact hlres _ ‹_›
  · exact htout _ ‹_›
  · trivial

theorem State.Inv.submit {s : State} (hs : s.Inv) (p : Pending) : (s.submit p).Inv := by
  by_cases ha : accepted s.cfg p.req = true
  · rw [State.submit_of_accepted ha]
    obtain ⟨hdriven, hlres, htout, hanswers, hread, hpending⟩ := hs
    exact ⟨hdriven, hlres, htout, hanswers, hread,
      List.forall_mem_append.2 ⟨hpending, List.forall_mem_singleton.2 ha⟩⟩
  · rw [State.submit_of_not_accepted ha]
    exact hs

theorem State.Inv.read {s : State} (hs : s.Inv) {v : Response} (hv : responseOk v) (inbox : List HostEvent) :
    State.Inv { s with inbox := inbox, lastRead := some v } := by
  obtain ⟨hdriven, hlres, htout, hanswers, -, hpending⟩ := hs
  refine ⟨hdriven, hlres, htout, hanswers, fun r hr => ?_, hpending⟩
  cases hr
  exact hv

theorem State.Inv.resetCore {s : State} (hs : s.Inv) (inbox : List HostEvent) :
    State.Inv { s.resetCore with inbox := inbox } := by
  obtain ⟨-, -, -, hanswers, hread, -⟩ := hs
  exact ⟨Nat.zero_le 1, by simp, by simp, hanswers, hread, by simp⟩

theorem State.Inv.serving {s : State} (hs : s.Inv) {p : Pending} {rest : List Pending} (hp : s.pending = p :: rest)
    (inbox : List HostEvent) : (s.serving p rest inbox).Inv := by
  obtain ⟨hdriven, hlres, htout, hanswers, hread, hpending⟩ := hs
  exact ⟨hdriven, hlres, htout, hanswers, hread, fun q hq => hpending q (hp ▸ List.mem_cons_of_mem p hq)⟩

/-- A driven response is the only one on the ports, and the host keeps it. -/
theorem State.Inv.answer {s : State} (hs : s.Inv) {r : Response} (hr : responseOk r) (name : Option Name) :
    State.Inv { s.drive r with answers := s.answers ++ [⟨name, r⟩] } := by
  obtain ⟨-, -, -, hanswers, hread, hpending⟩ := hs
  refine ⟨(drivenPorts_drive s r).le, fun v hv => ?_, fun t ht => ?_,
    List.forall_mem_append.2 ⟨hanswers, List.forall_mem_singleton.2 hr⟩, ?_, ?_⟩
  · cases r <;> cases hv
    exact hr
  · cases r <;> cases ht
    exact hr
  · simpa using hread
  · simpa using hpending

/-- Settles O18: whatever a step does (`step_cases`, `nextMove_done`), the invariant is kept; a new answer is a possible
response (`responseOk_of_exec`). -/
theorem stepKeepsTheInvariant : Obligations.StepKeepsTheInvariant := by
  intro s t hs h
  obtain hdone | ⟨p, rest, inbox, hp, ⟨r, hexec, rfl⟩ | ⟨reason, rfl⟩⟩ := step_cases h
  · obtain ⟨inbox, ⟨-, rfl⟩ | ⟨p, rfl⟩ | ⟨q, v, hv, rfl⟩ | rfl⟩ := nextMove_done hdone
    · exact hs
    · exact State.Inv.submit (s := { s with inbox := inbox }) hs p
    · exact hs.read (hs.responseOk_of_readPort hv) inbox
    · exact hs.resetCore inbox
  · exact (hs.serving hp inbox).answer (responseOk_of_exec hexec) p.name
  · exact hs.serving hp inbox

/-- Settles O19: at reset no port holds a value, and nothing is kept or outstanding. -/
theorem resetMeetsTheInvariant : Obligations.ResetMeetsTheInvariant :=
  ⟨Nat.zero_le 1, by simp [State.reset], by simp [State.reset], by simp [State.reset], by simp [State.reset],
    by simp [State.reset]⟩

end Sys2Proof.Machine
end

section
/-!
Runs (20_memory.md R50; 70_reset_and_hazards.md R223, R226, R230): which response is a request's own, and what becomes of the
requests over many steps, in whatever order they are issued and served.
-/

namespace Sys2Proof.Machine

/-! ### Runs -/

theorem run_succ {M : Host.Core} {s t : M.State} (h : M.step s = .next t) (k : Nat) : M.run (k + 1) s = M.run k t := by
  rw [Host.Core.run, h]

theorem run_add {M : Host.Core} {m : Nat} {s t : M.State} (h : M.run m s = .next t) (n : Nat) :
    M.run (m + n) s = M.run n t := by
  induction m generalizing s with
  | zero =>
    cases h
    rw [Nat.zero_add]
  | succ m ih =>
    cases hs : M.step s with
    | next u =>
      rw [run_succ hs] at h
      rw [Nat.succ_add, run_succ hs, ih h]
    | fault f | refused f =>
      rw [Host.Core.run, hs] at h
      cases h

/-- With no move left and nothing outstanding, every further step idles. -/
theorem run_idle {s : State} (hin : s.inbox = []) (hp : s.pending = []) (k : Nat) :
    Host.Core.run Sys2Proof.core k s = .next s := by
  induction k with
  | zero => rfl
  | succ k ih => exact (run_succ (M := Sys2Proof.core) (step_idle hin hp) k).trans ih

/-! ### A request's own response (R17, R50) -/

theorem samePort_of_ports {s t : State} (h : s.ports = t.ports) (p : RequestPort) : samePort s t p := by
  cases p with
  | a => exact congrArg Request.a h
  | b => exact congrArg Request.b h
  | lin => exact congrArg Request.lin h
  | tin => exact congrArg Request.tin h

/-- What an operation answers in one state it answers in every state with the same parameters and request ports: R30's
noninterference. -/
theorem exec_drive_congr {i : Instr} {s t : State} {r : Response} (hcfg : s.cfg = t.cfg) (hports : s.ports = t.ports)
    (h : exec i s = .next (s.drive r)) : exec i t = .next (t.drive r) := by
  have hagree := responseDependsOnReadPortsOnly i s t hcfg fun p _ => samePort_of_ports hports p
  rw [h] at hagree
  cases ht : exec i t with
  | next v =>
    obtain ⟨q, rfl⟩ := exec_next ht
    rw [ht] at hagree
    rw [eq_of_sameResponse_drive hagree]
  | fault f | refused f =>
    rw [ht] at hagree
    exact hagree.elim

theorem ownResponse_of_exec {u : State} {p : Pending} {r : Response} (hports : u.ports = p.req)
    (h : exec (decodeOp p.req.op) u = .next (u.drive r)) : ownResponse u.cfg p ⟨p.name, r⟩ :=
  ⟨rfl, fun _ hcfg hports' => exec_drive_congr hcfg.symm (hports.trans hports'.symm) h⟩

/-- A request has one response of its own: that in the state with nothing but its values on the ports. -/
theorem ownResponse_unique {cfg : Config} {p : Pending} {x y : Answer} (hx : ownResponse cfg p x)
    (hy : ownResponse cfg p y) : x = y := by
  obtain ⟨n, r⟩ := x
  obtain ⟨m, q⟩ := y
  obtain ⟨rfl, hr⟩ := hx
  obtain ⟨rfl, hq⟩ := hy
  have hexec := hr ({ State.reset with cfg := cfg }.present p.req) rfl rfl
  rw [hq _ rfl rfl] at hexec
  obtain rfl : q = r := State.drive_inj (Host.Outcome.next.inj hexec)
  rfl

theorem ownResponses_unique {cfg : Config} {ps : List Pending} {xs ys : List Answer}
    (hx : List.Forall₂ (ownResponse cfg) ps xs) (hy : List.Forall₂ (ownResponse cfg) ps ys) : xs = ys := by
  induction hx generalizing ys with
  | nil => cases hy; rfl
  | cons hx _ ih =>
    cases hy with
    | cons hy hys => rw [ownResponse_unique hx hy, ih hys]

/-! ### How requests fare -/

/-- The requests among these that the CORE accepts (R44, R58). -/
def acceptedAmong (cfg : Config) (ps : List Pending) : List Pending := ps.filter fun p => accepted cfg p.req

/-- The requests among these that the CORE refuses. -/
def refusedAmong (cfg : Config) (ps : List Pending) : List Pending := ps.filter fun p => !accepted cfg p.req

theorem acceptedAmong_append (cfg : Config) (ps qs : List Pending) :
    acceptedAmong cfg (ps ++ qs) = acceptedAmong cfg ps ++ acceptedAmong cfg qs := List.filter_append ..

theorem refusedAmong_append (cfg : Config) (ps qs : List Pending) :
    refusedAmong cfg (ps ++ qs) = refusedAmong cfg ps ++ refusedAmong cfg qs := List.filter_append ..

theorem acceptedAmong_singleton {cfg : Config} {p : Pending} (h : accepted cfg p.req = true) : acceptedAmong cfg [p] = [p] :=
  List.filter_cons_of_pos h

theorem refusedAmong_singleton_of_accepted {cfg : Config} {p : Pending} (h : accepted cfg p.req = true) :
    refusedAmong cfg [p] = [] := by
  simp [refusedAmong, h]

theorem acceptedAmong_singleton_of_not {cfg : Config} {p : Pending} (h : ¬ accepted cfg p.req = true) :
    acceptedAmong cfg [p] = [] := by
  simp [acceptedAmong, h]

theorem refusedAmong_singleton_of_not {cfg : Config} {p : Pending} (h : ¬ accepted cfg p.req = true) :
    refusedAmong cfg [p] = [p] := by
  simp [refusedAmong, h]

theorem acceptedAmong_of_forall {cfg : Config} {ps : List Pending} (h : ∀ p ∈ ps, accepted cfg p.req = true) :
    acceptedAmong cfg ps = ps := List.filter_eq_self.2 h

theorem refusedAmong_of_forall {cfg : Config} {ps : List Pending} (h : ∀ p ∈ ps, accepted cfg p.req = true) :
    refusedAmong cfg ps = [] := by
  simpa [refusedAmong] using h

/-- From `s` to `t` the requests `ps` got each its own response and the requests `qs` were recorded as refused, in order. -/
def Fared (ps qs : List Pending) (s t : State) : Prop :=
  t.cfg = s.cfg ∧ (∃ added, t.answers = s.answers ++ added ∧ List.Forall₂ (ownResponse s.cfg) ps added) ∧
    t.refusals = s.refusals ++ qs.map fun p => ⟨p.name, refusalReason p.req⟩

/-- A change that neither answers nor refuses. -/
theorem fared_nil {s t : State} (hcfg : t.cfg = s.cfg) (ha : t.answers = s.answers) (hr : t.refusals = s.refusals) :
    Fared [] [] s t :=
  ⟨hcfg, ⟨[], by rw [ha, List.append_nil], .nil⟩, by rw [hr, List.map_nil, List.append_nil]⟩

theorem Fared.trans {ps ps' qs qs' : List Pending} {s t u : State} (h : Fared ps qs s t) (h' : Fared ps' qs' t u) :
    Fared (ps ++ ps') (qs ++ qs') s u := by
  obtain ⟨hcfg, ⟨added, ha, hown⟩, hr⟩ := h
  obtain ⟨hcfg', ⟨added', ha', hown'⟩, hr'⟩ := h'
  rw [hcfg] at hown'
  refine ⟨hcfg'.trans hcfg, ⟨added ++ added', ?_, List.rel_append hown hown'⟩, ?_⟩
  · rw [ha', ha, List.append_assoc]
  · rw [hr', hr, List.append_assoc, List.map_append]

/-- The oldest outstanding request is answered with its own response when it is accepted, and else recorded as refused. -/
theorem step_serving_fared {s : State} {p : Pending} {rest : List Pending} {inbox : List HostEvent}
    (hmove : nextMove s = .serve p (s.serving p rest inbox)) :
    ∃ t, step s = .next t ∧ t.inbox = inbox ∧ t.pending = rest ∧
      Fared (acceptedAmong s.cfg [p]) (refusedAmong s.cfg [p]) s t := by
  by_cases ha : accepted s.cfg p.req = true
  · obtain ⟨r, hexec, hstep⟩ := step_serving_of_accepted hmove ha
    rw [acceptedAmong_singleton ha, refusedAmong_singleton_of_accepted ha]
    have hown : ownResponse s.cfg p ⟨p.name, r⟩ := ownResponse_of_exec (u := s.serving p rest inbox) rfl hexec
    exact ⟨_, hstep, by simp, by simp, by simp, ⟨[⟨p.name, r⟩], rfl, .cons hown .nil⟩, by simp⟩
  · rw [acceptedAmong_singleton_of_not ha, refusedAmong_singleton_of_not ha]
    exact ⟨_, step_serving_of_not_accepted hmove ha, rfl, rfl, rfl, ⟨[], by simp, .nil⟩, rfl⟩

/-- With no host move all outstanding requests are served, one a step. -/
theorem run_pending {s : State} (hin : s.inbox = []) :
    ∃ t, Host.Core.run Sys2Proof.core s.pending.length s = .next t ∧ t.inbox = [] ∧ t.pending = [] ∧
      Fared (acceptedAmong s.cfg s.pending) (refusedAmong s.cfg s.pending) s t := by
  induction hp : s.pending generalizing s with
  | nil => exact ⟨s, rfl, hin, hp, fared_nil rfl rfl rfl⟩
  | cons p rest ih =>
    obtain ⟨t, hstep, hint, hpt, hfared⟩ := step_serving_fared (nextMove_of_hostWaits hp (.inl ⟨hin, rfl⟩))
    obtain ⟨u, hrun, hinu, hpu, hfared'⟩ := ih hint hpt
    refine ⟨u, (run_succ hstep _).trans hrun, hinu, hpu, ?_⟩
    rw [hfared.1] at hfared'
    rw [← List.singleton_append, acceptedAmong_append, refusedAmong_append]
    exact hfared.trans hfared'

/-- Settles O14: `run_pending`. -/
theorem responsesComeInRequestOrder : Obligations.ResponsesComeInRequestOrder := by
  intro s hin
  obtain ⟨t, hrun, -, hp, -, ⟨added, hanswers, hown⟩, hrefusals⟩ := run_pending hin
  exact ⟨t, added, hrun, hp, hanswers, hown, hrefusals⟩

/-! ### Issuing and serving in any order -/

/-- From `s` to `t` the requests `reqs` were issued: of the accepted ones, behind those already outstanding, some were served
and the others are outstanding in `t`; the others were refused. -/
def Progress (reqs : List Pending) (s t : State) : Prop :=
  ∃ served, Fared served (refusedAmong s.cfg reqs) s t ∧ s.pending ++ acceptedAmong s.cfg reqs = served ++ t.pending

theorem Progress.trans {reqs reqs' : List Pending} {s t u : State} (h : Progress reqs s t) (h' : Progress reqs' t u) :
    Progress (reqs ++ reqs') s u := by
  obtain ⟨served, hfared, hp⟩ := h
  obtain ⟨served', hfared', hp'⟩ := h'
  rw [hfared.1] at hfared' hp'
  refine ⟨served ++ served', ?_, ?_⟩
  · rw [refusedAmong_append]
    exact hfared.trans hfared'
  · rw [acceptedAmong_append, ← List.append_assoc, hp, List.append_assoc, hp', List.append_assoc]

theorem Progress.cfg {reqs : List Pending} {s t : State} (h : Progress reqs s t) : t.cfg = s.cfg := by
  obtain ⟨_, hfared, -⟩ := h
  exact hfared.1

/-- Only accepted requests become outstanding. -/
theorem Progress.accepted {reqs : List Pending} {s t : State} (h : Progress reqs s t)
    (hs : ∀ p ∈ s.pending, accepted s.cfg p.req = true) : ∀ p ∈ t.pending, accepted t.cfg p.req = true := by
  intro p hpt
  rw [h.cfg]
  obtain ⟨served, -, hp⟩ := h
  have hmem : p ∈ s.pending ++ acceptedAmong s.cfg reqs := hp ▸ List.mem_append_right served hpt
  obtain hold | hnew := List.mem_append.1 hmem
  · exact hs p hold
  · exact (List.mem_filter.1 hnew).2

/-- Once nothing is outstanding any more, every issued request has fared. -/
theorem Progress.fared {reqs : List Pending} {s t : State} (h : Progress reqs s t) (hs : s.pending = [])
    (ht : t.pending = []) : Fared (acceptedAmong s.cfg reqs) (refusedAmong s.cfg reqs) s t := by
  obtain ⟨served, hfared, hp⟩ := h
  rw [hs, ht, List.nil_append, List.append_nil] at hp
  rwa [hp]

/-- A step that only moves the host on. -/
theorem progress_inbox (s : State) (inbox : List HostEvent) : Progress [] s { s with inbox := inbox } :=
  ⟨[], fared_nil rfl rfl rfl, List.append_nil _⟩

theorem progress_submit (s : State) (p : Pending) : Progress [p] s (s.submit p) := by
  by_cases ha : accepted s.cfg p.req = true
  · refine ⟨[], ?_, ?_⟩
    · rw [State.submit_of_accepted ha, refusedAmong_singleton_of_accepted ha]
      exact fared_nil rfl rfl rfl
    · rw [State.submit_of_accepted ha, acceptedAmong_singleton ha]
      rfl
  · refine ⟨[], ?_, ?_⟩
    · rw [State.submit_of_not_accepted ha, refusedAmong_singleton_of_not ha]
      exact ⟨rfl, ⟨[], (List.append_nil _).symm, .nil⟩, rfl⟩
    · rw [State.submit_of_not_accepted ha, acceptedAmong_singleton_of_not ha]
      exact List.append_nil _

/-- Serving an accepted request. -/
theorem step_serving_progress {s : State} {p : Pending} {rest : List Pending} {inbox : List HostEvent}
    (hp : s.pending = p :: rest) (hmove : nextMove s = .serve p (s.serving p rest inbox))
    (ha : accepted s.cfg p.req = true) :
    ∃ t, step s = .next t ∧ t.inbox = inbox ∧ t.pending = rest ∧ Progress [] s t := by
  obtain ⟨t, hstep, hin, hpt, hfared⟩ := step_serving_fared hmove
  rw [acceptedAmong_singleton ha, refusedAmong_singleton_of_accepted ha] at hfared
  refine ⟨t, hstep, hin, hpt, [p], hfared, ?_⟩
  rw [hp, hpt]
  exact List.append_nil _

theorem run_pending_progress {s : State} (hin : s.inbox = []) (hs : ∀ p ∈ s.pending, accepted s.cfg p.req = true) :
    ∃ t, Host.Core.run Sys2Proof.core s.pending.length s = .next t ∧ t.inbox = [] ∧ t.pending = [] ∧ Progress [] s t := by
  obtain ⟨t, hrun, hint, hpt, hfared⟩ := run_pending hin
  rw [acceptedAmong_of_forall hs, refusedAmong_of_forall hs] at hfared
  refine ⟨t, hrun, hint, hpt, s.pending, hfared, ?_⟩
  rw [hpt]
  rfl

/-- A host move that awaits or issues a request given port by port. -/
def IsRequestMove (e : HostEvent) : Prop := e = .await ∨ ∃ name r, e = .raw name r

theorem step_requestMove {s : State} {e : HostEvent} {rest : List HostEvent} (hin : s.inbox = e :: rest)
    (he : IsRequestMove e) (hs : ∀ p ∈ s.pending, accepted s.cfg p.req = true) :
    ∃ t, step s = .next t ∧ t.inbox = rest ∧ Progress (rawRequests [e]) s t := by
  obtain rfl | ⟨name, r, rfl⟩ := he
  · cases hp : s.pending with
    | nil => exact ⟨_, step_await_idle hin hp, rfl, progress_inbox s rest⟩
    | cons p ps =>
      obtain ⟨t, hstep, hint, -, hprogress⟩ :=
        step_serving_progress hp (nextMove_of_hostWaits hp (.inr hin)) (hs p (hp ▸ List.mem_cons_self))
      exact ⟨t, hstep, hint, hprogress⟩
  · exact ⟨_, step_raw hin, by simp, (progress_inbox s rest).trans (progress_submit _ _)⟩

/-- One step for each of the host's moves. -/
theorem run_requestMoves {s : State} {moves : List HostEvent} (hin : s.inbox = moves)
    (hmoves : ∀ e ∈ moves, IsRequestMove e) (hs : ∀ p ∈ s.pending, accepted s.cfg p.req = true) :
    ∃ t, Host.Core.run Sys2Proof.core moves.length s = .next t ∧ t.inbox = [] ∧ Progress (rawRequests moves) s t := by
  induction moves generalizing s with
  | nil => exact ⟨s, rfl, hin, progress_inbox s s.inbox⟩
  | cons e rest ih =>
    obtain ⟨he, hrest⟩ := List.forall_mem_cons.1 hmoves
    obtain ⟨t, hstep, hint, hprogress⟩ := step_requestMove hin he hs
    obtain ⟨u, hrun, hinu, hprogress'⟩ := ih hint hrest (hprogress.accepted hs)
    refine ⟨u, (run_succ hstep _).trans hrun, hinu, ?_⟩
    rw [← List.singleton_append, rawRequests, List.filterMap_append]
    exact hprogress.trans hprogress'

/-- No more requests are outstanding than were issued. -/
theorem Progress.length_pending_le {reqs : List Pending} {s t : State} (h : Progress reqs s t) (hs : s.pending = []) :
    t.pending.length ≤ reqs.length := by
  obtain ⟨served, -, hp⟩ := h
  have hlen := congrArg List.length hp
  have hle : (acceptedAmong s.cfg reqs).length ≤ reqs.length := List.length_filter_le ..
  simp only [hs, List.nil_append, List.length_append] at hlen
  omega

/-- Settles O57: the moves take a step each (`run_requestMoves`), and then the requests still outstanding
(`run_pending_progress`); what steps are left idle. -/
theorem everyRequestFaresAsIfAlone : Obligations.EveryRequestFaresAsIfAlone := by
  intro s moves hs hin hmoves
  have haccepted : ∀ p ∈ s.pending, accepted s.cfg p.req = true := by simp [hs]
  obtain ⟨t, hrun, hint, hprogress⟩ := run_requestMoves hin hmoves haccepted
  obtain ⟨u, hrun', hinu, hpu, hprogress'⟩ := run_pending_progress hint (hprogress.accepted haccepted)
  obtain ⟨k, hk⟩ := Nat.exists_eq_add_of_le (hprogress.length_pending_le hs)
  have hfared := (hprogress.trans hprogress').fared hs hpu
  rw [List.append_nil] at hfared
  obtain ⟨-, ⟨added, hanswers, hown⟩, hrefusals⟩ := hfared
  refine ⟨u, added, ?_, hinu, hpu, hanswers, hown, hrefusals⟩
  rw [run_add hrun, hk, run_add hrun', run_idle hinu hpu]

/-! ### Reset (R223) -/

/-- Settles O11: after the reset step the state starts the same request with nothing outstanding, and a request fares alike in
any two such states (`everyRequestFaresAsIfAlone`, `ownResponses_unique`). -/
theorem resetDropsOutstandingRequests : Obligations.ResetDropsOutstandingRequests := by
  refine ⟨fun s rest hin => step_assertReset hin, fun s u name r hcfg hs hu hpu => ?_⟩
  have hmoves : ∀ e ∈ [HostEvent.raw name r], IsRequestMove e := by simp [IsRequestMove]
  have hreset := step_assertReset hs
  obtain ⟨t, added, hrun, -, -, hanswers, hown, hrefusals⟩ := everyRequestFaresAsIfAlone u _ hpu hu hmoves
  obtain ⟨v, added', hrun', -, -, hanswers', hown', hrefusals'⟩ :=
    everyRequestFaresAsIfAlone { s.resetCore with inbox := [.raw name r] } _ rfl rfl hmoves
  have hown' : List.Forall₂ (ownResponse s.cfg) (acceptedAmong s.cfg [⟨name, r⟩]) added' := hown'
  have hown : List.Forall₂ (ownResponse u.cfg) (acceptedAmong u.cfg [⟨name, r⟩]) added := hown
  rw [hcfg] at hown'
  obtain rfl := ownResponses_unique hown hown'
  refine ⟨t, v, added, (refusedAmong u.cfg [⟨name, r⟩]).map fun p => ⟨p.name, refusalReason p.req⟩, hrun,
    (run_succ hreset 2).trans hrun', hanswers, hanswers', hrefusals, hcfg ▸ hrefusals', fun ha => ?_, fun ha => ?_⟩
  · rw [acceptedAmong_singleton ha] at hown
    rw [refusedAmong_singleton_of_accepted ha]
    exact ⟨hown.length_eq.symm, rfl⟩
  · rw [acceptedAmong_singleton_of_not ha] at hown
    rw [refusedAmong_singleton_of_not ha]
    exact ⟨List.forall₂_nil_left_iff.1 hown, rfl⟩

end Sys2Proof.Machine
end

section
/-!
Request lines (30_encoding.md R59; 70_reset_and_hazards.md R225): the request a line spells, when it is issued, and when it
waits.
-/

namespace Sys2Proof.Machine

/-! ### Names (R59) -/

/-- A name means the last answer of that name. -/
theorem lookupWord_of_last {before later : List Answer} {n : Name} {w : Word} (h : ∀ x ∈ later, x.name ≠ some n) :
    lookupWord (before ++ ⟨some n, .res w⟩ :: later) n = some w := by
  have hlater : later.filter (fun x => x.name == some n) = [] := by simpa using h
  simp [lookupWord, List.filter_append, hlater]

theorem lookupWord_append_of_ne {answers : List Answer} {x : Answer} {n : Name} (h : x.name ≠ some n) :
    lookupWord (answers ++ [x]) n = lookupWord answers n := by
  have hx : [x].filter (fun x => x.name == some n) = [] := by simpa using h
  rw [lookupWord, List.filter_append, hx, List.append_nil, lookupWord]

theorem argWord_of_argIs {answers : List Answer} {arg : Arg} {w : Word} (h : ArgIs answers arg w) :
    argWord answers arg = some w := by
  obtain rfl | ⟨n, before, later, rfl, rfl, hlater⟩ := h
  · rfl
  · exact lookupWord_of_last hlater

theorem usesName_iff {l : Line} : usesName l = true ↔ ∃ n, Arg.name n ∈ l.args := by
  simp only [usesName, List.any_eq_true]
  constructor
  · rintro ⟨x, hx, hname⟩
    cases x with
    | name n => exact ⟨n, hx⟩
    | word w | logical x | text t => cases hname
  · rintro ⟨n, hn⟩
    exact ⟨_, hn, rfl⟩

/-! ### Issuing a line, or waiting (R225) -/

theorem step_issue {s : State} {l : Line} {r : Request} {rest : List HostEvent} (hin : s.inbox = .issue l :: rest)
    (hr : lineRequest s.answers s.ports l = some r) (hready : s.pending = [] ∨ ∀ n, Arg.name n ∉ l.args) :
    step s = .next ({ s with inbox := rest }.submit ⟨l.name, r⟩) := by
  have hgo : ¬ (usesName l = true ∧ s.pending ≠ []) := by
    rintro ⟨huses, hne⟩
    obtain ⟨n, hn⟩ := usesName_iff.1 huses
    exact hready.resolve_left hne n hn
  refine step_done ?_
  rw [nextMove, hin]
  simp only [issueLine, hr, if_neg hgo]

theorem nextMove_issue_waits {s : State} {l : Line} {p : Pending} {ps : List Pending} {rest : List HostEvent}
    (hin : s.inbox = .issue l :: rest) (hp : s.pending = p :: ps) (huses : usesName l = true) :
    nextMove s = .serve p (s.serving p ps s.inbox) := by
  have hne : s.pending ≠ [] := by simp [hp]
  have hserve : issueLine s l rest = serveOldest s := by
    unfold issueLine
    split
    · exact if_pos ⟨huses, hne⟩
    · exact if_pos hne
  rw [nextMove, hin]
  simp only [hserve, serveOldest, hp, State.serving, ← hin]

/-- A line's request is accepted when its text, if it has one, is short enough: a line can spell no reserved code. -/
theorem accepted_of_takes {cfg : Config} {i : Instr} {shape : Shape} {r : Request} (htakes : i.takes = some shape)
    (hop : r.op = encodeOp i) (htext : shape = .text → r.tin.length ≤ cfg.textMax) : accepted cfg r = true := by
  rw [accepted_iff, hop, decodeOp_encodeOp]
  cases i with
  | parse => exact ⟨rfl, fun _ => htext (Option.some.inj htakes).symm⟩
  | reservedSeven | reservedHigh low => cases htakes
  | _ => exact ⟨rfl, fun hparse => by cases hparse⟩

theorem step_issue_of_accepted {s : State} {l : Line} {r : Request} {rest : List HostEvent}
    (hin : s.inbox = .issue l :: rest) (hr : lineRequest s.answers s.ports l = some r)
    (hready : s.pending = [] ∨ ∀ n, Arg.name n ∉ l.args) (ha : accepted s.cfg r = true) :
    step s = .next { s with inbox := rest, pending := s.pending ++ [⟨l.name, r⟩] } := by
  rw [step_issue hin hr hready, State.submit_of_accepted (s := { s with inbox := rest }) (p := ⟨l.name, r⟩) ha]
  rfl

/-- Settles O13: each kind of line spells its request (`lineRequest`), which is issued (`step_issue_of_accepted`) or, when its
text is too long, refused; a line that uses a name waits (`nextMove_issue_waits`). -/
theorem linesSpellTheirRequests : Obligations.LinesSpellTheirRequests := by
  intro s rest name i
  refine ⟨fun x y v w htakes hin hready hx hy => ?_, fun x v htakes hin hready hx => ?_, fun x hx hin => ?_,
    fun x hin hlen => ?_, fun x hin hlen => ?_, fun n args p ps hn hin hp t ht => ?_, fun r => step_raw_of_accepted,
    fun r => step_raw_of_not_accepted⟩
  · refine step_issue_of_accepted hin ?_ ?_ (accepted_of_takes htakes rfl (by simp))
    · simp [lineRequest, htakes, requestOf, argWord_of_argIs hx, argWord_of_argIs hy, State.ports]
    · simpa [eq_comm] using hready
  · refine step_issue_of_accepted hin ?_ ?_ (accepted_of_takes htakes rfl (by simp))
    · simp [lineRequest, htakes, requestOf, argWord_of_argIs hx, State.ports]
    · simpa [eq_comm] using hready
  · refine step_issue_of_accepted hin ?_ (.inr (by simp)) (accepted_of_takes (i := .encode) rfl rfl (by simp))
    exact if_pos hx
  · exact step_issue_of_accepted hin rfl (.inr (by simp)) (accepted_of_takes (i := .parse) rfl rfl fun _ => hlen)
  · have hparse : decodeOp (encodeOp .parse) = .parse := decodeOp_encodeOp .parse
    have hrefused : ¬ accepted s.cfg ⟨encodeOp .parse, s.a, s.b, s.lin, x⟩ = true := by
      rw [accepted_parse_iff hparse]
      exact hlen.not_ge
    rw [step_issue hin rfl (.inr (by simp)), State.submit_of_not_accepted (s := { s with inbox := rest }) hrefused]
    rfl
  · obtain ⟨u, hu, hinu, hpu, -⟩ :=
      step_serving_fared (nextMove_issue_waits hin hp (usesName_iff.2 ⟨n, hn⟩))
    cases ht.symm.trans hu
    exact ⟨hinu, hpu⟩

end Sys2Proof.Machine
end

section
/-!
Host programs (10_state.md R36, R37; 30_encoding.md R59): a well-formed program runs to its end, a response for each line.
-/

namespace Sys2Proof.Machine

/-! ### Well-formed lines spell requests (R59) -/

/-- An operand that can stand for a word does, once the names it uses are bound. -/
theorem argWord_of_isWord {words : List Name} {answers : List Answer} {x : Arg} (h : x.isWord words = true)
    (hbound : ∀ n ∈ words, x = .name n → (lookupWord answers n).isSome = true) : ∃ v, argWord answers x = some v := by
  cases x with
  | name n =>
    rw [Arg.isWord, List.contains_iff_mem] at h
    exact Option.isSome_iff_exists.1 (hbound n h rfl)
  | word w => exact ⟨w, rfl⟩
  | logical x | text t => cases h

theorem requestOf_of_argsFit {words : List Name} {answers : List Answer} {i : Instr} {shape : Shape} {args : List Arg}
    (base : Request) (hfit : argsFit words shape args = true)
    (hbound : ∀ n ∈ words, Arg.name n ∈ args → (lookupWord answers n).isSome = true) :
    ∃ r, requestOf answers base i shape args = some r ∧ r.op = encodeOp i ∧ (shape = .text → Arg.text r.tin ∈ args) := by
  unfold argsFit at hfit
  split at hfit
  · obtain ⟨v, hv⟩ := argWord_of_isWord hfit fun n hn hx => hbound n hn (by simp [hx])
    exact ⟨_, by rw [requestOf, hv, Option.map_some], rfl, by simp⟩
  · obtain ⟨hx, hy⟩ := Bool.and_eq_true_iff.1 hfit
    obtain ⟨v, hv⟩ := argWord_of_isWord hx fun n hn hx => hbound n hn (by simp [hx])
    obtain ⟨w, hw⟩ := argWord_of_isWord hy fun n hn hy => hbound n hn (by simp [hy])
    exact ⟨_, by rw [requestOf, hv, hw, Option.bind_some, Option.map_some], rfl, by simp⟩
  · exact ⟨_, if_pos hfit, rfl, by simp⟩
  · exact ⟨_, rfl, rfl, by simp⟩
  · cases hfit

/-- A well-formed line whose names are bound spells a request of its operation, which is accepted when its text is short
enough. -/
theorem lineRequest_of_wf {words : List Name} {answers : List Answer} {l : Line} {cfg : Config} (base : Request)
    (hwf : l.wf words = true) (hbound : ∀ n ∈ words, Arg.name n ∈ l.args → (lookupWord answers n).isSome = true)
    (htext : ∀ x, Arg.text x ∈ l.args → x.length ≤ cfg.textMax) :
    ∃ r, lineRequest answers base l = some r ∧ r.op = encodeOp l.op ∧ accepted cfg r = true := by
  unfold Line.wf at hwf
  split at hwf
  · rename_i shape htakes
    obtain ⟨r, hr, hop, htin⟩ := requestOf_of_argsFit (i := l.op) base hwf hbound
    refine ⟨r, ?_, hop, accepted_of_takes htakes hop fun hshape => htext _ (htin hshape)⟩
    rw [lineRequest, htakes, Option.bind_some, hr]
  · cases hwf

/-! ### The names a program has bound -/

/-- The last element of a list paired with one that ends in `a`. -/
theorem forall₂_append_singleton {α β : Type} {R : α → β → Prop} {as : List α} {a : α} {bs : List β}
    (h : List.Forall₂ R (as ++ [a]) bs) : ∃ bs' b, bs = bs' ++ [b] ∧ List.Forall₂ R as bs' ∧ R a b := by
  induction as generalizing bs with
  | nil =>
    obtain ⟨b, bs', hb, hnil, rfl⟩ := List.forall₂_cons_left_iff.1 h
    obtain rfl := List.forall₂_nil_left_iff.1 hnil
    exact ⟨[], b, rfl, .nil, hb⟩
  | cons c as ih =>
    obtain ⟨d, ds, hd, hds, rfl⟩ := List.forall₂_cons_left_iff.1 h
    obtain ⟨bs', b, rfl, has, hb⟩ := ih hds
    exact ⟨d :: bs', b, rfl, .cons hd has, hb⟩

/-- Once the outstanding requests are answered, each of these names means a word. -/
def WordsBound (words : List Name) (s : State) : Prop :=
  ∀ added, List.Forall₂ (ownResponse s.cfg) s.pending added →
    ∀ n ∈ words, (lookupWord (s.answers ++ added) n).isSome = true

/-- What is outstanding, or has been answered since, is answered the same way. -/
theorem Progress.own {reqs : List Pending} {s t : State} {added : List Answer} (h : Progress reqs s t)
    (hown : List.Forall₂ (ownResponse t.cfg) t.pending added) :
    ∃ all, List.Forall₂ (ownResponse s.cfg) (s.pending ++ acceptedAmong s.cfg reqs) all ∧
      t.answers ++ added = s.answers ++ all := by
  obtain ⟨served, ⟨hcfg, ⟨given, hanswers, hgiven⟩, -⟩, hp⟩ := h
  rw [hcfg] at hown
  refine ⟨given ++ added, hp ▸ List.rel_append hgiven hown, ?_⟩
  rw [hanswers, List.append_assoc]

theorem WordsBound.of_served {words : List Name} {s t : State} (hs : WordsBound words s) (h : Progress [] s t) :
    WordsBound words t := by
  intro added hown
  obtain ⟨all, hall, hanswers⟩ := h.own hown
  rw [hanswers]
  exact hs all (by simpa [acceptedAmong] using hall)

theorem drives_of_givesWord {i : Instr} (h : i.givesWord = true) : i.drives = some .res := by
  cases i with
  | decode | format | isnan | reservedSeven | reservedHigh low => cases h
  | _ => rfl

/-- An operation that gives a word answers with one. -/
theorem response_of_givesWord {cfg : Config} {p : Pending} {x : Answer} (hx : ownResponse cfg p x)
    (hword : (decodeOp p.req.op).givesWord = true) : ∃ w, x = ⟨p.name, .res w⟩ := by
  obtain ⟨n, r⟩ := x
  obtain ⟨rfl, hexec⟩ := hx
  have hdrives := drives_of_exec (hexec ({ State.reset with cfg := cfg }.present p.req) rfl rfl)
  rw [drives_of_givesWord hword, Option.some_inj] at hdrives
  cases r with
  | res w => exact ⟨w, rfl⟩
  | lres v | tout t | flag f => cases hdrives

/-- After a line its own name is bound when its response is a word, and the other names are bound as before. -/
theorem WordsBound.bind {words : List Name} {s t : State} {l : Line} {r : Request} (hs : WordsBound words s)
    (h : Progress [⟨l.name, r⟩] s t) (hop : r.op = encodeOp l.op) (ha : accepted s.cfg r = true) :
    WordsBound (l.bind words) t := by
  intro added hown n hn
  obtain ⟨all, hall, hanswers⟩ := h.own hown
  rw [acceptedAmong_singleton ha] at hall
  obtain ⟨before, x, rfl, hbefore, hx⟩ := forall₂_append_singleton hall
  rw [hanswers, ← List.append_assoc]
  have hname : x.name = l.name := hx.1
  have hkept (hmem : n ∈ words) (hne : l.name ≠ some n) :
      (lookupWord (s.answers ++ before ++ [x]) n).isSome = true := by
    rw [lookupWord_append_of_ne (hname ▸ hne)]
    exact hs before hbefore n hmem
  cases hl : l.name with
  | none => exact hkept (by simpa [Line.bind, hl] using hn) (by simp [hl])
  | some m =>
    by_cases hword : l.op.givesWord = true
    · by_cases hnm : m = n
      · subst hnm
        obtain ⟨w, rfl⟩ := response_of_givesWord hx (by rwa [hop, decodeOp_encodeOp])
        rw [hl, lookupWord_of_last (by simp)]
        rfl
      · have hmem : n ∈ words := by simpa [Line.bind, hl, hword, Ne.symm hnm] using hn
        exact hkept hmem (by simpa [hl] using hnm)
    · have hmem : n ∈ words ∧ n ≠ m := by simpa [Line.bind, hl, hword] using hn
      exact hkept hmem.1 (by simpa [hl, eq_comm] using hmem.2)

/-! ### Running a program -/

/-- A state in which these lines are the host's moves to come, well-formed after names that are, or will be, bound. -/
structure Running (s : State) (words : List Name) (lines : Program) : Prop where
  inbox : s.inbox = lines.map .issue
  wf : wfLines words lines = true
  texts : ∀ l ∈ lines, ∀ x, Arg.text x ∈ l.args → x.length ≤ s.cfg.textMax
  accepted : ∀ p ∈ s.pending, accepted s.cfg p.req = true
  bound : WordsBound words s

/-- The oldest outstanding request is served while the host waits. -/
theorem Running.serve {s : State} {words : List Name} {lines : Program} {p : Pending} {ps : List Pending}
    (h : Running s words lines) (hp : s.pending = p :: ps) (hmove : nextMove s = .serve p (s.serving p ps s.inbox)) :
    ∃ t, step s = .next t ∧ Running t words lines ∧ t.pending = ps ∧ Progress [] s t := by
  obtain ⟨t, hstep, hin, hpt, hprogress⟩ := step_serving_progress hp hmove (h.accepted p (hp ▸ List.mem_cons_self))
  refine ⟨t, hstep, ⟨hin.trans h.inbox, h.wf, ?_, hprogress.accepted h.accepted, h.bound.of_served hprogress⟩, hpt,
    hprogress⟩
  rw [hprogress.cfg]
  exact h.texts

/-- The next line is issued when nothing is outstanding or it uses no name. -/
theorem Running.issue {s : State} {words : List Name} {l : Line} {lines : Program} (h : Running s words (l :: lines))
    (hready : s.pending = [] ∨ ∀ n, Arg.name n ∉ l.args) :
    ∃ t r, step s = .next t ∧ Running t (l.bind words) lines ∧ t.pending = s.pending ++ [⟨l.name, r⟩] ∧
      Progress [⟨l.name, r⟩] s t ∧ Machine.accepted s.cfg r = true := by
  obtain ⟨hwf, hwfs⟩ := Bool.and_eq_true_iff.1 h.wf
  obtain ⟨htext, htexts⟩ := List.forall_mem_cons.1 h.texts
  have hbound : ∀ n ∈ words, Arg.name n ∈ l.args → (lookupWord s.answers n).isSome = true := by
    intro n hn hname
    have hp := hready.resolve_right fun hfree => hfree n hname
    have := h.bound [] (hp ▸ .nil) n hn
    rwa [List.append_nil] at this
  obtain ⟨r, hr, hop, ha⟩ := lineRequest_of_wf s.ports hwf hbound htext
  have hprogress := (progress_inbox s (lines.map .issue)).trans (progress_submit _ ⟨l.name, r⟩)
  refine ⟨_, r, step_issue h.inbox hr hready, ⟨?_, hwfs, ?_, hprogress.accepted h.accepted, h.bound.bind hprogress hop ha⟩,
    ?_, hprogress, ha⟩
  · simp
  · simpa using htexts
  · exact congrArg State.pending (State.submit_of_accepted (s := { s with inbox := lines.map .issue }) (p := ⟨l.name, r⟩) ha)

/-- While lines or requests are left, the CORE serves the oldest request or the next line can be issued (R225). -/
theorem Running.serves_or_ready {s : State} {words : List Name} {lines : Program} (h : Running s words lines)
    (hleft : lines ≠ [] ∨ s.pending ≠ []) :
    (∃ p ps, s.pending = p :: ps ∧ nextMove s = .serve p (s.serving p ps s.inbox)) ∨
      ∃ l rest, lines = l :: rest ∧ (s.pending = [] ∨ ∀ n, Arg.name n ∉ l.args) := by
  cases lines with
  | nil =>
    obtain ⟨p, ps, hp⟩ := List.exists_cons_of_ne_nil (hleft.resolve_left (by simp))
    exact .inl ⟨p, ps, hp, nextMove_of_hostWaits hp (.inl ⟨h.inbox, h.inbox⟩)⟩
  | cons l rest =>
    cases hp : s.pending with
    | nil => exact .inr ⟨l, rest, rfl, .inl rfl⟩
    | cons p ps =>
      by_cases huses : usesName l = true
      · exact .inl ⟨p, ps, rfl, nextMove_issue_waits h.inbox hp huses⟩
      · exact .inr ⟨l, rest, rfl, .inr fun n hn => huses (usesName_iff.2 ⟨n, hn⟩)⟩

/-- Every step serves a request or issues a line; when none is left, the lines have been issued as accepted requests, under
their names. -/
theorem run_running {s : State} {words : List Name} {lines : Program} {k : Nat} (h : Running s words lines)
    (hk : k = 2 * lines.length + s.pending.length) :
    ∃ t reqs, Host.Core.run Sys2Proof.core k s = .next t ∧ t.inbox = [] ∧ t.pending = [] ∧ Progress reqs s t ∧
      reqs.map (·.name) = lines.map (·.name) ∧ ∀ p ∈ reqs, accepted s.cfg p.req = true := by
  induction k generalizing s words lines with
  | zero =>
    obtain rfl : lines = [] := List.length_eq_zero_iff.1 (by omega)
    exact ⟨s, [], rfl, h.inbox, List.length_eq_zero_iff.1 (by omega), progress_inbox s s.inbox, rfl, by simp⟩
  | succ k ih =>
    have hleft : lines ≠ [] ∨ s.pending ≠ [] := by
      rw [← not_and_or]
      rintro ⟨rfl, hp⟩
      simp [hp] at hk
    obtain ⟨p, ps, hp, hmove⟩ | ⟨l, rest, rfl, hready⟩ := h.serves_or_ready hleft
    · obtain ⟨t, hstep, ht, hpt, hprogress⟩ := h.serve hp hmove
      rw [hp, List.length_cons] at hk
      obtain ⟨u, reqs, hrun, hinu, hpu, hprogress', hnames, hacc⟩ := ih ht (by rw [hpt]; omega)
      rw [hprogress.cfg] at hacc
      exact ⟨u, reqs, (run_succ hstep k).trans hrun, hinu, hpu, hprogress.trans hprogress', hnames, hacc⟩
    · obtain ⟨t, r, hstep, ht, hpt, hprogress, ha⟩ := h.issue hready
      rw [List.length_cons] at hk
      obtain ⟨u, reqs, hrun, hinu, hpu, hprogress', hnames, hacc⟩ :=
        ih ht (by rw [hpt, List.length_append, List.length_singleton]; omega)
      rw [hprogress.cfg] at hacc
      refine ⟨u, ⟨l.name, r⟩ :: reqs, (run_succ hstep k).trans hrun, hinu, hpu, hprogress.trans hprogress', ?_,
        List.forall_mem_cons.2 ⟨ha, hacc⟩⟩
      rw [List.map_cons, hnames, List.map_cons]

/-- Answers that are requests' own carry their names. -/
theorem names_of_ownResponses {cfg : Config} {ps : List Pending} {xs : List Answer}
    (h : List.Forall₂ (ownResponse cfg) ps xs) : xs.map (·.name) = ps.map (·.name) := by
  induction h with
  | nil => rfl
  | cons hx _ ih => rw [List.map_cons, List.map_cons, hx.1, ih]

/-- Settles O15: the lines are issued as accepted requests (`run_running`), so each gets its response (`Progress.fared`). -/
theorem wellFormedProgramsRunToTheirEnd : Obligations.WellFormedProgramsRunToTheirEnd := by
  intro s words lines hp hin hwords hwf htexts
  have hbound : WordsBound words s := by
    intro added hown n hn
    rw [hp, List.forall₂_nil_left_iff] at hown
    rw [hown, List.append_nil]
    exact hwords n hn
  obtain ⟨t, reqs, hrun, hint, hpt, hprogress, hnames, hacc⟩ :=
    run_running ⟨hin, hwf, htexts, by simp [hp], hbound⟩ (by rw [hp])
  have hfared := hprogress.fared hp hpt
  rw [acceptedAmong_of_forall hacc, refusedAmong_of_forall hacc] at hfared
  obtain ⟨-, ⟨added, hanswers, hown⟩, hrefusals⟩ := hfared
  have hadded : added.map (·.name) = lines.map (·.name) := (names_of_ownResponses hown).trans hnames
  refine ⟨t, hrun, hint, hpt, ?_, by rw [hanswers, List.map_append, hadded], hrefusals.trans (List.append_nil _)⟩
  have hlength : added.length = lines.length := by simpa using congrArg List.length hadded
  exact (congrArg List.length hanswers).trans (by rw [List.length_append, hlength]; rfl)

end Sys2Proof.Machine
end
